-- ==== Sys2Proof/Word.lean ====
section
/-! DEFINITION. The word types of the machine (spec/00_scope.md R5, R7). -/

namespace Sys2Proof

/-- A register, pc, address or data word: XLEN is 32 (R5). -/
abbrev Word := BitVec 32

/-- One byte of memory (R52). -/
abbrev Byte := BitVec 8

/-- A 5-bit register field of the instruction word, the index of one of the 32 registers (R20). -/
abbrev Reg := BitVec 5

/-- The 7-bit opcode field (R5, R71). -/
abbrev Opcode := BitVec 7

/-- A 12-bit CSR address (R5, R81). -/
abbrev CsrNum := BitVec 12

end Sys2Proof
end

