-- ==== Sys2Proof/Syntax.lean ====
section
/-! DEFINITION. The 55 instructions (spec/00_scope.md R2, spec/30_encoding.md R73, R74): their names and their terms. -/

namespace Sys2Proof

/-- The 55 mnemonics in the order of the spec's opcode table (R73). -/
inductive Mnemonic where
  | lui | auipc
  | jal | jalr
  | beq | bne | blt | bge | bltu | bgeu
  | lb | lh | lw | lbu | lhu
  | sb | sh | sw
  | addi | slti | sltiu | xori | ori | andi
  | slli | srli | srai
  | add | sub | sll | srl | sra | slt | sltu | xor | or | and
  | ecall | ebreak | reti | wfi
  | csrrw | csrrs | csrrc | csrrwi | csrrsi | csrrci
  | mul | mulh | mulhsu | mulhu | div | divu | rem | remu
deriving DecidableEq, Repr

/-- Every mnemonic, once (R2). -/
def Mnemonic.all : List Mnemonic :=
  [.lui, .auipc, .jal, .jalr, .beq, .bne, .blt, .bge, .bltu, .bgeu,
   .lb, .lh, .lw, .lbu, .lhu, .sb, .sh, .sw,
   .addi, .slti, .sltiu, .xori, .ori, .andi, .slli, .srli, .srai,
   .add, .sub, .sll, .srl, .sra, .slt, .sltu, .xor, .or, .and,
   .ecall, .ebreak, .reti, .wfi,
   .csrrw, .csrrs, .csrrc, .csrrwi, .csrrsi, .csrrci,
   .mul, .mulh, .mulhsu, .mulhu, .div, .divu, .rem, .remu]

/-- One instruction with its operands, one constructor per row of spec/opcode_table.json.

`rd`, `rs1`, `rs2` are register fields. An I, S, B or J immediate is the 32-bit word that the layout
parameter rebuilds (R76 to R79); `WellFormed` says which words a layout can hold. A U immediate is the
20-bit field `ir[31:12]` (R75). `imm5` is the field of R80 and `csr` that of R81. SLLI, SRLI and SRAI
have no operand register of their own: SHIFTI_SRC names it (R156). -/
inductive Instr where
  -- format U
  | lui (rd : Reg) (imm : BitVec 20)
  | auipc (rd : Reg) (imm : BitVec 20)
  -- formats J and I
  | jal (rd : Reg) (off : Word)
  | jalr (rd rs1 : Reg) (imm : Word)
  -- format B
  | beq (rs1 rs2 : Reg) (off : Word)
  | bne (rs1 rs2 : Reg) (off : Word)
  | blt (rs1 rs2 : Reg) (off : Word)
  | bge (rs1 rs2 : Reg) (off : Word)
  | bltu (rs1 rs2 : Reg) (off : Word)
  | bgeu (rs1 rs2 : Reg) (off : Word)
  -- format I, loads
  | lb (rd rs1 : Reg) (imm : Word)
  | lh (rd rs1 : Reg) (imm : Word)
  | lw (rd rs1 : Reg) (imm : Word)
  | lbu (rd rs1 : Reg) (imm : Word)
  | lhu (rd rs1 : Reg) (imm : Word)
  -- format S: `rs2` is the value register, `rs1` the base
  | sb (rs2 rs1 : Reg) (imm : Word)
  | sh (rs2 rs1 : Reg) (imm : Word)
  | sw (rs2 rs1 : Reg) (imm : Word)
  -- format I, arithmetic
  | addi (rd rs1 : Reg) (imm : Word)
  | slti (rd rs1 : Reg) (imm : Word)
  | sltiu (rd rs1 : Reg) (imm : Word)
  | xori (rd rs1 : Reg) (imm : Word)
  | ori (rd rs1 : Reg) (imm : Word)
  | andi (rd rs1 : Reg) (imm : Word)
  -- format SH
  | slli (rd : Reg) (imm5 : BitVec 5)
  | srli (rd : Reg) (imm5 : BitVec 5)
  | srai (rd : Reg) (imm5 : BitVec 5)
  -- format R
  | add (rd rs1 rs2 : Reg)
  | sub (rd rs1 rs2 : Reg)
  | sll (rd rs1 rs2 : Reg)
  | srl (rd rs1 rs2 : Reg)
  | sra (rd rs1 rs2 : Reg)
  | slt (rd rs1 rs2 : Reg)
  | sltu (rd rs1 rs2 : Reg)
  | xor (rd rs1 rs2 : Reg)
  | or (rd rs1 rs2 : Reg)
  | and (rd rs1 rs2 : Reg)
  -- format SYS
  | ecall
  | ebreak
  | reti
  | wfi
  -- formats CSR and CSRI
  | csrrw (rd rs1 : Reg) (csr : CsrNum)
  | csrrs (rd rs1 : Reg) (csr : CsrNum)
  | csrrc (rd rs1 : Reg) (csr : CsrNum)
  | csrrwi (rd : Reg) (imm5 : BitVec 5) (csr : CsrNum)
  | csrrsi (rd : Reg) (imm5 : BitVec 5) (csr : CsrNum)
  | csrrci (rd : Reg) (imm5 : BitVec 5) (csr : CsrNum)
  -- format R, multiply and divide
  | mul (rd rs1 rs2 : Reg)
  | mulh (rd rs1 rs2 : Reg)
  | mulhsu (rd rs1 rs2 : Reg)
  | mulhu (rd rs1 rs2 : Reg)
  | div (rd rs1 rs2 : Reg)
  | divu (rd rs1 rs2 : Reg)
  | rem (rd rs1 rs2 : Reg)
  | remu (rd rs1 rs2 : Reg)
deriving DecidableEq, Repr

/-- The name of an instruction. -/
def Instr.mnemonic : Instr → Mnemonic
  | .lui .. => .lui
  | .auipc .. => .auipc
  | .jal .. => .jal
  | .jalr .. => .jalr
  | .beq .. => .beq
  | .bne .. => .bne
  | .blt .. => .blt
  | .bge .. => .bge
  | .bltu .. => .bltu
  | .bgeu .. => .bgeu
  | .lb .. => .lb
  | .lh .. => .lh
  | .lw .. => .lw
  | .lbu .. => .lbu
  | .lhu .. => .lhu
  | .sb .. => .sb
  | .sh .. => .sh
  | .sw .. => .sw
  | .addi .. => .addi
  | .slti .. => .slti
  | .sltiu .. => .sltiu
  | .xori .. => .xori
  | .ori .. => .ori
  | .andi .. => .andi
  | .slli .. => .slli
  | .srli .. => .srli
  | .srai .. => .srai
  | .add .. => .add
  | .sub .. => .sub
  | .sll .. => .sll
  | .srl .. => .srl
  | .sra .. => .sra
  | .slt .. => .slt
  | .sltu .. => .sltu
  | .xor .. => .xor
  | .or .. => .or
  | .and .. => .and
  | .ecall => .ecall
  | .ebreak => .ebreak
  | .reti => .reti
  | .wfi => .wfi
  | .csrrw .. => .csrrw
  | .csrrs .. => .csrrs
  | .csrrc .. => .csrrc
  | .csrrwi .. => .csrrwi
  | .csrrsi .. => .csrrsi
  | .csrrci .. => .csrrci
  | .mul .. => .mul
  | .mulh .. => .mulh
  | .mulhsu .. => .mulhsu
  | .mulhu .. => .mulhu
  | .div .. => .div
  | .divu .. => .divu
  | .rem .. => .rem
  | .remu .. => .remu

end Sys2Proof
end

