-- ==== Sys2Proof/Config.lean ====
section
/-! DEFINITION. What an implementation fixes: the constants of spec/00_scope.md R5 and the types of the named
parameters of R6. The parameters' default values stand in Sys2Proof/Decode.lean (`Config.default`). -/

namespace Sys2Proof

/-- RAM_BASE (R5). -/
def ramBase : Nat := 0x80000000

/-- RAM_SIZE in bytes, 32 MiB (R5). -/
def ramSize : Nat := 0x2000000

/-- RAM_END, exclusive (R5). -/
def ramEnd : Nat := 0x82000000

/-- PORT_CHAR (R5). -/
def portCharAddr : Word := 0x10000000#32

/-- PORT_DEC (R5). -/
def portDecAddr : Word := 0x10000004#32

/-- PORT_HEX (R5). -/
def portHexAddr : Word := 0x10000008#32

/-- The address of mstatus (R31). -/
def csrMstatus : CsrNum := 0x300#12

/-- The address of mepc (R31). -/
def csrMepc : CsrNum := 0x341#12

/-- An immediate layout (parameters IMM_I, IMM_S, IMM_B, IMM_J): the positions of the instruction word that
supply the immediate's bits, most significant first, and the number of zero bits appended below them. The
immediate is the sign extension of that field (R76 to R79, R82).
DESIGN CHOICE (unsafe, log 3): a layout is a selection of bits of the word. -/
structure ImmLayout where
  bits : List (Fin 32)
  zeros : Nat
deriving DecidableEq, Repr

/-- The three register spans of R71: bits 11..7, 16..12 and 21..17.
DESIGN CHOICE (unsafe, log 4): BRANCH_REGS chooses among them. -/
inductive RegField where
  | rd
  | rs1
  | rs2Reg
deriving DecidableEq, Repr

/-- SHIFTI_SRC: the register field that names the operand of SLLI, SRLI and SRAI (R156). -/
inductive ShiftiSrc where
  | rs1
  | rd
deriving DecidableEq, Repr

/-- CSR_MODE: the write condition of CSRRS and CSRRC (R202, R203, R207). -/
inductive CsrMode where
  | reference
  | riscvStandard
deriving DecidableEq, Repr

/-- PC_AFTER_HALT: what pc holds after an execute-time halt (R88). -/
inductive PcAfterHalt where
  | stay
  | advance
deriving DecidableEq, Repr

/-- The named parameters of R6, as plain data. -/
structure Config where
  /-- OPCODE_MAP (R73): the opcode of each instruction. -/
  opcodeMap : List (Opcode × Mnemonic)
  /-- IMM_I (R76). -/
  immI : ImmLayout
  /-- IMM_S (R77). -/
  immS : ImmLayout
  /-- IMM_B (R78). -/
  immB : ImmLayout
  /-- IMM_J (R79). -/
  immJ : ImmLayout
  /-- BRANCH_REGS, the field on the left of a branch's comparison (R112). -/
  branchFirst : RegField
  /-- BRANCH_REGS, the field on the right of a branch's comparison (R112). -/
  branchSecond : RegField
  /-- SHIFTI_SRC (R156). -/
  shiftiSrc : ShiftiSrc
  /-- CSR_MODE (R202, R207). -/
  csrMode : CsrMode
  /-- MSTATUS_IE_BIT (R192). -/
  mstatusIeBit : Fin 32
  /-- PC_AFTER_HALT (R88). -/
  pcAfterHalt : PcAfterHalt
  /-- INIT_PC (R35). -/
  initPc : Word
  /-- INIT_REGS (R35); entry 0 is not used. -/
  initRegs : Vector Word 32
  /-- INIT_CSR for mstatus (R35). -/
  initMstatus : Word
  /-- INIT_CSR for mepc (R35). -/
  initMepc : Word
deriving DecidableEq, Repr

end Sys2Proof
end

