-- ==== Sys2Proof/WellFormed.lean ====
section
/-! DEFINITION. Which instruction terms a word can encode: the ranges of spec/30_encoding.md R76 to R79, which an
assembler must check (R85). Register fields, imm5, CSR addresses and U immediates are bounded by their types. -/

namespace Sys2Proof

/-- The number of bits of a layout's field, the appended zeros included. -/
def ImmLayout.width (l : ImmLayout) : Nat := l.bits.length + l.zeros

/-- The immediate lies in the signed range of the layout's field and its low appended bits are 0. For the defaults
these are the ranges of R76 to R79, an odd branch or jump offset among what is refused (R85). -/
def ImmLayout.fits (l : ImmLayout) (imm : Word) : Bool :=
  decide (-(2 ^ l.width : Int) ≤ 2 * imm.toInt) && decide (2 * imm.toInt < (2 ^ l.width : Int)) &&
    decide (imm.toNat % 2 ^ l.zeros = 0)

/-- A term that some instruction word encodes under the parameters `cfg` (R85). -/
def Instr.wellFormed (cfg : Config) : Instr → Bool
  | .lui _ _ => true
  | .auipc _ _ => true
  | .jal _ off => cfg.immJ.fits off
  | .jalr _ _ imm => cfg.immI.fits imm
  | .beq _ _ off => cfg.immB.fits off
  | .bne _ _ off => cfg.immB.fits off
  | .blt _ _ off => cfg.immB.fits off
  | .bge _ _ off => cfg.immB.fits off
  | .bltu _ _ off => cfg.immB.fits off
  | .bgeu _ _ off => cfg.immB.fits off
  | .lb _ _ imm => cfg.immI.fits imm
  | .lh _ _ imm => cfg.immI.fits imm
  | .lw _ _ imm => cfg.immI.fits imm
  | .lbu _ _ imm => cfg.immI.fits imm
  | .lhu _ _ imm => cfg.immI.fits imm
  | .sb _ _ imm => cfg.immS.fits imm
  | .sh _ _ imm => cfg.immS.fits imm
  | .sw _ _ imm => cfg.immS.fits imm
  | .addi _ _ imm => cfg.immI.fits imm
  | .slti _ _ imm => cfg.immI.fits imm
  | .sltiu _ _ imm => cfg.immI.fits imm
  | .xori _ _ imm => cfg.immI.fits imm
  | .ori _ _ imm => cfg.immI.fits imm
  | .andi _ _ imm => cfg.immI.fits imm
  | .slli _ _ => true
  | .srli _ _ => true
  | .srai _ _ => true
  | .add _ _ _ => true
  | .sub _ _ _ => true
  | .sll _ _ _ => true
  | .srl _ _ _ => true
  | .sra _ _ _ => true
  | .slt _ _ _ => true
  | .sltu _ _ _ => true
  | .xor _ _ _ => true
  | .or _ _ _ => true
  | .and _ _ _ => true
  | .ecall => true
  | .ebreak => true
  | .reti => true
  | .wfi => true
  | .csrrw _ _ _ => true
  | .csrrs _ _ _ => true
  | .csrrc _ _ _ => true
  | .csrrwi _ _ _ => true
  | .csrrsi _ _ _ => true
  | .csrrci _ _ _ => true
  | .mul _ _ _ => true
  | .mulh _ _ _ => true
  | .mulhsu _ _ _ => true
  | .mulhu _ _ _ => true
  | .div _ _ _ => true
  | .divu _ _ _ => true
  | .rem _ _ _ => true
  | .remu _ _ _ => true

end Sys2Proof
end

