-- ==== Sys2Proof/Decode.lean ====
section
/-! DEFINITION. Instruction fields, immediates, the default parameters, the decoder and the encoder
(spec/30_encoding.md), and the byte order they share with the memory (spec/20_memory.md R45). -/

namespace Sys2Proof

/-! ### Byte order (R45, R70) -/

/-- The byte of a word at byte position `k`, position 0 the least significant. -/
def byteOf (w : Word) (k : Nat) : Byte := w.extractLsb' (8 * k) 8

/-- The half-word whose least significant byte is at the lower address (R43, R45). -/
def halfOfBytes (b0 b1 : Byte) : BitVec 16 := b1 ++ b0

/-- The word whose least significant byte is at the lowest address (R43, R45). -/
def wordOfBytes (b0 b1 b2 b3 : Byte) : Word := b3 ++ b2 ++ b1 ++ b0

/-- The four bytes of a word in the order memory holds them, lowest address first (R46). -/
def bytesOfWord (w : Word) : List Byte := [byteOf w 0, byteOf w 1, byteOf w 2, byteOf w 3]

/-! ### Fields (R71, R75, R80, R81) -/

/-- `opcode`, bits 6..0. -/
def fieldOpcode (w : Word) : Opcode := w.extractLsb' 0 7

/-- `rd`, bits 11..7. -/
def fieldRd (w : Word) : Reg := w.extractLsb' 7 5

/-- `rs2_store`, bits 11..7. -/
def fieldRs2Store (w : Word) : Reg := w.extractLsb' 7 5

/-- `rs1`, bits 16..12. -/
def fieldRs1 (w : Word) : Reg := w.extractLsb' 12 5

/-- `rs2_reg`, bits 21..17. -/
def fieldRs2Reg (w : Word) : Reg := w.extractLsb' 17 5

/-- `imm5`, bits 16..12 (R80). -/
def fieldImm5 (w : Word) : BitVec 5 := w.extractLsb' 12 5

/-- `csr_num`, bits 31..20, not sign-extended (R81). -/
def fieldCsr (w : Word) : CsrNum := w.extractLsb' 20 12

/-- Bits 31..12, the U immediate before its twelve zeros (R75). -/
def fieldImmU (w : Word) : BitVec 20 := w.extractLsb' 12 20

/-- The lowest bit of a register span (R71). -/
def RegField.lo : RegField → Nat
  | .rd => 7
  | .rs1 => 12
  | .rs2Reg => 17

/-- The register named by a span (R71). -/
def RegField.read (f : RegField) (w : Word) : Reg := w.extractLsb' f.lo 5

/-- The immediate that a layout rebuilds: the sign extension of the selected bits with the zeros appended
(R76 to R79, R82). -/
def ImmLayout.value (l : ImmLayout) (w : Word) : Word :=
  (BitVec.ofBoolListBE
    (l.bits.map (fun (p : Fin 32) => w.getLsbD p.val) ++ List.replicate l.zeros false)).signExtend 32

/-! ### Default parameters (spec/00_scope.md R6, spec/92_eei_decisions.md) -/

/-- Bits 31..20 (D2 to D4). -/
def bits31to20 : List (Fin 32) := [31, 30, 29, 28, 27, 26, 25, 24, 23, 22, 21, 20]

/-- Bits 31..12 (D5). -/
def bits31to12 : List (Fin 32) := bits31to20 ++ [19, 18, 17, 16, 15, 14, 13, 12]

/-- OPCODE_MAP by default: the table of R73 (the spec's decision D1, log 2). -/
def defaultOpcodeMap : List (Opcode × Mnemonic) :=
  [(1, .lui), (2, .auipc), (3, .jal), (4, .jalr), (5, .beq), (6, .bne),
   (7, .blt), (8, .bge), (9, .bltu), (10, .bgeu), (11, .lb), (12, .lh),
   (13, .lw), (14, .lbu), (15, .lhu), (16, .sb), (17, .sh), (18, .sw),
   (19, .addi), (20, .slti), (21, .sltiu), (22, .xori), (23, .ori), (24, .andi),
   (25, .slli), (26, .srli), (27, .srai), (28, .add), (29, .sub), (30, .sll),
   (31, .srl), (32, .sra), (33, .slt), (34, .sltu), (35, .xor), (36, .or),
   (37, .and), (38, .ecall), (39, .ebreak), (40, .reti), (41, .wfi), (42, .csrrw),
   (43, .csrrs), (44, .csrrc), (45, .csrrwi), (46, .csrrsi), (47, .csrrci), (56, .mul),
   (57, .mulh), (58, .mulhsu), (59, .mulhu), (60, .div), (61, .divu), (62, .rem),
   (63, .remu)]

/-- The default of every parameter of R6. Each is the spec's own decision D1 to D6, D10 to D12, D16, D17 where the
source is silent (logs 2 to 10). -/
def Config.default : Config where
  opcodeMap := defaultOpcodeMap
  immI := { bits := bits31to20, zeros := 0 }
  immS := { bits := bits31to20, zeros := 0 }
  immB := { bits := bits31to20, zeros := 1 }
  immJ := { bits := bits31to12, zeros := 1 }
  branchFirst := .rs1
  branchSecond := .rd
  shiftiSrc := .rs1
  csrMode := .reference
  mstatusIeBit := 3
  pcAfterHalt := .stay
  initPc := 0x80000000#32
  initRegs := Vector.replicate 32 0#32
  initMstatus := 0#32
  initMepc := 0#32

/-- No bit of the layout lies in a position that `taken` marks, no bit is used twice, and the field fits a word. -/
def ImmLayout.lawful (l : ImmLayout) (taken : Nat → Bool) : Bool :=
  decide l.bits.Nodup && l.bits.all (fun (p : Fin 32) => !taken p.val) && decide (l.width ≤ 32)

/-- Bit `p` belongs to the span `f`. -/
def RegField.holds (f : RegField) (p : Nat) : Bool := decide (f.lo ≤ p) && decide (p < f.lo + 5)

/-- What a setting of the encoding parameters must satisfy: OPCODE_MAP gives each of the 55 instructions one opcode,
injectively, and never assigns 0 (R73), and no format uses a bit for two fields (R74). -/
def Config.lawful (cfg : Config) : Bool :=
  decide (cfg.opcodeMap.map Prod.fst).Nodup && decide (cfg.opcodeMap.map Prod.snd).Nodup &&
    Mnemonic.all.all (fun m => (cfg.opcodeMap.map Prod.snd).contains m) &&
    !(cfg.opcodeMap.map Prod.fst).contains 0#7 &&
    cfg.immI.lawful (fun p => decide (p < 17)) &&
    cfg.immS.lawful (fun p => decide (p < 17)) &&
    cfg.immJ.lawful (fun p => decide (p < 12)) &&
    cfg.immB.lawful (fun p => decide (p < 7) || cfg.branchFirst.holds p || cfg.branchSecond.holds p) &&
    decide (cfg.branchFirst ≠ cfg.branchSecond)

/-! ### Decode (R71, R72, R86) -/

/-- What a word decodes to: one of the 55 instructions, or an unknown opcode, rejected with its value (R83, R86). -/
inductive Decoded where
  | instr (i : Instr)
  | unknownOpcode (op : Opcode)
deriving DecidableEq, Repr

/-- The instruction that an opcode selects; no other bit of the word takes part (R72, R73). -/
def Config.select (cfg : Config) (op : Opcode) : Option Mnemonic := cfg.opcodeMap.lookup op

/-- The operands of a selected instruction, read by its format (R74). Bits that the format does not use are not
looked at (R72). -/
def Mnemonic.build (cfg : Config) (w : Word) : Mnemonic → Instr
  | .lui => .lui (fieldRd w) (fieldImmU w)
  | .auipc => .auipc (fieldRd w) (fieldImmU w)
  | .jal => .jal (fieldRd w) (cfg.immJ.value w)
  | .jalr => .jalr (fieldRd w) (fieldRs1 w) (cfg.immI.value w)
  | .beq => .beq (cfg.branchFirst.read w) (cfg.branchSecond.read w) (cfg.immB.value w)
  | .bne => .bne (cfg.branchFirst.read w) (cfg.branchSecond.read w) (cfg.immB.value w)
  | .blt => .blt (cfg.branchFirst.read w) (cfg.branchSecond.read w) (cfg.immB.value w)
  | .bge => .bge (cfg.branchFirst.read w) (cfg.branchSecond.read w) (cfg.immB.value w)
  | .bltu => .bltu (cfg.branchFirst.read w) (cfg.branchSecond.read w) (cfg.immB.value w)
  | .bgeu => .bgeu (cfg.branchFirst.read w) (cfg.branchSecond.read w) (cfg.immB.value w)
  | .lb => .lb (fieldRd w) (fieldRs1 w) (cfg.immI.value w)
  | .lh => .lh (fieldRd w) (fieldRs1 w) (cfg.immI.value w)
  | .lw => .lw (fieldRd w) (fieldRs1 w) (cfg.immI.value w)
  | .lbu => .lbu (fieldRd w) (fieldRs1 w) (cfg.immI.value w)
  | .lhu => .lhu (fieldRd w) (fieldRs1 w) (cfg.immI.value w)
  | .sb => .sb (fieldRs2Store w) (fieldRs1 w) (cfg.immS.value w)
  | .sh => .sh (fieldRs2Store w) (fieldRs1 w) (cfg.immS.value w)
  | .sw => .sw (fieldRs2Store w) (fieldRs1 w) (cfg.immS.value w)
  | .addi => .addi (fieldRd w) (fieldRs1 w) (cfg.immI.value w)
  | .slti => .slti (fieldRd w) (fieldRs1 w) (cfg.immI.value w)
  | .sltiu => .sltiu (fieldRd w) (fieldRs1 w) (cfg.immI.value w)
  | .xori => .xori (fieldRd w) (fieldRs1 w) (cfg.immI.value w)
  | .ori => .ori (fieldRd w) (fieldRs1 w) (cfg.immI.value w)
  | .andi => .andi (fieldRd w) (fieldRs1 w) (cfg.immI.value w)
  | .slli => .slli (fieldRd w) (fieldImm5 w)
  | .srli => .srli (fieldRd w) (fieldImm5 w)
  | .srai => .srai (fieldRd w) (fieldImm5 w)
  | .add => .add (fieldRd w) (fieldRs1 w) (fieldRs2Reg w)
  | .sub => .sub (fieldRd w) (fieldRs1 w) (fieldRs2Reg w)
  | .sll => .sll (fieldRd w) (fieldRs1 w) (fieldRs2Reg w)
  | .srl => .srl (fieldRd w) (fieldRs1 w) (fieldRs2Reg w)
  | .sra => .sra (fieldRd w) (fieldRs1 w) (fieldRs2Reg w)
  | .slt => .slt (fieldRd w) (fieldRs1 w) (fieldRs2Reg w)
  | .sltu => .sltu (fieldRd w) (fieldRs1 w) (fieldRs2Reg w)
  | .xor => .xor (fieldRd w) (fieldRs1 w) (fieldRs2Reg w)
  | .or => .or (fieldRd w) (fieldRs1 w) (fieldRs2Reg w)
  | .and => .and (fieldRd w) (fieldRs1 w) (fieldRs2Reg w)
  | .ecall => .ecall
  | .ebreak => .ebreak
  | .reti => .reti
  | .wfi => .wfi
  | .csrrw => .csrrw (fieldRd w) (fieldRs1 w) (fieldCsr w)
  | .csrrs => .csrrs (fieldRd w) (fieldRs1 w) (fieldCsr w)
  | .csrrc => .csrrc (fieldRd w) (fieldRs1 w) (fieldCsr w)
  | .csrrwi => .csrrwi (fieldRd w) (fieldImm5 w) (fieldCsr w)
  | .csrrsi => .csrrsi (fieldRd w) (fieldImm5 w) (fieldCsr w)
  | .csrrci => .csrrci (fieldRd w) (fieldImm5 w) (fieldCsr w)
  | .mul => .mul (fieldRd w) (fieldRs1 w) (fieldRs2Reg w)
  | .mulh => .mulh (fieldRd w) (fieldRs1 w) (fieldRs2Reg w)
  | .mulhsu => .mulhsu (fieldRd w) (fieldRs1 w) (fieldRs2Reg w)
  | .mulhu => .mulhu (fieldRd w) (fieldRs1 w) (fieldRs2Reg w)
  | .div => .div (fieldRd w) (fieldRs1 w) (fieldRs2Reg w)
  | .divu => .divu (fieldRd w) (fieldRs1 w) (fieldRs2Reg w)
  | .rem => .rem (fieldRd w) (fieldRs1 w) (fieldRs2Reg w)
  | .remu => .remu (fieldRd w) (fieldRs1 w) (fieldRs2Reg w)

/-- Decode reads one 32-bit word and is total (R86). -/
def decode (cfg : Config) (w : Word) : Decoded :=
  match cfg.select (fieldOpcode w) with
  | some m => .instr (m.build cfg w)
  | none => .unknownOpcode (fieldOpcode w)

/-- What a stream of bytes decodes to, lowest address first: an instruction and the bytes after it, or a named
rejection. Every instruction is four bytes (R70). -/
inductive DecodedBytes where
  | instr (i : Instr) (rest : List Byte)
  | unknownOpcode (op : Opcode)
  | truncated (present : Nat)
deriving DecidableEq, Repr

/-- Decode the instruction at the head of a stream of bytes (R70). -/
def decodeBytes (cfg : Config) : List Byte → DecodedBytes
  | b0 :: b1 :: b2 :: b3 :: rest =>
    match decode cfg (wordOfBytes b0 b1 b2 b3) with
    | .instr i => .instr i rest
    | .unknownOpcode op => .unknownOpcode op
  | bs => .truncated bs.length

/-- The word of a table entry: bits from `nbits` up are 0. -/
def tableWord (nbits w : Nat) : Word := BitVec.ofNat 32 (w % 2 ^ nbits)

/-- The instruction that the decoder reads, under the default parameters, from an instruction whose bits are `w`,
laid out in memory order; none where it refuses. -/
def decodeTableWord (nbits w : Nat) : Option Instr :=
  match decodeBytes Config.default (bytesOfWord (tableWord nbits w)) with
  | .instr i _ => some i
  | .unknownOpcode _ => none
  | .truncated _ => none

/-! ### Encode (R74, R85) -/

/-- A register number in its span. -/
def putReg (f : RegField) (r : Reg) : Word := (r.setWidth 32) <<< f.lo

/-- The bits of an immediate in the positions of the word that a layout gives them: the head of the list is the
field's top bit. The bits that the layout appends as zeros are not stored. -/
def placeBits (zeros : Nat) (imm : Word) : List (Fin 32) → Word
  | [] => 0#32
  | p :: ps => (if imm.getLsbD (ps.length + zeros) then 1#32 <<< p.val else 0#32) ||| placeBits zeros imm ps

/-- An immediate in its layout's positions. -/
def ImmLayout.place (l : ImmLayout) (imm : Word) : Word := placeBits l.zeros imm l.bits

/-- The opcode that OPCODE_MAP gives an instruction (R73). -/
def Config.opcodeFor (cfg : Config) (m : Mnemonic) : Opcode :=
  match cfg.opcodeMap.find? (fun e => e.2 == m) with
  | some e => e.1
  | none => 0#7

/-- Operand bits of format U. -/
def encU (rd : Reg) (imm : BitVec 20) : Word := putReg .rd rd ||| (imm.setWidth 32) <<< 12

/-- Operand bits of format I. -/
def encI (cfg : Config) (rd rs1 : Reg) (imm : Word) : Word :=
  putReg .rd rd ||| putReg .rs1 rs1 ||| cfg.immI.place imm

/-- Operand bits of format S; the value register stands in bits 11..7 (R71). -/
def encS (cfg : Config) (rs2 rs1 : Reg) (imm : Word) : Word :=
  putReg .rd rs2 ||| putReg .rs1 rs1 ||| cfg.immS.place imm

/-- Operand bits of format B. -/
def encB (cfg : Config) (rs1 rs2 : Reg) (off : Word) : Word :=
  putReg cfg.branchFirst rs1 ||| putReg cfg.branchSecond rs2 ||| cfg.immB.place off

/-- Operand bits of format R. -/
def encR (rd rs1 rs2 : Reg) : Word := putReg .rd rd ||| putReg .rs1 rs1 ||| putReg .rs2Reg rs2

/-- Operand bits of format SH. -/
def encSH (rd : Reg) (imm5 : BitVec 5) : Word := putReg .rd rd ||| putReg .rs1 imm5

/-- Operand bits of formats CSR and CSRI: `rs1` and `imm5` are the same span (R71). -/
def encCsr (rd rs1 : Reg) (csr : CsrNum) : Word :=
  putReg .rd rd ||| putReg .rs1 rs1 ||| (csr.setWidth 32) <<< 20

/-- The operand bits of an instruction, 0 in the bits its format ignores (R85; DESIGN CHOICE, log 22). -/
def Instr.operandBits (cfg : Config) : Instr → Word
  | .lui rd imm => encU rd imm
  | .auipc rd imm => encU rd imm
  | .jal rd off => putReg .rd rd ||| cfg.immJ.place off
  | .jalr rd rs1 imm => encI cfg rd rs1 imm
  | .beq rs1 rs2 off => encB cfg rs1 rs2 off
  | .bne rs1 rs2 off => encB cfg rs1 rs2 off
  | .blt rs1 rs2 off => encB cfg rs1 rs2 off
  | .bge rs1 rs2 off => encB cfg rs1 rs2 off
  | .bltu rs1 rs2 off => encB cfg rs1 rs2 off
  | .bgeu rs1 rs2 off => encB cfg rs1 rs2 off
  | .lb rd rs1 imm => encI cfg rd rs1 imm
  | .lh rd rs1 imm => encI cfg rd rs1 imm
  | .lw rd rs1 imm => encI cfg rd rs1 imm
  | .lbu rd rs1 imm => encI cfg rd rs1 imm
  | .lhu rd rs1 imm => encI cfg rd rs1 imm
  | .sb rs2 rs1 imm => encS cfg rs2 rs1 imm
  | .sh rs2 rs1 imm => encS cfg rs2 rs1 imm
  | .sw rs2 rs1 imm => encS cfg rs2 rs1 imm
  | .addi rd rs1 imm => encI cfg rd rs1 imm
  | .slti rd rs1 imm => encI cfg rd rs1 imm
  | .sltiu rd rs1 imm => encI cfg rd rs1 imm
  | .xori rd rs1 imm => encI cfg rd rs1 imm
  | .ori rd rs1 imm => encI cfg rd rs1 imm
  | .andi rd rs1 imm => encI cfg rd rs1 imm
  | .slli rd imm5 => encSH rd imm5
  | .srli rd imm5 => encSH rd imm5
  | .srai rd imm5 => encSH rd imm5
  | .add rd rs1 rs2 => encR rd rs1 rs2
  | .sub rd rs1 rs2 => encR rd rs1 rs2
  | .sll rd rs1 rs2 => encR rd rs1 rs2
  | .srl rd rs1 rs2 => encR rd rs1 rs2
  | .sra rd rs1 rs2 => encR rd rs1 rs2
  | .slt rd rs1 rs2 => encR rd rs1 rs2
  | .sltu rd rs1 rs2 => encR rd rs1 rs2
  | .xor rd rs1 rs2 => encR rd rs1 rs2
  | .or rd rs1 rs2 => encR rd rs1 rs2
  | .and rd rs1 rs2 => encR rd rs1 rs2
  | .ecall => 0#32
  | .ebreak => 0#32
  | .reti => 0#32
  | .wfi => 0#32
  | .csrrw rd rs1 csr => encCsr rd rs1 csr
  | .csrrs rd rs1 csr => encCsr rd rs1 csr
  | .csrrc rd rs1 csr => encCsr rd rs1 csr
  | .csrrwi rd imm5 csr => encCsr rd imm5 csr
  | .csrrsi rd imm5 csr => encCsr rd imm5 csr
  | .csrrci rd imm5 csr => encCsr rd imm5 csr
  | .mul rd rs1 rs2 => encR rd rs1 rs2
  | .mulh rd rs1 rs2 => encR rd rs1 rs2
  | .mulhsu rd rs1 rs2 => encR rd rs1 rs2
  | .mulhu rd rs1 rs2 => encR rd rs1 rs2
  | .div rd rs1 rs2 => encR rd rs1 rs2
  | .divu rd rs1 rs2 => encR rd rs1 rs2
  | .rem rd rs1 rs2 => encR rd rs1 rs2
  | .remu rd rs1 rs2 => encR rd rs1 rs2

/-- The word of a well-formed instruction (R74, R85). -/
def encode (cfg : Config) (i : Instr) : Word :=
  (cfg.opcodeFor i.mnemonic).setWidth 32 ||| i.operandBits cfg

/-- The bytes of a well-formed instruction, lowest address first (R70). -/
def encodeBytes (cfg : Config) (i : Instr) : List Byte := bytesOfWord (encode cfg i)

end Sys2Proof
end

