-- ==== Sys2Proof/Machine/State.lean ====
section
/-! DEFINITION. The state of the machine (spec/10_state.md, spec/20_memory.md R41, R47), the reasons a step can stop,
and the state after reset (R35). -/

namespace Sys2Proof.Machine

/-- The two faults that the memory subsystem reports (R49). -/
inductive MemFaultKind where
  | outOfRange
  | misaligned
deriving DecidableEq, Repr

/-- A memory fault with the address of the access (R49). -/
structure MemFault where
  kind : MemFaultKind
  addr : Word
deriving DecidableEq, Repr

/-- Why a run ended: `halt_cause` (R30, R240). -/
inductive HaltCause where
  | fetchFault (kind : MemFaultKind) (addr : Word)
  | accessFault (kind : MemFaultKind) (addr : Word)
  | unknownOpcode (op : Opcode)
  | ebreak
deriving DecidableEq, Repr

/-- One output event `Out(port, value)` (R47): 8 bits for PORT_CHAR, 32 bits for the other two. -/
inductive OutEvent where
  | char (c : Byte)
  | dec (v : Word)
  | hex (v : Word)
deriving DecidableEq, Repr

/-- The RAM: the bytes that are not 0, addresses strictly rising. An unlisted RAM address reads 0, as zero-initialised
RAM does (R62). -/
structure Memory where
  cells : List Host.Cell
deriving DecidableEq, Repr

/-- The whole state of the block. Each field is named as the spec names it (spec/10_state.md, Summary). -/
structure State where
  /-- R24. -/
  pc : Word
  /-- R25. -/
  nextPc : Word
  /-- R26. -/
  ir : Word
  /-- R20; slot 0 is never read as anything but 0 nor written (R21, R22). -/
  regs : Vector Word 32
  /-- CSR 0x300 (R31, R32). -/
  mstatus : Word
  /-- CSR 0x341 (R31, R33). -/
  mepc : Word
  /-- The one-way halt latch (R29). -/
  halted : Bool
  /-- `halt_cause` (R30). -/
  haltCause : Option HaltCause
  /-- The output-event trace, oldest first (R47). -/
  trace : List OutEvent
  /-- The RAM image (R42, R62). -/
  ram : Memory
  /-- The parameters of R6. The model's own field: fixed for the machine, written by no step.
  DESIGN CHOICE (safe, log 1). -/
  cfg : Config
deriving DecidableEq, Repr

/-- Why the machine cannot take a step. -/
inductive Fault where
  /-- Raised by `step` alone, when the halt latch is set: no step is enabled (R245). Safe: the hardware takes no step
  there either (DEDUCED, log 13). -/
  | halted
deriving DecidableEq, Repr

/-- Why the model gives no answer. -/
inductive Refusal where
  /-- Raised by an arm of `exec` whose instruction has no meaning in the model. Safe. No arm raises it. -/
  | notModelled (mnemonic : String)
  /-- Raised by `loadImage` and `construct` alone, for an image longer than the RAM, with the image's length
  (R61). Safe: the spec refuses it too, before any instruction runs. -/
  | imageTooLarge (length : Nat)
deriving DecidableEq, Repr

/-- RAM as it is created: every byte 0 (R62). -/
def Memory.zeroed : Memory := { cells := [] }

/-- The state at construction over a given RAM (R35, R270). `next_pc` and `ir` are unspecified there until the first
fetch: 0 is the model's value (DESIGN CHOICE, unsafe, log 11). -/
def State.initial (cfg : Config) (ram : Memory) : State where
  pc := cfg.initPc
  nextPc := 0#32
  ir := 0#32
  regs := cfg.initRegs.set 0 0#32
  mstatus := cfg.initMstatus
  mepc := cfg.initMepc
  halted := false
  haltCause := none
  trace := []
  ram := ram
  cfg := cfg

/-- The machine right after reset under the default parameters, with no image loaded (R35, R62; logs 9 to 11, 14). -/
def State.reset : State := State.initial Config.default Memory.zeroed

end Sys2Proof.Machine
end

