-- ==== Sys2Proof/Machine/Ops.lean ====
section
/-! DEFINITION. The named operations over registers, CSRs and memory, the halt (the hardware's whole fault reaction) and
the return from interrupt, and the pieces of the engine cycle that every instruction shares. -/

namespace Sys2Proof.Machine

/-- What a step or a meaning answers. -/
abbrev Result := Host.Outcome State Fault Refusal

/-! ### General registers (R20 to R22) -/

/-- `x[r]`: the hard-wired register 0 yields 0 whatever has been written (R21). -/
def State.x (s : State) (r : Reg) : Word := if r = 0#5 then 0#32 else s.regs[r.toNat]

/-- `x[r] <- v`, the only register-write path: nothing for register 0 (R22). -/
def State.setReg (s : State) (r : Reg) (v : Word) : State :=
  if r = 0#5 then s else { s with regs := s.regs.set r.toNat v }

/-! ### Program counter (R25) -/

/-- `next_pc <- target` (R7). -/
def State.setNextPc (s : State) (target : Word) : State := { s with nextPc := target }

/-! ### CSR file (R200) -/

/-- CsrRead: every address but two reads 0 (R200). -/
def State.csrRead (s : State) (c : CsrNum) : Word :=
  if c = csrMstatus then s.mstatus else if c = csrMepc then s.mepc else 0#32

/-- CsrWrite: the word is stored whole; every address but two ignores it (R200). -/
def State.csrWrite (s : State) (c : CsrNum) (v : Word) : State :=
  if c = csrMstatus then { s with mstatus := v } else if c = csrMepc then { s with mepc := v } else s

/-- The write condition of CSRRS and CSRRC: the rd field is not 0 under Reference (R202, R203), the rs1 field is
not 0 under RiscvStandard (R207). -/
def csrModifies (mode : CsrMode) (rd rs1 : Reg) : Bool :=
  match mode with
  | .reference => decide (rd ≠ 0#5)
  | .riscvStandard => decide (rs1 ≠ 0#5)

/-- CsrWrite under a condition. -/
def State.csrWriteIf (s : State) (cond : Bool) (c : CsrNum) (v : Word) : State :=
  if cond then s.csrWrite c v else s

/-! ### RAM bytes (R42) -/

/-- The byte listed at an address, or 0 (R62). -/
def lookupCell : List Host.Cell → Nat → Byte
  | [], _ => 0#8
  | (k, b) :: rest, a => if k = a then b else lookupCell rest a

/-- A list of cells after a byte is written: sorted by address, with no byte 0 listed. -/
def storeCell : List Host.Cell → Nat → Byte → List Host.Cell
  | [], a, v => if v = 0#8 then [] else [(a, v)]
  | (k, b) :: rest, a, v =>
    if a < k then (if v = 0#8 then (k, b) :: rest else (a, v) :: (k, b) :: rest)
    else if a = k then (if v = 0#8 then rest else (a, v) :: rest)
    else (k, b) :: storeCell rest a v

/-- The canonical form of a RAM: addresses strictly rising, and no listed byte equal to what an unlisted one reads. -/
def Memory.wf (m : Memory) : Bool :=
  decide (m.cells.Pairwise (fun c d => c.1 < d.1)) && m.cells.all (fun c => c.2 != 0#8)

/-- Every listed address is a RAM address (R42). -/
def Memory.within (m : Memory) : Bool :=
  m.cells.all (fun c => decide (ramBase ≤ c.1) && decide (c.1 < ramEnd))

/-- `ram[off]` for the byte at address `a`. -/
def Memory.byte (m : Memory) (a : Nat) : Byte := lookupCell m.cells a

/-- `ram[off] := v` for the byte at address `a`. -/
def Memory.setByte (m : Memory) (a : Nat) (v : Byte) : Memory := { cells := storeCell m.cells a v }

/-- Bytes written at rising addresses from `a` (R61). -/
def Memory.setBytes (m : Memory) (a : Nat) : List Byte → Memory
  | [] => m
  | b :: bs => (m.setByte a b).setBytes (a + 1) bs

/-! ### The memory subsystem (R43, R46) -/

/-- The width of an access (R43, R52). -/
inductive MemKind where
  | byte
  | half
  | word
deriving DecidableEq, Repr

/-- The number of bytes of an access (R52). -/
def MemKind.bytes : MemKind → Nat
  | .byte => 1
  | .half => 2
  | .word => 4

/-- The three output ports (R41). -/
inductive Port where
  | char
  | dec
  | hex
deriving DecidableEq, Repr

/-- The port at an address, matched by equality (R41). -/
def portAt (a : Word) : Option Port :=
  if a = portCharAddr then some .char
  else if a = portDecAddr then some .dec
  else if a = portHexAddr then some .hex
  else none

/-- An address lies in RAM (R41). -/
def inRam (a : Word) : Bool := decide (ramBase ≤ a.toNat) && decide (a.toNat < ramEnd)

/-- Natural alignment: no constraint for a byte (R43). -/
def aligned (k : MemKind) (a : Word) : Bool := decide (a.toNat % k.bytes = 0)

/-- The tests of an access in their order: port, range, alignment (R43, R46, R246). -/
def accessFault (k : MemKind) (a : Word) : Option MemFault :=
  if (portAt a).isSome then none
  else if !inRam a then some { kind := .outOfRange, addr := a }
  else if !aligned k a then some { kind := .misaligned, addr := a }
  else none

/-- The data step of a RAM read: little-endian, byte and half sign-extended (R43 to R45). -/
def Memory.load (m : Memory) (k : MemKind) (a : Nat) : Word :=
  match k with
  | .byte => (m.byte a).signExtend 32
  | .half => (halfOfBytes (m.byte a) (m.byte (a + 1))).signExtend 32
  | .word => wordOfBytes (m.byte a) (m.byte (a + 1)) (m.byte (a + 2)) (m.byte (a + 3))

/-- The data step of a RAM write: the low bytes of the value, least significant at the lowest address (R45, R46). -/
def Memory.store (m : Memory) (k : MemKind) (a : Nat) (v : Word) : Memory :=
  m.setBytes a ((bytesOfWord v).take k.bytes)

/-- The event of a port write, from the whole 32-bit value (R46, R47). -/
def Port.event (p : Port) (v : Word) : OutEvent :=
  match p with
  | .char => .char (byteOf v 0)
  | .dec => .dec v
  | .hex => .hex v

/-- An event appended to the trace (R47). -/
def State.emit (s : State) (e : OutEvent) : State := { s with trace := s.trace ++ [e] }

/-- `read(kind, addr)`: a port yields 0 for any kind and has no effect (R43, R48). -/
def memRead (s : State) (k : MemKind) (a : Word) : Except MemFault Word :=
  match accessFault k a with
  | some f => .error f
  | none => if (portAt a).isSome then .ok 0#32 else .ok (s.ram.load k a.toNat)

/-- `write(kind, addr, value)`: a port emits one event for any kind; a faulting write has no effect (R46, R50). -/
def memWrite (s : State) (k : MemKind) (a : Word) (v : Word) : Except MemFault State :=
  match accessFault k a with
  | some f => .error f
  | none =>
    match portAt a with
    | some p => .ok (s.emit (p.event v))
    | none => .ok { s with ram := s.ram.store k a.toNat v }

/-! ### The halt and the return from interrupt

The hardware has no trap entry (R248): taking a fault is halting, and nothing is saved, no CSR is written and no
handler is entered. -/

/-- The engine halts and records the cause (R89, R241 to R244). -/
def State.halt (s : State) (c : HaltCause) : State := { s with halted := true, haltCause := some c }

/-- `raise Fault(kind, addr)` inside an instruction: the instruction halts before any write (R7, R242). -/
def raiseAccess (f : MemFault) (s : State) : Result := .next (s.halt (.accessFault f.kind f.addr))

/-- The mask of the interrupt-enable bit (R192). -/
def interruptEnable (cfg : Config) : Word := 1#32 <<< cfg.mstatusIeBit.val

/-- RETI's bookkeeping: the interrupt-enable bit is set and mepc is staged (R192, R249). -/
def State.returnFromInterrupt (s : State) : State :=
  { s with mstatus := s.mstatus ||| interruptEnable s.cfg, nextPc := s.mepc }

/-! ### The engine cycle (R87 to R89) -/

/-- Fetch is `read(Word, pc)` (R55, R87). -/
def fetch (s : State) : Except MemFault Word := memRead s .word s.pc

/-- What a successful fetch leaves: `ir` and the staged `next_pc` (R87). -/
def State.fetched (s : State) (w : Word) : State := { s with ir := w, nextPc := s.pc + 4#32 }

/-- Commit: pc takes next_pc when the instruction completed; when it halted, PC_AFTER_HALT decides (R88). -/
def State.commit (s : State) : State :=
  if s.halted then
    match s.cfg.pcAfterHalt with
    | .stay => s
    | .advance => { s with pc := s.nextPc }
  else { s with pc := s.nextPc }

/-- Commit of whatever a meaning answered. -/
def commitResult : Result → Result
  | .next t => .next t.commit
  | .fault f => .fault f
  | .refused r => .refused r

/-- A fetch fault halts the engine before decode; pc, next_pc and ir stay (R87, R241). -/
def State.haltOnFetch (s : State) (f : MemFault) : State := s.halt (.fetchFault f.kind f.addr)

/-- An unknown opcode halts the engine after the fetch of its word (R89, R243). -/
def State.haltOnOpcode (s : State) (w : Word) (op : Opcode) : State :=
  ((s.fetched w).halt (.unknownOpcode op)).commit

/-- The address where an instruction word can be placed so that the next fetch reads it: pc where that is a word of
RAM, else RAM_BASE. -/
def fetchSlot (s : State) : Word :=
  if inRam s.pc && aligned .word s.pc then s.pc else BitVec.ofNat 32 ramBase

end Sys2Proof.Machine
end

