-- ==== Sys2Proof/Machine/Operands.lean ====
section
/-! DEFINITION. The operand forms: effective addresses, branch and jump targets, shift operands, immediates. -/

namespace Sys2Proof.Machine

/-- `ea := x[base] + off`, modulo 2^32, the one addressing mode (R130). -/
def effectiveAddr (s : State) (base : Reg) (off : Word) : Word := s.x base + off

/-- `immU`: the 20-bit field above twelve zeros (R75). -/
def immU (imm : BitVec 20) : Word := imm ++ 0#12

/-- The target of a branch or a JAL, relative to the instruction's own address (R110, R112). -/
def relativeTarget (s : State) (off : Word) : Word := s.pc + off

/-- The target of a JALR: bit 0 cleared, bit 1 not (R111). -/
def indirectTarget (s : State) (rs1 : Reg) (imm : Word) : Word := (s.x rs1 + imm) &&& ~~~1#32

/-- The link value `pc + 4` (R110, R111). -/
def linkValue (s : State) : Word := s.pc + 4#32

/-- The register that SLLI, SRLI and SRAI shift: the field SHIFTI_SRC names, where bits 16..12 are imm5 too (R156). -/
def shiftSource (src : ShiftiSrc) (rd : Reg) (imm5 : BitVec 5) : Reg :=
  match src with
  | .rs1 => imm5
  | .rd => rd

/-- The amount of SLL, SRL and SRA: the low five bits of the register (R172; the spec's decision D7, log 19). -/
def registerShift (v : Word) : Nat := (v &&& 0x1F#32).toNat

/-- `zext_5(imm5)` (R80). -/
def zext5 (imm5 : BitVec 5) : Word := imm5.setWidth 32

end Sys2Proof.Machine
end

