-- ==== Sys2Proof/Machine/Flags.lean ====
section
/-! DEFINITION. Comparisons. The machine has no condition codes (spec/10_state.md R28): a comparison's result goes to a
general register or decides a branch, and the only flag is the halt latch, which `State.halt` sets. -/

namespace Sys2Proof.Machine

/-- `a <s b` on the signed readings (R7). -/
def ltSigned (a b : Word) : Bool := decide (a.toInt < b.toInt)

/-- `a <u b` on the unsigned readings (R7). -/
def ltUnsigned (a b : Word) : Bool := decide (a.toNat < b.toNat)

/-- A comparison yields 1 or 0 as a word (R7). -/
def flagWord (b : Bool) : Word := if b then 1#32 else 0#32

end Sys2Proof.Machine
end

