-- ==== Sys2Proof/Machine/Alu.lean ====
section
/-! DEFINITION. The arithmetic that several instructions share: shifts, products and quotients. Products and signed
quotients are computed on exact integers and narrowed at the end (spec/48_muldiv.md). -/

namespace Sys2Proof.Machine

/-- Shift left, zeros entering at bit 0 (R7). -/
def shiftLeft (a : Word) (n : Nat) : Word := a <<< n

/-- Shift right, zeros entering at bit 31 (R7). -/
def shiftRightLogical (a : Word) (n : Nat) : Word := a >>> n

/-- Shift right, copies of bit 31 entering at bit 31 (R7). -/
def shiftRightArith (a : Word) (n : Nat) : Word := a.sshiftRight n

/-- The low half of an exact product (R220). -/
def productLow (p : Int) : Word := (BitVec.ofInt 64 p).extractLsb' 0 32

/-- The high half of the 64-bit two's-complement form of an exact product (R221 to R223). -/
def productHigh (p : Int) : Word := (BitVec.ofInt 64 p).extractLsb' 32 32

/-- Signed quotient, toward zero, with the two special cases (R224). -/
def divSigned (a b : Word) : Word :=
  if b = 0#32 then 0xFFFFFFFF#32
  else if a = 0x80000000#32 ∧ b = 0xFFFFFFFF#32 then 0x80000000#32
  else BitVec.ofInt 32 (a.toInt.tdiv b.toInt)

/-- Unsigned quotient with its special case (R225). -/
def divUnsigned (a b : Word) : Word :=
  if b = 0#32 then 0xFFFFFFFF#32 else BitVec.ofNat 32 (a.toNat / b.toNat)

/-- Signed remainder, of the dividend's sign, with the two special cases (R226). -/
def remSigned (a b : Word) : Word :=
  if b = 0#32 then a
  else if a = 0x80000000#32 ∧ b = 0xFFFFFFFF#32 then 0#32
  else BitVec.ofInt 32 (a.toInt - b.toInt * a.toInt.tdiv b.toInt)

/-- Unsigned remainder with its special case (R227). -/
def remUnsigned (a b : Word) : Word :=
  if b = 0#32 then a else BitVec.ofNat 32 (a.toNat % b.toNat)

end Sys2Proof.Machine
end

