-- ==== Sys2Proof/Machine/Control.lean ====
section
/-! DEFINITION. Jumps and branches (spec/42_control_transfer.md). None checks its target: a bad one faults at the next
fetch (R119). -/

namespace Sys2Proof.Machine

/-- The shared end of JAL and JALR: the target is staged and the link value written (R110, R111). -/
def jumpAndLink (rd : Reg) (target : Word) (s : State) : Result :=
  .next ((s.setNextPc target).setReg rd (linkValue s))

/-- The shared end of the branches: the target is staged when the condition holds (R112). -/
def branchIf (cond : Bool) (off : Word) (s : State) : Result :=
  .next (if cond then s.setNextPc (relativeTarget s off) else s)

/-- JAL (R110). -/
def execJal (rd : Reg) (off : Word) (s : State) : Result := jumpAndLink rd (relativeTarget s off) s

/-- JALR (R111): the target is computed before rd is written. -/
def execJalr (rd rs1 : Reg) (imm : Word) (s : State) : Result := jumpAndLink rd (indirectTarget s rs1 imm) s

/-- BEQ (R113). -/
def execBeq (rs1 rs2 : Reg) (off : Word) (s : State) : Result := branchIf (s.x rs1 == s.x rs2) off s

/-- BNE (R114). -/
def execBne (rs1 rs2 : Reg) (off : Word) (s : State) : Result := branchIf (s.x rs1 != s.x rs2) off s

/-- BLT (R115). -/
def execBlt (rs1 rs2 : Reg) (off : Word) (s : State) : Result := branchIf (ltSigned (s.x rs1) (s.x rs2)) off s

/-- BGE (R116). -/
def execBge (rs1 rs2 : Reg) (off : Word) (s : State) : Result := branchIf (!ltSigned (s.x rs1) (s.x rs2)) off s

/-- BLTU (R117). -/
def execBltu (rs1 rs2 : Reg) (off : Word) (s : State) : Result := branchIf (ltUnsigned (s.x rs1) (s.x rs2)) off s

/-- BGEU (R118). -/
def execBgeu (rs1 rs2 : Reg) (off : Word) (s : State) : Result := branchIf (!ltUnsigned (s.x rs1) (s.x rs2)) off s

end Sys2Proof.Machine
end

