-- ==== Sys2Proof/Machine/Csr.lean ====
section
/-! DEFINITION. CSR instructions (spec/47_csr.md). -/

namespace Sys2Proof.Machine

/-- The shared end of the CSR instructions: the CSR is written when the condition holds, and rd receives the old value
in every case (R201 to R208). Both are computed from the state before any write. -/
def csrUpdate (cond : Bool) (rd : Reg) (c : CsrNum) (v : Word) (s : State) : Result :=
  .next ((s.csrWriteIf cond c v).setReg rd (s.csrRead c))

/-- CSRRW (R201): the write is unconditional. -/
def execCsrrw (rd rs1 : Reg) (csr : CsrNum) (s : State) : Result :=
  csrUpdate true rd csr (s.x rs1) s

/-- CSRRS (R202, R207). -/
def execCsrrs (rd rs1 : Reg) (csr : CsrNum) (s : State) : Result :=
  csrUpdate (csrModifies s.cfg.csrMode rd rs1) rd csr (s.csrRead csr ||| s.x rs1) s

/-- CSRRC (R203, R207). -/
def execCsrrc (rd rs1 : Reg) (csr : CsrNum) (s : State) : Result :=
  csrUpdate (csrModifies s.cfg.csrMode rd rs1) rd csr (s.csrRead csr &&& ~~~(s.x rs1)) s

/-- CSRRWI (R204): the write is unconditional. -/
def execCsrrwi (rd : Reg) (imm5 : BitVec 5) (csr : CsrNum) (s : State) : Result :=
  csrUpdate true rd csr (zext5 imm5) s

/-- CSRRSI (R205): the write is gated on imm5. -/
def execCsrrsi (rd : Reg) (imm5 : BitVec 5) (csr : CsrNum) (s : State) : Result :=
  csrUpdate (decide (imm5 ≠ 0#5)) rd csr (s.csrRead csr ||| zext5 imm5) s

/-- CSRRCI (R206): the write is gated on imm5. -/
def execCsrrci (rd : Reg) (imm5 : BitVec 5) (csr : CsrNum) (s : State) : Result :=
  csrUpdate (decide (imm5 ≠ 0#5)) rd csr (s.csrRead csr &&& ~~~(zext5 imm5)) s


end Sys2Proof.Machine
end

