-- ==== Sys2Proof/Machine/IntImm.lean ====
section
/-! DEFINITION. Integer register-immediate instructions (spec/44_integer_immediate.md). -/

namespace Sys2Proof.Machine

/-- ADDI (R150). -/
def execAddi (rd rs1 : Reg) (imm : Word) (s : State) : Result := .next (s.setReg rd (s.x rs1 + imm))

/-- SLTI (R151). -/
def execSlti (rd rs1 : Reg) (imm : Word) (s : State) : Result := .next (s.setReg rd (flagWord (ltSigned (s.x rs1) imm)))

/-- SLTIU (R152): the sign-extended immediate compared unsigned. -/
def execSltiu (rd rs1 : Reg) (imm : Word) (s : State) : Result := .next (s.setReg rd (flagWord (ltUnsigned (s.x rs1) imm)))

/-- XORI (R153). -/
def execXori (rd rs1 : Reg) (imm : Word) (s : State) : Result := .next (s.setReg rd (s.x rs1 ^^^ imm))

/-- ORI (R154). -/
def execOri (rd rs1 : Reg) (imm : Word) (s : State) : Result := .next (s.setReg rd (s.x rs1 ||| imm))

/-- ANDI (R155). -/
def execAndi (rd rs1 : Reg) (imm : Word) (s : State) : Result := .next (s.setReg rd (s.x rs1 &&& imm))

/-- The operand of a shift by an immediate (R156). -/
def shiftOperand (rd : Reg) (imm5 : BitVec 5) (s : State) : Word := s.x (shiftSource s.cfg.shiftiSrc rd imm5)

/-- SLLI (R157). -/
def execSlli (rd : Reg) (imm5 : BitVec 5) (s : State) : Result :=
  .next (s.setReg rd (shiftLeft (shiftOperand rd imm5 s) imm5.toNat))

/-- SRLI (R158). -/
def execSrli (rd : Reg) (imm5 : BitVec 5) (s : State) : Result :=
  .next (s.setReg rd (shiftRightLogical (shiftOperand rd imm5 s) imm5.toNat))

/-- SRAI (R159). -/
def execSrai (rd : Reg) (imm5 : BitVec 5) (s : State) : Result :=
  .next (s.setReg rd (shiftRightArith (shiftOperand rd imm5 s) imm5.toNat))


end Sys2Proof.Machine
end

