-- ==== Sys2Proof/Machine/IntReg.lean ====
section
/-! DEFINITION. Integer register-register instructions (spec/45_integer_register.md). -/

namespace Sys2Proof.Machine

/-- ADD (R170). -/
def execAdd (rd rs1 rs2 : Reg) (s : State) : Result :=
  .next (s.setReg rd (s.x rs1 + s.x rs2))

/-- SUB (R171). -/
def execSub (rd rs1 rs2 : Reg) (s : State) : Result :=
  .next (s.setReg rd (s.x rs1 - s.x rs2))

/-- SLL (R172). -/
def execSll (rd rs1 rs2 : Reg) (s : State) : Result :=
  .next (s.setReg rd (shiftLeft (s.x rs1) (registerShift (s.x rs2))))

/-- SRL (R173). -/
def execSrl (rd rs1 rs2 : Reg) (s : State) : Result :=
  .next (s.setReg rd (shiftRightLogical (s.x rs1) (registerShift (s.x rs2))))

/-- SRA (R174). -/
def execSra (rd rs1 rs2 : Reg) (s : State) : Result :=
  .next (s.setReg rd (shiftRightArith (s.x rs1) (registerShift (s.x rs2))))

/-- SLT (R175). -/
def execSlt (rd rs1 rs2 : Reg) (s : State) : Result :=
  .next (s.setReg rd (flagWord (ltSigned (s.x rs1) (s.x rs2))))

/-- SLTU (R176). -/
def execSltu (rd rs1 rs2 : Reg) (s : State) : Result :=
  .next (s.setReg rd (flagWord (ltUnsigned (s.x rs1) (s.x rs2))))

/-- XOR (R177). -/
def execXor (rd rs1 rs2 : Reg) (s : State) : Result :=
  .next (s.setReg rd (s.x rs1 ^^^ s.x rs2))

/-- OR (R178). -/
def execOr (rd rs1 rs2 : Reg) (s : State) : Result :=
  .next (s.setReg rd (s.x rs1 ||| s.x rs2))

/-- AND (R179). -/
def execAnd (rd rs1 rs2 : Reg) (s : State) : Result :=
  .next (s.setReg rd (s.x rs1 &&& s.x rs2))


end Sys2Proof.Machine
end

