-- ==== Sys2Proof/Machine/LoadStore.lean ====
section
/-! DEFINITION. Loads and stores (spec/43_load_store.md). -/

namespace Sys2Proof.Machine

/-- A load: the access, then the value as the instruction keeps it, into rd. A faulting access halts before any write
(R131 to R135, R139, R242). -/
def loadInto (k : MemKind) (keep : Word → Word) (rd rs1 : Reg) (imm : Word) (s : State) : Result :=
  match memRead s k (effectiveAddr s rs1 imm) with
  | .error f => raiseAccess f s
  | .ok v => .next (s.setReg rd (keep v))

/-- A store: the whole register goes to the memory subsystem. A faulting access halts before any write
(R136 to R139, R242). -/
def storeFrom (k : MemKind) (rs2 rs1 : Reg) (imm : Word) (s : State) : Result :=
  match memWrite s k (effectiveAddr s rs1 imm) (s.x rs2) with
  | .error f => raiseAccess f s
  | .ok t => .next t

/-- LB (R131). -/
def execLb (rd rs1 : Reg) (imm : Word) (s : State) : Result := loadInto .byte (fun v => v) rd rs1 imm s

/-- LH (R132). -/
def execLh (rd rs1 : Reg) (imm : Word) (s : State) : Result := loadInto .half (fun v => v) rd rs1 imm s

/-- LW (R133). -/
def execLw (rd rs1 : Reg) (imm : Word) (s : State) : Result := loadInto .word (fun v => v) rd rs1 imm s

/-- LBU (R134). -/
def execLbu (rd rs1 : Reg) (imm : Word) (s : State) : Result :=
  loadInto .byte (fun v => v &&& 0x000000FF#32) rd rs1 imm s

/-- LHU (R135). -/
def execLhu (rd rs1 : Reg) (imm : Word) (s : State) : Result :=
  loadInto .half (fun v => v &&& 0x0000FFFF#32) rd rs1 imm s

/-- SB (R136). -/
def execSb (rs2 rs1 : Reg) (imm : Word) (s : State) : Result := storeFrom .byte rs2 rs1 imm s

/-- SH (R137). -/
def execSh (rs2 rs1 : Reg) (imm : Word) (s : State) : Result := storeFrom .half rs2 rs1 imm s

/-- SW (R138). -/
def execSw (rs2 rs1 : Reg) (imm : Word) (s : State) : Result := storeFrom .word rs2 rs1 imm s

end Sys2Proof.Machine
end

