-- ==== Sys2Proof/Machine/MulDiv.lean ====
section
/-! DEFINITION. Multiply and divide (spec/48_muldiv.md). -/

namespace Sys2Proof.Machine

/-- MUL (R220): the same low half for signed and unsigned readings. -/
def execMul (rd rs1 rs2 : Reg) (s : State) : Result :=
  .next (s.setReg rd (productLow ((s.x rs1).toInt * (s.x rs2).toInt)))

/-- MULH (R221): signed by signed. -/
def execMulh (rd rs1 rs2 : Reg) (s : State) : Result :=
  .next (s.setReg rd (productHigh ((s.x rs1).toInt * (s.x rs2).toInt)))

/-- MULHSU (R222): signed rs1 by unsigned rs2. -/
def execMulhsu (rd rs1 rs2 : Reg) (s : State) : Result :=
  .next (s.setReg rd (productHigh ((s.x rs1).toInt * ((s.x rs2).toNat : Int))))

/-- MULHU (R223): unsigned by unsigned. -/
def execMulhu (rd rs1 rs2 : Reg) (s : State) : Result :=
  .next (s.setReg rd (productHigh (((s.x rs1).toNat : Int) * ((s.x rs2).toNat : Int))))

/-- DIV (R224). -/
def execDiv (rd rs1 rs2 : Reg) (s : State) : Result :=
  .next (s.setReg rd (divSigned (s.x rs1) (s.x rs2)))

/-- DIVU (R225). -/
def execDivu (rd rs1 rs2 : Reg) (s : State) : Result :=
  .next (s.setReg rd (divUnsigned (s.x rs1) (s.x rs2)))

/-- REM (R226). -/
def execRem (rd rs1 rs2 : Reg) (s : State) : Result :=
  .next (s.setReg rd (remSigned (s.x rs1) (s.x rs2)))

/-- REMU (R227). -/
def execRemu (rd rs1 rs2 : Reg) (s : State) : Result :=
  .next (s.setReg rd (remUnsigned (s.x rs1) (s.x rs2)))


end Sys2Proof.Machine
end

