-- ==== Sys2Proof/Machine/System.lean ====
section
/-! DEFINITION. System instructions (spec/46_system.md). -/

namespace Sys2Proof.Machine

/-- ECALL (R190): a placeholder that writes -1 to register 10; no trap is taken (R248). -/
def execEcall (s : State) : Result := .next (s.setReg 10#5 0xFFFFFFFF#32)

/-- EBREAK (R191): the engine halts with cause Ebreak; it is no fault (R244). -/
def execEbreak (s : State) : Result := .next (s.halt .ebreak)

/-- RETI (R192). -/
def execReti (s : State) : Result := .next s.returnFromInterrupt

/-- WFI (R193): a no-op; it never waits. -/
def execWfi (s : State) : Result := .next s


end Sys2Proof.Machine
end

