-- ==== Sys2Proof/Machine/Upper.lean ====
section
/-! DEFINITION. LUI and AUIPC (spec/41_upper_immediate.md). -/

namespace Sys2Proof.Machine

/-- LUI (R100). -/
def execLui (rd : Reg) (imm : BitVec 20) (s : State) : Result := .next (s.setReg rd (immU imm))

/-- AUIPC (R101): pc is the AUIPC's own address (R24). -/
def execAuipc (rd : Reg) (imm : BitVec 20) (s : State) : Result := .next (s.setReg rd (s.pc + immU imm))

end Sys2Proof.Machine
end

