-- ==== Sys2Proof/Machine/Step.lean ====
section
/-! DEFINITION. One step of the engine (spec/30_encoding.md R89), and where an instruction is put so that the next step
runs it. -/

namespace Sys2Proof.Machine

/-- One step: fetch, decode, execute, commit. No step is enabled while the engine is halted (R89, R245). -/
def step (s : State) : Host.Outcome State Fault Refusal :=
  if s.halted then .fault .halted
  else
    match fetch s with
    | .error f => .next (s.haltOnFetch f)
    | .ok w =>
      match decode s.cfg w with
      | .unknownOpcode op => .next (s.haltOnOpcode w op)
      | .instr i => commitResult (exec i (s.fetched w))

/-- The state with an instruction word stored where the next fetch reads it. Where pc is no word of RAM it is moved to
RAM_BASE, and a halted engine is released, since no fetch would happen otherwise; at reset neither occurs (log 14). -/
def State.withFetchWord (s : State) (nbits w : Nat) : State :=
  { s with
    pc := fetchSlot s
    halted := false
    haltCause := none
    ram := s.ram.store .word (fetchSlot s).toNat (tableWord nbits w) }

end Sys2Proof.Machine
end

