-- ==== Sys2Proof/Machine/Platform.lean ====
section
/-! DEFINITION. What the host can do to the block between runs (spec/00_scope.md R8, spec/20_memory.md R61, R62,
spec/70_reset_and_hazards.md R270 to R273, R276). -/

namespace Sys2Proof.Machine

/-- `load_image(bytes)`: the image's own bytes from address 0x80000000 on, every other byte of RAM as it was; none for
an image longer than the RAM (R61, R62). -/
def Memory.loadImage (m : Memory) (image : List Byte) : Option Memory :=
  if image.length ≤ ramSize then some (m.setBytes ramBase image) else none

/-- Construct the block over a newly created RAM with an image; an oversize image is refused and no block exists
(R61, R270). -/
def construct (cfg : Config) (image : List Byte) : Result :=
  match Memory.zeroed.loadImage image with
  | some ram => .next (State.initial cfg ram)
  | none => .refused (.imageTooLarge image.length)

/-- Load another image between runs: RAM alone changes (R62, R270; an oversize image, log 17). -/
def State.loadImage (s : State) (image : List Byte) : Result :=
  match s.ram.loadImage image with
  | some ram => .next { s with ram := ram }
  | none => .refused (.imageTooLarge image.length)

/-- The host's reset of the processor state between runs: the values at construction, RAM untouched (R35, R62, R270).
It is the only event that clears the halt latch (R29). The trace is emptied with the rest (DEDUCED, log 16). -/
def State.hostReset (s : State) : State := State.initial s.cfg s.ram

/-- How a run under a step budget stands (R272, R276). -/
inductive RunEnd where
  /-- The first state with the latch set: the end of the run (R273). -/
  | ended (s : State)
  /-- The budget ran out: no end reached, neither a halt nor a fault (R276). -/
  | noEnd (s : State)
  /-- A step of a running engine answered no next state. No step does; the case is here so that none is hidden. -/
  | stuck (s : State)
deriving DecidableEq, Repr

/-- Run until halted, at most `budget` steps (R272, R276). -/
def runUntilHalted : Nat → State → RunEnd
  | 0, s => if s.halted then .ended s else .noEnd s
  | budget + 1, s =>
    if s.halted then .ended s
    else
      match step s with
      | .next t => runUntilHalted budget t
      | .fault _ => .stuck s
      | .refused _ => .stuck s

/-- The number that an event tells the surrounding software to show: the character's code, the signed reading at
PORT_DEC, the unsigned one at PORT_HEX (R47). Its text is not modelled (R4; log 20). -/
def OutEvent.shown : OutEvent → Int
  | .char c => c.toNat
  | .dec v => v.toInt
  | .hex v => v.toNat

/-- What the host can inspect between runs: what R273 lists at the end of a run, the halt latch of R8, and `ir`
(10_state Summary). `next_pc` is not among it. -/
structure Observation where
  regs : List Word
  mstatus : Word
  mepc : Word
  pc : Word
  ir : Word
  halted : Bool
  haltCause : Option HaltCause
  ram : Memory
  trace : List OutEvent
deriving DecidableEq, Repr

/-- `x[0]`..`x[31]` as the register operation reads them (R21, R273). -/
def State.allRegs (s : State) : List Word := (List.range 32).map (fun r => s.x (BitVec.ofNat 5 r))

/-- Inspection by the host (R8, R273). -/
def observe (s : State) : Observation where
  regs := s.allRegs
  mstatus := s.mstatus
  mepc := s.mepc
  pc := s.pc
  ir := s.ir
  halted := s.halted
  haltCause := s.haltCause
  ram := s.ram
  trace := s.trace

end Sys2Proof.Machine
end

