-- ==== Sys2Proof/Safety.lean ====
section
/-! DEFINITION. What counts as a sound state and as a safe run, and the words in which statements say what an instruction
leaves unchanged. -/

namespace Sys2Proof.Machine

/-! ### Sound states and safe runs -/

/-- The invariant of the block: RAM is in its canonical form and lists RAM addresses alone (R42), the slot of the
hard-wired register holds 0 (R21), and a cause is recorded exactly when the engine is halted (R30). -/
def State.Inv (s : State) : Prop :=
  s.ram.wf = true ∧ s.ram.within = true ∧ s.regs[0] = 0#32 ∧ s.halted = s.haltCause.isSome

/-- A halt cause that is one of the three faults; EBREAK is none (R240, R244). -/
def HaltCause.isFault : HaltCause → Bool
  | .fetchFault _ _ => true
  | .accessFault _ _ => true
  | .unknownOpcode _ => true
  | .ebreak => false

/-- The states a run passes through (R272). -/
inductive Reaches : State → State → Prop where
  | refl (s : State) : Reaches s s
  | next {s t u : State} (first : step s = .next t) (rest : Reaches t u) : Reaches s u

/-- A run that ends, if it ends, by EBREAK and never by a fault (R244, R245). -/
def SafeFrom (s : State) : Prop := ∀ t, Reaches s t → ∀ c, t.haltCause = some c → c.isFault = false

/-! ### Classes of instructions -/

/-- The data access of a load or store: its width, base register and offset (R130). -/
def dataAccess : Instr → Option (MemKind × Reg × Word)
  | .lb _ rs1 imm => some (.byte, rs1, imm)
  | .lh _ rs1 imm => some (.half, rs1, imm)
  | .lw _ rs1 imm => some (.word, rs1, imm)
  | .lbu _ rs1 imm => some (.byte, rs1, imm)
  | .lhu _ rs1 imm => some (.half, rs1, imm)
  | .sb _ rs1 imm => some (.byte, rs1, imm)
  | .sh _ rs1 imm => some (.half, rs1, imm)
  | .sw _ rs1 imm => some (.word, rs1, imm)
  | _ => none

/-- The value register of a store (R71). -/
def storedRegister : Instr → Option Reg
  | .sb rs2 _ _ => some rs2
  | .sh rs2 _ _ => some rs2
  | .sw rs2 _ _ => some rs2
  | _ => none

/-- The CSR that a CSR instruction names (R81). -/
def csrTarget : Instr → Option CsrNum
  | .csrrw _ _ c => some c
  | .csrrs _ _ c => some c
  | .csrrc _ _ c => some c
  | .csrrwi _ _ c => some c
  | .csrrsi _ _ c => some c
  | .csrrci _ _ c => some c
  | _ => none

/-- The instructions that may stage a next_pc of their own (R25). -/
def isTransfer : Instr → Bool
  | .jal _ _ => true
  | .jalr _ _ _ => true
  | .beq _ _ _ => true
  | .bne _ _ _ => true
  | .blt _ _ _ => true
  | .bge _ _ _ => true
  | .bltu _ _ _ => true
  | .bgeu _ _ _ => true
  | .reti => true
  | _ => false

/-! ### Frames -/

/-- Every general register reads as before. -/
def SameRegs (s t : State) : Prop := ∀ r, t.x r = s.x r

/-- mstatus and mepc are as before. -/
def SameCsrs (s t : State) : Prop := t.mstatus = s.mstatus ∧ t.mepc = s.mepc

/-- Every byte of RAM reads as before. -/
def SameRam (s t : State) : Prop := ∀ a, t.ram.byte a = s.ram.byte a

/-- The halt latch and its cause are as before. -/
def SameHalt (s t : State) : Prop := t.halted = s.halted ∧ t.haltCause = s.haltCause

/-- pc, ir and the parameters are as before. -/
def SameFetch (s t : State) : Prop := t.pc = s.pc ∧ t.ir = s.ir ∧ t.cfg = s.cfg

/-- Register `rd` reads `v`, unless it is the hard-wired register 0, and every other register reads as before
(R21, R22). -/
def RegWritten (s t : State) (rd : Reg) (v : Word) : Prop :=
  ∀ r, t.x r = if r = rd ∧ rd ≠ 0#5 then v else s.x r

/-- The CSR at `c` holds `v`, and the other is as before; an unimplemented address changes neither (R31). -/
def CsrWritten (s t : State) (c : CsrNum) (v : Word) : Prop :=
  t.mstatus = (if c = 0x300#12 then v else s.mstatus) ∧ t.mepc = (if c = 0x341#12 then v else s.mepc)

/-- The whole effect is `x[rd] <- v`. -/
def OnlyReg (s t : State) (rd : Reg) (v : Word) : Prop :=
  RegWritten s t rd v ∧ SameCsrs s t ∧ SameRam s t ∧ t.trace = s.trace ∧ SameHalt s t ∧ SameFetch s t ∧
    t.nextPc = s.nextPc

/-- The whole effect is `next_pc <- target` and `x[rd] <- v`. -/
def OnlyJump (s t : State) (target : Word) (rd : Reg) (v : Word) : Prop :=
  RegWritten s t rd v ∧ SameCsrs s t ∧ SameRam s t ∧ t.trace = s.trace ∧ SameHalt s t ∧ SameFetch s t ∧
    t.nextPc = target

/-- The whole effect is `next_pc <- target`. -/
def OnlyNextPc (s t : State) (target : Word) : Prop :=
  SameRegs s t ∧ SameCsrs s t ∧ SameRam s t ∧ t.trace = s.trace ∧ SameHalt s t ∧ SameFetch s t ∧
    t.nextPc = target

/-- The whole effect is a CSR write and `x[rd] <- old`. -/
def OnlyCsr (s t : State) (c : CsrNum) (v : Word) (rd : Reg) (old : Word) : Prop :=
  RegWritten s t rd old ∧ CsrWritten s t c v ∧ SameRam s t ∧ t.trace = s.trace ∧ SameHalt s t ∧
    SameFetch s t ∧ t.nextPc = s.nextPc

/-- The whole effect is the halt with cause `c`. -/
def OnlyHalt (s t : State) (c : HaltCause) : Prop :=
  SameRegs s t ∧ SameCsrs s t ∧ SameRam s t ∧ t.trace = s.trace ∧ t.halted = true ∧ t.haltCause = some c ∧
    SameFetch s t ∧ t.nextPc = s.nextPc

/-- The whole effect is one output event. -/
def OnlyEvent (s t : State) (e : OutEvent) : Prop :=
  SameRegs s t ∧ SameCsrs s t ∧ SameRam s t ∧ t.trace = s.trace ++ [e] ∧ SameHalt s t ∧ SameFetch s t ∧
    t.nextPc = s.nextPc

/-- The whole effect is that the `n` bytes of RAM from `a` on hold the low bytes of `v`, least significant first; every
other byte reads as before. -/
def OnlyStore (s t : State) (a n : Nat) (v : Word) : Prop :=
  (∀ b, (t.ram.byte b).toNat =
    if a ≤ b ∧ b < a + n then v.toNat / 256 ^ (b - a) % 256 else (s.ram.byte b).toNat) ∧
  SameRegs s t ∧ SameCsrs s t ∧ t.trace = s.trace ∧ SameHalt s t ∧ SameFetch s t ∧ t.nextPc = s.nextPc

end Sys2Proof.Machine
end

