-- ==== Sys2Proof/Certificates/Slice0/Obligations.lean ====
section
/-! DEFINITION. The statements for the provers. Addresses and ranges are written as the spec writes them, and results by
exact arithmetic where the spec computes them so. -/

namespace Sys2Proof.Statements

open Sys2Proof.Machine

/-! ### Words of the statements -/

/-- The three port addresses (R41). -/
def IsPort (a : Word) : Prop := a = 0x10000000#32 ∨ a = 0x10000004#32 ∨ a = 0x10000008#32

/-- The RAM addresses (R41). -/
def IsRam (a : Word) : Prop := 0x80000000 ≤ a.toNat ∧ a.toNat < 0x82000000

/-- The event of a write of `v` to the port at `a` (R46). -/
def PortEvent (a v : Word) (e : OutEvent) : Prop :=
  (a = 0x10000000#32 ∧ e = .char (v.extractLsb' 0 8)) ∨ (a = 0x10000004#32 ∧ e = .dec v) ∨
    (a = 0x10000008#32 ∧ e = .hex v)

/-- OPCODE_MAP's default gives `m` the opcode `op` (R73); and whatever the parameters, a word whose opcode OPCODE_MAP
gives to `m` decodes to the instruction `f` (R72, R74). -/
def DecodesAs (m : Mnemonic) (op : Opcode) (f : Config → Word → Instr) : Prop :=
  Config.default.opcodeMap.lookup op = some m ∧
  ∀ cfg w, cfg.opcodeMap.lookup (w.extractLsb' 0 7) = some m → decode cfg w = .instr (f cfg w)

/-- The bits that the format of an instruction uses (R74), under the default layouts. -/
def usedMask : Mnemonic → Word
  | .lui | .auipc | .jal => 0xFFFFFFFF#32
  | .jalr | .beq | .bne | .blt | .bge | .bltu | .bgeu => 0xFFF1FFFF#32
  | .lb | .lh | .lw | .lbu | .lhu | .sb | .sh | .sw => 0xFFF1FFFF#32
  | .addi | .slti | .sltiu | .xori | .ori | .andi => 0xFFF1FFFF#32
  | .slli | .srli | .srai => 0x0001FFFF#32
  | .add | .sub | .sll | .srl | .sra | .slt | .sltu | .xor | .or | .and => 0x003FFFFF#32
  | .ecall | .ebreak | .reti | .wfi => 0x0000007F#32
  | .csrrw | .csrrs | .csrrc | .csrrwi | .csrrsi | .csrrci => 0xFFF1FFFF#32
  | .mul | .mulh | .mulhsu | .mulhu | .div | .divu | .rem | .remu => 0x003FFFFF#32

/-- The instruction that the next step executes. -/
def Executes (s : State) (i : Instr) : Prop := ∃ w, fetch s = .ok w ∧ decode s.cfg w = .instr i

/-- Bit `p` of a word is one that an immediate layout selects. -/
def layoutUses (l : ImmLayout) (p : Nat) : Bool := l.bits.any (fun q => q.val == p)

/-- Bit `p` of a word belongs to the opcode or to an operand field of the instruction's format (R71, R74), the fields
that IMM_I, IMM_S, IMM_B, IMM_J and BRANCH_REGS place among them. -/
def usesBit (cfg : Config) (m : Mnemonic) (p : Nat) : Bool :=
  decide (p < 7) ||
  match m with
  | .lui | .auipc => decide (7 ≤ p)
  | .jal => RegField.rd.holds p || layoutUses cfg.immJ p
  | .beq | .bne | .blt | .bge | .bltu | .bgeu =>
    cfg.branchFirst.holds p || cfg.branchSecond.holds p || layoutUses cfg.immB p
  | .jalr | .lb | .lh | .lw | .lbu | .lhu | .addi | .slti | .sltiu | .xori | .ori | .andi =>
    RegField.rd.holds p || RegField.rs1.holds p || layoutUses cfg.immI p
  | .sb | .sh | .sw => RegField.rd.holds p || RegField.rs1.holds p || layoutUses cfg.immS p
  | .slli | .srli | .srai => RegField.rd.holds p || RegField.rs1.holds p
  | .add | .sub | .sll | .srl | .sra | .slt | .sltu | .xor | .or | .and
  | .mul | .mulh | .mulhsu | .mulhu | .div | .divu | .rem | .remu =>
    RegField.rd.holds p || RegField.rs1.holds p || RegField.rs2Reg.holds p
  | .ecall | .ebreak | .reti | .wfi => false
  | .csrrw | .csrrs | .csrrc | .csrrwi | .csrrsi | .csrrci =>
    RegField.rd.holds p || RegField.rs1.holds p || decide (20 ≤ p)

/-- What a read of CSR `c` yields (R31). -/
def csrValue (s : State) (c : CsrNum) : Word :=
  if c = 0x300#12 then s.mstatus else if c = 0x341#12 then s.mepc else 0#32

/-- The little-endian half-word at an address, as a number (R45). -/
def halfAt (s : State) (a : Nat) : Nat := (s.ram.byte a).toNat + 256 * (s.ram.byte (a + 1)).toNat

/-- The little-endian word at an address, as a number (R45). -/
def wordAt (s : State) (a : Nat) : Nat :=
  (s.ram.byte a).toNat + 256 * (s.ram.byte (a + 1)).toNat + 65536 * (s.ram.byte (a + 2)).toNat +
    16777216 * (s.ram.byte (a + 3)).toNat

/-- The signed reading of a 16-bit number. -/
def signed16 (h : Nat) : Int := if h < 32768 then h else (h : Int) - 65536

/-- `trunc(a / b)`: the quotient of the magnitudes with the sign of the exact quotient (R224). -/
def truncQuotient (a b : Int) : Int := a.sign * b.sign * ((a.natAbs / b.natAbs : Nat) : Int)

/-- A load completes with the value that `value` describes when its address is a port or an aligned RAM address
of `n` bytes. -/
def LoadCompletes (load : Reg → Reg → Word → Instr) (n : Nat) (value : State → Nat → Word → Prop) : Prop :=
  ∀ (rd rs1 : Reg) (imm : Word) (s : State),
    (IsPort (effectiveAddr s rs1 imm) → ∃ t, exec (load rd rs1 imm) s = .next t ∧ OnlyReg s t rd 0#32) ∧
    (IsRam (effectiveAddr s rs1 imm) → (effectiveAddr s rs1 imm).toNat % n = 0 →
      ∃ v t, value s (effectiveAddr s rs1 imm).toNat v ∧ exec (load rd rs1 imm) s = .next t ∧ OnlyReg s t rd v)

/-- A store completes when its address is a port or an aligned RAM address of `n` bytes: one event, or `n` bytes
stored at the effective address. RAM is in its canonical form. -/
def StoreCompletes (store : Reg → Reg → Word → Instr) (n : Nat) : Prop :=
  ∀ (rs2 rs1 : Reg) (imm : Word) (s : State), s.ram.wf = true →
    (IsPort (effectiveAddr s rs1 imm) →
      ∃ e t, PortEvent (effectiveAddr s rs1 imm) (s.x rs2) e ∧ exec (store rs2 rs1 imm) s = .next t ∧
        OnlyEvent s t e) ∧
    (IsRam (effectiveAddr s rs1 imm) → (effectiveAddr s rs1 imm).toNat % n = 0 →
      ∃ t, exec (store rs2 rs1 imm) s = .next t ∧
        OnlyStore s t (effectiveAddr s rs1 imm).toNat n (s.x rs2))

/-- An access outside RAM and the ports halts with OutOfRange at its address and does nothing else. -/
def HaltsOutOfRange (access : Reg → Reg → Word → Instr) : Prop :=
  ∀ (r rs1 : Reg) (imm : Word) (s : State), ¬IsPort (effectiveAddr s rs1 imm) → ¬IsRam (effectiveAddr s rs1 imm) →
    ∃ t, exec (access r rs1 imm) s = .next t ∧
      OnlyHalt s t (.accessFault .outOfRange (effectiveAddr s rs1 imm))

/-- An access to a RAM address that is no multiple of `n` halts with Misaligned at its address and does nothing
else. -/
def HaltsMisaligned (access : Reg → Reg → Word → Instr) (n : Nat) : Prop :=
  ∀ (r rs1 : Reg) (imm : Word) (s : State), IsRam (effectiveAddr s rs1 imm) →
    (effectiveAddr s rs1 imm).toNat % n ≠ 0 →
    ∃ t, exec (access r rs1 imm) s = .next t ∧
      OnlyHalt s t (.accessFault .misaligned (effectiveAddr s rs1 imm))

/-- The whole effect of a register-register instruction is `x[rd] <- value x[rs1] x[rs2]`. -/
def RegisterOp (op : Reg → Reg → Reg → Instr) (value : Word → Word → Word) : Prop :=
  ∀ (rd rs1 rs2 : Reg) (s : State),
    ∃ t, exec (op rd rs1 rs2) s = .next t ∧ OnlyReg s t rd (value (s.x rs1) (s.x rs2))

/-- The whole effect of a register-immediate instruction is `x[rd] <- value x[rs1] imm`. -/
def ImmediateOp (op : Reg → Reg → Word → Instr) (value : Word → Word → Word) : Prop :=
  ∀ (rd rs1 : Reg) (imm : Word) (s : State),
    ∃ t, exec (op rd rs1 imm) s = .next t ∧ OnlyReg s t rd (value (s.x rs1) imm)

/-- The whole effect of a shift by an immediate is `x[rd] <- value src imm5`, where SHIFTI_SRC names the register of
src (R156). -/
def ShiftOp (op : Reg → BitVec 5 → Instr) (value : Word → Nat → Word) : Prop :=
  ∀ (rd : Reg) (imm5 : BitVec 5) (s : State),
    ∃ t, exec (op rd imm5) s = .next t ∧
      OnlyReg s t rd (value (if s.cfg.shiftiSrc = .rs1 then s.x imm5 else s.x rd) imm5.toNat)

/-- The whole effect of a branch: next_pc becomes pc + off when the condition holds and is left otherwise (R112). -/
def BranchOp (op : Reg → Reg → Word → Instr) (cond : Word → Word → Prop) : Prop :=
  ∀ (rs1 rs2 : Reg) (off : Word) (s : State),
    ∃ t, exec (op rs1 rs2 off) s = .next t ∧
      (cond (s.x rs1) (s.x rs2) → OnlyNextPc s t (s.pc + off)) ∧
      (¬cond (s.x rs1) (s.x rs2) → OnlyNextPc s t s.nextPc)

/-- Format R read by the fields of R71. -/
def formatR (op : Reg → Reg → Reg → Instr) (_ : Config) (w : Word) : Instr :=
  op (w.extractLsb' 7 5) (w.extractLsb' 12 5) (w.extractLsb' 17 5)

/-- Format I read by the fields of R71 and the parameter IMM_I. -/
def formatI (op : Reg → Reg → Word → Instr) (cfg : Config) (w : Word) : Instr :=
  op (w.extractLsb' 7 5) (w.extractLsb' 12 5) (cfg.immI.value w)

/-- Format S read by the fields of R71 and the parameter IMM_S: the value register in bits 11..7. -/
def formatS (op : Reg → Reg → Word → Instr) (cfg : Config) (w : Word) : Instr :=
  op (w.extractLsb' 7 5) (w.extractLsb' 12 5) (cfg.immS.value w)

/-- Format B read by the parameters BRANCH_REGS and IMM_B. -/
def formatB (op : Reg → Reg → Word → Instr) (cfg : Config) (w : Word) : Instr :=
  op (cfg.branchFirst.read w) (cfg.branchSecond.read w) (cfg.immB.value w)

/-- Format SH read by the fields of R71. -/
def formatSH (op : Reg → BitVec 5 → Instr) (_ : Config) (w : Word) : Instr :=
  op (w.extractLsb' 7 5) (w.extractLsb' 12 5)

/-- Formats CSR and CSRI read by the fields of R71. -/
def formatCsr (op : Reg → BitVec 5 → CsrNum → Instr) (_ : Config) (w : Word) : Instr :=
  op (w.extractLsb' 7 5) (w.extractLsb' 12 5) (w.extractLsb' 20 12)

end Sys2Proof.Statements

open Sys2Proof Sys2Proof.Machine Sys2Proof.Statements

/-! ### Encoding -/

/-- Decode of encode is the identity, for every well-formed instruction under every lawful setting of the encoding
parameters, and the defaults are lawful. Derived from R71 to R81 and R85; the model's `Config.lawful` says when a setting
uses no bit twice (log 3), and encode writes 0 in ignored bits (log 22). -/
def Obligations.DecodeOfEncodeIsIdentity : Prop :=
  Config.default.lawful = true ∧
  ∀ (cfg : Config) (i : Instr), cfg.lawful = true → i.wellFormed cfg = true → decode cfg (encode cfg i) = .instr i

/-- Under the default parameters every decoded instruction is well formed, and encoding it gives back the word's used
bits, the ignored bits 0 (R72, R74; the defaults are the spec's decisions D1 to D5, D23; logs 2, 3, 4, 22). -/
def Obligations.EncodeOfDecodeKeepsUsedBits : Prop :=
  ∀ (w : Word) (i : Instr), decode Config.default w = .instr i →
    i.wellFormed Config.default = true ∧ encode Config.default i = w &&& usedMask i.mnemonic

/-- Whatever the parameters, two words that agree on the bits that the format of the instruction uses decode the same:
ignored bits never matter (R72, R74, R84; the spec's decision D23, log 22; where a parameter places a field, logs 3, 4). -/
def Obligations.IgnoredBitsNeverMatter : Prop :=
  ∀ (cfg : Config) (w v : Word) (m : Mnemonic), cfg.opcodeMap.lookup (w.extractLsb' 0 7) = some m →
    (∀ p < 32, usesBit cfg m p = true → w.getLsbD p = v.getLsbD p) → decode cfg v = decode cfg w

/-- Under the default OPCODE_MAP opcodes 1..47 and 56..63 select the 55 instructions in table order, and every other
opcode is unknown (R73, R83, R86; the spec's decision D1, log 2). -/
def Obligations.DefaultOpcodesSelectInTableOrder : Prop :=
  ∀ w : Word,
    (1 ≤ (w.extractLsb' 0 7).toNat ∧ (w.extractLsb' 0 7).toNat ≤ 47 →
      ∃ i, decode Config.default w = .instr i ∧ Mnemonic.all[(w.extractLsb' 0 7).toNat - 1]? = some i.mnemonic) ∧
    (56 ≤ (w.extractLsb' 0 7).toNat ∧ (w.extractLsb' 0 7).toNat ≤ 63 →
      ∃ i, decode Config.default w = .instr i ∧ Mnemonic.all[(w.extractLsb' 0 7).toNat - 9]? = some i.mnemonic) ∧
    ((w.extractLsb' 0 7).toNat = 0 ∨ 48 ≤ (w.extractLsb' 0 7).toNat ∧ (w.extractLsb' 0 7).toNat ≤ 55 ∨
        64 ≤ (w.extractLsb' 0 7).toNat →
      decode Config.default w = .unknownOpcode (w.extractLsb' 0 7))

/-- The default immediates: sext_12(ir[31:20]) for I and S, sext_13(ir[31:20] ++ 0) for B, sext_21(ir[31:12] ++ 0)
for J (R76 to R79; the spec's decisions D2 to D5, log 3). -/
def Obligations.DefaultImmediatesAreSignExtendedFields : Prop :=
  ∀ w : Word,
    Config.default.immI.value w = (w.extractLsb' 20 12).signExtend 32 ∧
    Config.default.immS.value w = (w.extractLsb' 20 12).signExtend 32 ∧
    Config.default.immB.value w = (w.extractLsb' 20 12 ++ 0#1).signExtend 32 ∧
    Config.default.immJ.value w = (w.extractLsb' 12 20 ++ 0#1).signExtend 32

/-- The four bytes of an encoded instruction, in memory order, decode to it and leave the bytes after them
(R45, R70; the spec's decision D9, log 18). -/
def Obligations.InstructionBytesDecode : Prop :=
  ∀ (cfg : Config) (i : Instr) (rest : List Byte), cfg.lawful = true → i.wellFormed cfg = true →
    decodeBytes cfg (encodeBytes cfg i ++ rest) = .instr i rest

/-- Words of the spec's worked examples decode to the instructions it names (spec/95_test_vectors.md sections 2, 3;
the spec's decisions D1 to D6, logs 2 to 5). -/
def Obligations.ExampleWordsDecode : Prop :=
  decode Config.default 0xABCDE081#32 = .instr (.lui 1 0xABCDE) ∧
  decode Config.default 0xFFFFE003#32 = .instr (.jal 0 0xFFFFFFFC) ∧
  decode Config.default 0xFFC01106#32 = .instr (.bne 1 2 0xFFFFFFF8) ∧
  decode Config.default 0x00106390#32 = .instr (.sb 7 6 1) ∧
  decode Config.default 0x0004119D#32 = .instr (.sub 3 1 2) ∧
  decode Config.default 0x341072AD#32 = .instr (.csrrwi 5 7 0x341) ∧
  decode Config.default 0x000411BA#32 = .instr (.mulhsu 3 1 2)

/-! ### The engine -/

/-- When the four bytes at an aligned pc in RAM decode to `i`, one step of a running engine is exec of `i` on the state
with ir and next_pc as fetch leaves them, then the commit: pc takes next_pc, or what PC_AFTER_HALT says when the
instruction halted (R87 to R89; the spec's decisions D12, D13, logs 8, 12, 18). -/
def Obligations.StepRunsDecodedInstruction : Prop :=
  ∀ (s : State) (w : Word) (i : Instr), s.halted = false → IsRam s.pc → s.pc.toNat % 4 = 0 →
    w.toNat = wordAt s s.pc.toNat → decode s.cfg w = .instr i →
    step s =
      match exec i { s with ir := w, nextPc := s.pc + 4#32 } with
      | .next t =>
        .next (if t.halted = true ∧ t.cfg.pcAfterHalt = .stay then t else { t with pc := t.nextPc })
      | .fault f => .fault f
      | .refused r => .refused r

/-- A fetch outside RAM and the ports, or from a RAM address that is no multiple of 4, halts the engine with its cause
and changes nothing else (R27, R55, R241). -/
def Obligations.FetchFaultHaltsBeforeDecode : Prop :=
  ∀ s : State, s.halted = false →
    (¬IsPort s.pc → ¬IsRam s.pc →
      step s = .next { s with halted := true, haltCause := some (.fetchFault .outOfRange s.pc) }) ∧
    (IsRam s.pc → s.pc.toNat % 4 ≠ 0 →
      step s = .next { s with halted := true, haltCause := some (.fetchFault .misaligned s.pc) })

/-- An opcode that OPCODE_MAP does not assign halts the engine with its cause; nothing changes but halted, halt_cause,
ir, next_pc and, under Advance, pc (R243). -/
def Obligations.UnknownOpcodeHalts : Prop :=
  ∀ (s : State) (w : Word), s.halted = false → fetch s = .ok w →
    s.cfg.opcodeMap.lookup (w.extractLsb' 0 7) = none →
    ∃ t, step s = .next t ∧ t.halted = true ∧ t.haltCause = some (.unknownOpcode (w.extractLsb' 0 7)) ∧
      t.ir = w ∧ t.nextPc = s.pc + 4#32 ∧
      t.pc = (if s.cfg.pcAfterHalt = .advance then s.pc + 4#32 else s.pc) ∧
      SameRegs s t ∧ SameCsrs s t ∧ SameRam s t ∧ t.trace = s.trace ∧ t.cfg = s.cfg

/-- A fetch at a port yields the word 0, which no lawful OPCODE_MAP assigns: the engine halts with UnknownOpcode(0)
(R48, R55, R73, R87, R119; log 2). -/
def Obligations.FetchAtPortHalts : Prop :=
  ∀ s : State, s.halted = false → s.cfg.lawful = true → IsPort s.pc →
    ∃ t, step s = .next t ∧ t.halted = true ∧ t.haltCause = some (.unknownOpcode 0#7) ∧ t.ir = 0#32

/-- A halted engine takes no step, and only the host's reset clears the latch (R245). -/
def Obligations.HaltedEngineTakesNoStep : Prop :=
  ∀ s : State, (s.halted = true → ∀ t, step s ≠ .next t) ∧ s.hostReset.halted = false

/-- A running engine always takes a step: no instruction, operand or address makes the model fault or refuse
(R86, R89, R272; log 12). -/
def Obligations.RunningEngineAlwaysSteps : Prop :=
  ∀ s : State, s.halted = false → ∃ t, step s = .next t

/-- The latch is set by a fetch fault, an unknown opcode, EBREAK and a faulting load or store, and by nothing else; no
instruction clears it or reads it; while it is set no step is taken; the host's reset clears it (R29). -/
def Obligations.HaltLatchIsSetByTheFourEventsAlone : Prop :=
  (∀ s t : State, step s = .next t →
    (t.halted = true ↔
      (∃ f, fetch s = .error f) ∨
      (∃ w, fetch s = .ok w ∧ s.cfg.opcodeMap.lookup (w.extractLsb' 0 7) = none) ∨
      Executes s .ebreak ∨
      (∃ i k rs1 imm, Executes s i ∧ dataAccess i = some (k, rs1, imm) ∧ ¬IsPort (effectiveAddr s rs1 imm) ∧
        (¬IsRam (effectiveAddr s rs1 imm) ∨ (effectiveAddr s rs1 imm).toNat % k.bytes ≠ 0)))) ∧
  (∀ (i : Instr) (s t : State), exec i s = .next t → s.halted = true → t.halted = true) ∧
  (∀ (i : Instr) (s t : State) (b : Bool), exec i s = .next t →
    ∃ u, exec i { s with halted := b } = .next u ∧ { u with halted := t.halted } = t) ∧
  (∀ s t : State, s.halted = true → step s ≠ .next t) ∧
  (∀ s : State, s.hostReset.halted = false)

/-! ### Invariants and whole-machine rules -/

/-- Every step keeps the block's invariant: RAM in canonical form and inside its range, the slot of register 0 holding 0,
a cause recorded exactly when halted (R21, R22, R30, R42; the form of RAM is the model's, log 15). -/
def Obligations.EveryStepKeepsInv : Prop :=
  ∀ s t : State, s.Inv → step s = .next t → t.Inv

/-- The reset state meets the invariant (R35, R62; the values are those of logs 9 to 11). -/
def Obligations.ResetMeetsInv : Prop := State.reset.Inv

/-- A step writes no parameter, and the trace changes only by one event that a store to a port appends, which is the event
of that port and the whole register (R46, R47, R53; the parameters' place in the state is the model's, log 1). -/
def Obligations.TraceGrowsByPortStoresAlone : Prop :=
  ∀ s t : State, step s = .next t →
    t.cfg = s.cfg ∧
    (t.trace = s.trace ∨
      ∃ i k rs1 imm rs2 e, Executes s i ∧ dataAccess i = some (k, rs1, imm) ∧ storedRegister i = some rs2 ∧
        PortEvent (effectiveAddr s rs1 imm) (s.x rs2) e ∧ t.trace = s.trace ++ [e])

/-- A step changes a byte of RAM only where a store instruction stores: an aligned RAM address, within the store's own
bytes (R42, R46, R53, R139). -/
def Obligations.RamChangesOnlyWhereStoresStore : Prop :=
  ∀ s t : State, s.ram.wf = true → step s = .next t → ∀ a, t.ram.byte a ≠ s.ram.byte a →
    ∃ i k rs1 imm rs2, Executes s i ∧ dataAccess i = some (k, rs1, imm) ∧ storedRegister i = some rs2 ∧
      IsRam (effectiveAddr s rs1 imm) ∧ (effectiveAddr s rs1 imm).toNat % k.bytes = 0 ∧
      (effectiveAddr s rs1 imm).toNat ≤ a ∧ a < (effectiveAddr s rs1 imm).toNat + k.bytes

/-- mstatus changes only by RETI or by a CSR instruction that names 0x300, and mepc only by one that names 0x341: the
hardware itself writes neither, since nothing is saved on a fault (R31, R248, R249). -/
def Obligations.CsrsChangeOnlyByTheirInstructions : Prop :=
  ∀ s t : State, step s = .next t →
    (t.mstatus ≠ s.mstatus → Executes s .reti ∨ ∃ i, Executes s i ∧ csrTarget i = some 0x300#12) ∧
    (t.mepc ≠ s.mepc → ∃ i, Executes s i ∧ csrTarget i = some 0x341#12)

/-- After a step that does not halt, pc is the staged next_pc, and it is pc + 4 unless the instruction is a jump, a
branch or RETI: no delay slots (R25, R88, R120). -/
def Obligations.OnlyTransfersLeaveTheSequence : Prop :=
  ∀ s t : State, step s = .next t → t.halted = false →
    t.pc = t.nextPc ∧ (t.pc ≠ s.pc + 4#32 → ∃ i, Executes s i ∧ isTransfer i = true)

/-- The contents of mstatus, its interrupt-enable bit among them, influence nothing but mstatus: unless the instruction is
a CSR instruction that names 0x300, two runs of one step that differ in mstatus alone differ in mstatus alone afterwards
(R32, R250). -/
def Obligations.MstatusInfluencesNothingElse : Prop :=
  ∀ (s : State) (v : Word), s.halted = false → (∀ i, Executes s i → csrTarget i ≠ some 0x300#12) →
    ∃ t u, step s = .next t ∧ step { s with mstatus := v } = .next u ∧ { u with mstatus := t.mstatus } = t

/-- Once a fetch succeeds, the earlier ir and next_pc have no influence: no rule reads them before the fetch writes them
(R25, R26, R34, R35, K8). -/
def Obligations.EarlierIrAndNextPcNeverMatter : Prop :=
  ∀ (s : State) (ir nextPc w : Word), fetch s = .ok w → step { s with ir := ir, nextPc := nextPc } = step s

/-! ### The memory subsystem -/

/-- What a successful read yields: 0 at a port for every width, the sign-extended byte or half-word, the word verbatim,
little-endian (R43, R44, R45, R48; the byte order is the spec's decision D9, log 18). -/
def Obligations.ReadsReturnMemory : Prop :=
  ∀ (s : State) (k : MemKind) (a : Word),
    (IsPort a → memRead s k a = .ok 0#32) ∧
    (IsRam a → ∃ v : Word, memRead s .byte a = .ok v ∧ v.toInt = (s.ram.byte a.toNat).toInt) ∧
    (IsRam a → a.toNat % 2 = 0 → ∃ v : Word, memRead s .half a = .ok v ∧ v.toInt = signed16 (halfAt s a.toNat)) ∧
    (IsRam a → a.toNat % 4 = 0 → ∃ v : Word, memRead s .word a = .ok v ∧ v.toNat = wordAt s a.toNat)

/-- What a successful write does: one event at a port for every width, the low bytes of the value in RAM otherwise, and
nothing else; RAM stays canonical (R45, R46, R47; logs 15, 18, 20). -/
def Obligations.WritesStoreOrEmit : Prop :=
  ∀ (s : State) (k : MemKind) (a v : Word), s.ram.wf = true →
    (IsPort a → ∃ e t, PortEvent a v e ∧ memWrite s k a v = .ok t ∧ OnlyEvent s t e) ∧
    (IsRam a → a.toNat % k.bytes = 0 →
      ∃ t, memWrite s k a v = .ok t ∧ OnlyStore s t a.toNat k.bytes v ∧ t.ram.wf = true)

/-- The tests of an access in their order: a port succeeds whatever the width or alignment, an address outside RAM is
OutOfRange even when misaligned, a RAM address with the wrong alignment is Misaligned (R246). -/
def Obligations.AccessTestsInOrder : Prop :=
  ∀ (s : State) (k : MemKind) (a v : Word),
    (IsPort a → (∃ r, memRead s k a = .ok r) ∧ ∃ t, memWrite s k a v = .ok t) ∧
    (¬IsPort a → ¬IsRam a →
      memRead s k a = .error { kind := .outOfRange, addr := a } ∧
      memWrite s k a v = .error { kind := .outOfRange, addr := a }) ∧
    (IsRam a → a.toNat % k.bytes ≠ 0 →
      memRead s k a = .error { kind := .misaligned, addr := a } ∧
      memWrite s k a v = .error { kind := .misaligned, addr := a }) ∧
    (IsRam a → a.toNat % k.bytes = 0 → (∃ r, memRead s k a = .ok r) ∧ ∃ t, memWrite s k a v = .ok t)

/-- A read or a write that passes the tests in RAM touches no byte before the first or beyond the last byte of RAM
(R51). -/
def Obligations.AccessesEndInsideRam : Prop :=
  ∀ (s : State) (k : MemKind) (a : Word), ¬IsPort a →
    (∀ v, memRead s k a = .ok v → 0x80000000 ≤ a.toNat ∧ a.toNat + k.bytes ≤ 0x82000000) ∧
    (∀ v t, memWrite s k a v = .ok t → 0x80000000 ≤ a.toNat ∧ a.toNat + k.bytes ≤ 0x82000000)

/-- The round-trip laws of stores and loads at one RAM address: LBU and LHU yield the truncated value, LB and LH its sign
extension, LW the word (R140; log 18). -/
def Obligations.LoadsReadBackStores : Prop :=
  ∀ (rd rs1 rs2 : Reg) (imm : Word) (s : State), s.ram.wf = true → rd ≠ 0#5 → IsRam (effectiveAddr s rs1 imm) →
    (∃ t u v, exec (.sb rs2 rs1 imm) s = .next t ∧ exec (.lbu rd rs1 imm) t = .next u ∧
      exec (.lb rd rs1 imm) t = .next v ∧ (u.x rd).toNat = (s.x rs2).toNat % 256 ∧
      (v.x rd).toInt = ((s.x rs2).extractLsb' 0 8).toInt) ∧
    ((effectiveAddr s rs1 imm).toNat % 2 = 0 →
      ∃ t u v, exec (.sh rs2 rs1 imm) s = .next t ∧ exec (.lhu rd rs1 imm) t = .next u ∧
        exec (.lh rd rs1 imm) t = .next v ∧ (u.x rd).toNat = (s.x rs2).toNat % 65536 ∧
        (v.x rd).toInt = ((s.x rs2).extractLsb' 0 16).toInt) ∧
    ((effectiveAddr s rs1 imm).toNat % 4 = 0 →
      ∃ t u, exec (.sw rs2 rs1 imm) s = .next t ∧ exec (.lw rd rs1 imm) t = .next u ∧ u.x rd = s.x rs2)

/-- A word stored over the very next instruction is what the next fetch reads (R56, R59, R275). -/
def Obligations.NextFetchSeesStoredWord : Prop :=
  ∀ (s : State) (rs1 rs2 : Reg) (imm : Word), s.halted = false → s.ram.wf = true → Executes s (.sw rs2 rs1 imm) →
    effectiveAddr s rs1 imm = s.pc + 4#32 → IsRam (s.pc + 4#32) → (s.pc + 4#32).toNat % 4 = 0 →
    ∃ t, step s = .next t ∧ t.pc = s.pc + 4#32 ∧ t.halted = false ∧ fetch t = .ok (s.x rs2)

/-! ### Registers and CSRs -/

/-- x[0] yields 0 whatever has been written, by the register operation or into the array; a write to any other register
is read back and disturbs no other (R21). -/
def Obligations.RegisterZeroIsHardWired : Prop :=
  ∀ (s : State) (r q : Reg) (v : Word) (regs : Vector Word 32),
    ({ s with regs := regs } : State).x 0#5 = 0#32 ∧ (s.setReg r v).x 0#5 = 0#32 ∧
    (s.setReg r v).x q = if q = r ∧ r ≠ 0#5 then v else s.x q

/-- The CSR file: the two implemented addresses store whole words and read them back, every other address reads 0 and
ignores writes, with no other effect (R31, R32, R33, R200; the spec's decisions D19, D24, logs 23, 24). -/
def Obligations.CsrFileStoresTwoRegisters : Prop :=
  ∀ (s : State) (c d : CsrNum) (v : Word),
    s.csrRead c = csrValue s c ∧
    CsrWritten s (s.csrWrite c v) c v ∧
    (s.csrWrite c v).csrRead d = (if d = c ∧ (c = 0x300#12 ∨ c = 0x341#12) then v else csrValue s d) ∧
    SameRegs s (s.csrWrite c v) ∧ SameRam s (s.csrWrite c v) ∧ (s.csrWrite c v).trace = s.trace ∧
    SameHalt s (s.csrWrite c v) ∧ SameFetch s (s.csrWrite c v) ∧ (s.csrWrite c v).nextPc = s.nextPc

/-! ### Instructions: upper immediates and control transfer -/

/-- LUI: a word of its opcode writes ir & 0xFFFFF000 to rd, whatever the registers held, and does nothing else (R100). -/
def Obligations.LuiWritesUpperBits : Prop :=
  DecodesAs .lui 1 (fun _ w => .lui (w.extractLsb' 7 5) (w.extractLsb' 12 20)) ∧
  (∀ (rd : Reg) (imm : BitVec 20) (s : State),
    ∃ t, exec (.lui rd imm) s = .next t ∧ OnlyReg s t rd (BitVec.ofNat 32 (imm.toNat * 4096))) ∧
  ∀ (w : Word) (s : State),
    ∃ t, exec (.lui (w.extractLsb' 7 5) (w.extractLsb' 12 20)) s = .next t ∧
      OnlyReg s t (w.extractLsb' 7 5) (w &&& 0xFFFFF000#32)

/-- AUIPC: rd receives the sum, modulo 2^32, of the AUIPC's own address and the upper immediate (R101). -/
def Obligations.AuipcAddsToItsOwnAddress : Prop :=
  DecodesAs .auipc 2 (fun _ w => .auipc (w.extractLsb' 7 5) (w.extractLsb' 12 20)) ∧
  ∀ (rd : Reg) (imm : BitVec 20) (s : State),
    ∃ t, exec (.auipc rd imm) s = .next t ∧ OnlyReg s t rd (BitVec.ofNat 32 (s.pc.toNat + imm.toNat * 4096))

/-- JAL and JALR stage their target and write pc + 4 to rd; JALR clears bit 0 of the target and computes it before rd is
written (R110, R111; the spec's decisions D2, D5, D13, logs 3, 19). -/
def Obligations.JumpsStageTargetAndLink : Prop :=
  DecodesAs .jal 3 (fun cfg w => .jal (w.extractLsb' 7 5) (cfg.immJ.value w)) ∧
  DecodesAs .jalr 4 (formatI .jalr) ∧
  (∀ (rd : Reg) (off : Word) (s : State),
    ∃ t, exec (.jal rd off) s = .next t ∧ OnlyJump s t (s.pc + off) rd (s.pc + 4#32)) ∧
  ∀ (rd rs1 : Reg) (imm : Word) (s : State),
    ∃ t, exec (.jalr rd rs1 imm) s = .next t ∧
      OnlyJump s t (BitVec.ofNat 32 ((s.x rs1 + imm).toNat / 2 * 2)) rd (s.pc + 4#32)

/-- The six conditional branches compare x[rs1] with x[rs2] and stage pc + off exactly when their condition holds
(R112 to R118; the spec's decision D4, logs 3, 4). -/
def Obligations.BranchesStageTargetOnCondition : Prop :=
  DecodesAs .beq 5 (formatB .beq) ∧ DecodesAs .bne 6 (formatB .bne) ∧ DecodesAs .blt 7 (formatB .blt) ∧
  DecodesAs .bge 8 (formatB .bge) ∧ DecodesAs .bltu 9 (formatB .bltu) ∧ DecodesAs .bgeu 10 (formatB .bgeu) ∧
  BranchOp .beq (fun a b => a = b) ∧ BranchOp .bne (fun a b => a ≠ b) ∧
  BranchOp .blt (fun a b => a.toInt < b.toInt) ∧ BranchOp .bge (fun a b => a.toInt ≥ b.toInt) ∧
  BranchOp .bltu (fun a b => a.toNat < b.toNat) ∧ BranchOp .bgeu (fun a b => a.toNat ≥ b.toNat)

/-! ### Instructions: loads and stores -/

/-- LB and LBU: 0 from a port, the sign-extended or the zero-extended byte from any RAM address into rd and nothing else,
the OutOfRange halt elsewhere (R131, R134). -/
def Obligations.ByteLoads : Prop :=
  DecodesAs .lb 11 (formatI .lb) ∧ DecodesAs .lbu 14 (formatI .lbu) ∧
  LoadCompletes .lb 1 (fun s a v => v.toInt = (s.ram.byte a).toInt) ∧
  LoadCompletes .lbu 1 (fun s a v => v.toNat = (s.ram.byte a).toNat) ∧
  HaltsOutOfRange .lb ∧ HaltsOutOfRange .lbu

/-- LH, LHU and LW: 0 from a port, the little-endian half or word from an aligned RAM address into rd and nothing else,
and the Misaligned or OutOfRange halt elsewhere (R132, R133, R135, R139; the byte order is the spec's decision D9,
log 18). -/
def Obligations.HalfAndWordLoads : Prop :=
  DecodesAs .lh 12 (formatI .lh) ∧ DecodesAs .lhu 15 (formatI .lhu) ∧ DecodesAs .lw 13 (formatI .lw) ∧
  LoadCompletes .lh 2 (fun s a v => v.toInt = signed16 (halfAt s a)) ∧
  LoadCompletes .lhu 2 (fun s a v => v.toNat = halfAt s a) ∧
  LoadCompletes .lw 4 (fun s a v => v.toNat = wordAt s a) ∧
  HaltsMisaligned .lh 2 ∧ HaltsMisaligned .lhu 2 ∧ HaltsMisaligned .lw 4 ∧
  HaltsOutOfRange .lh ∧ HaltsOutOfRange .lhu ∧ HaltsOutOfRange .lw

/-- SB: one event from the whole register at a port, the low byte at any RAM address, the OutOfRange halt elsewhere, and
nothing else (R136). -/
def Obligations.ByteStores : Prop :=
  DecodesAs .sb 16 (formatS .sb) ∧ StoreCompletes .sb 1 ∧ HaltsOutOfRange .sb

/-- SH and SW: one event from the whole register at a port, the low bytes at an aligned RAM address, the Misaligned or
OutOfRange halt elsewhere, and nothing else (R137, R138, R139; the byte order is the spec's decision D9, log 18). -/
def Obligations.HalfAndWordStores : Prop :=
  DecodesAs .sh 17 (formatS .sh) ∧ DecodesAs .sw 18 (formatS .sw) ∧
  StoreCompletes .sh 2 ∧ StoreCompletes .sw 4 ∧ HaltsMisaligned .sh 2 ∧ HaltsMisaligned .sw 4 ∧
  HaltsOutOfRange .sh ∧ HaltsOutOfRange .sw

/-! ### Instructions: integer arithmetic -/

/-- ADDI, SLTI, SLTIU, XORI, ORI, ANDI: the result from x[rs1] and the sign-extended immediate goes to rd, and nothing
else changes (R150 to R155; the RV32I meanings are the spec's decision D8, log 19). -/
def Obligations.ImmediateArithmetic : Prop :=
  DecodesAs .addi 19 (formatI .addi) ∧ DecodesAs .slti 20 (formatI .slti) ∧
  DecodesAs .sltiu 21 (formatI .sltiu) ∧ DecodesAs .xori 22 (formatI .xori) ∧ DecodesAs .ori 23 (formatI .ori) ∧
  DecodesAs .andi 24 (formatI .andi) ∧
  ImmediateOp .addi (fun a b => BitVec.ofNat 32 (a.toNat + b.toNat)) ∧
  ImmediateOp .slti (fun a b => if a.toInt < b.toInt then 1#32 else 0#32) ∧
  ImmediateOp .sltiu (fun a b => if a.toNat < b.toNat then 1#32 else 0#32) ∧
  ImmediateOp .xori (fun a b => a ^^^ b) ∧ ImmediateOp .ori (fun a b => a ||| b) ∧
  ImmediateOp .andi (fun a b => a &&& b)

/-- SLLI, SRLI, SRAI shift the register that SHIFTI_SRC names by imm5 places (R156 to R159; the spec's decision D6,
log 5). -/
def Obligations.ImmediateShifts : Prop :=
  DecodesAs .slli 25 (formatSH .slli) ∧ DecodesAs .srli 26 (formatSH .srli) ∧
  DecodesAs .srai 27 (formatSH .srai) ∧
  ShiftOp .slli (fun a n => BitVec.ofNat 32 (a.toNat * 2 ^ n)) ∧
  ShiftOp .srli (fun a n => BitVec.ofNat 32 (a.toNat / 2 ^ n)) ∧
  ShiftOp .srai (fun a n => BitVec.ofInt 32 (a.toInt / 2 ^ n))

/-- ADD and SUB modulo 2^32, and XOR, OR, AND bit by bit, into rd and nothing else, decoded by format R
(R170, R171, R177, R178, R179). -/
def Obligations.RegisterArithmeticAndLogic : Prop :=
  DecodesAs .add 28 (formatR .add) ∧ DecodesAs .sub 29 (formatR .sub) ∧ DecodesAs .xor 35 (formatR .xor) ∧
  DecodesAs .or 36 (formatR .or) ∧ DecodesAs .and 37 (formatR .and) ∧
  RegisterOp .add (fun a b => BitVec.ofNat 32 (a.toNat + b.toNat)) ∧
  RegisterOp .sub (fun a b => BitVec.ofInt 32 ((a.toNat : Int) - b.toNat)) ∧
  RegisterOp .xor (fun a b => a ^^^ b) ∧ RegisterOp .or (fun a b => a ||| b) ∧ RegisterOp .and (fun a b => a &&& b)

/-- SLL, SRL, SRA shift x[rs1] by the low five bits of x[rs2] (R172 to R174; the spec's decision D7, log 19). -/
def Obligations.RegisterShifts : Prop :=
  DecodesAs .sll 30 (formatR .sll) ∧ DecodesAs .srl 31 (formatR .srl) ∧ DecodesAs .sra 32 (formatR .sra) ∧
  RegisterOp .sll (fun a b => BitVec.ofNat 32 (a.toNat * 2 ^ (b.toNat % 32))) ∧
  RegisterOp .srl (fun a b => BitVec.ofNat 32 (a.toNat / 2 ^ (b.toNat % 32))) ∧
  RegisterOp .sra (fun a b => BitVec.ofInt 32 (a.toInt / 2 ^ (b.toNat % 32)))

/-- SLT and SLTU write 1 or 0 for the signed and the unsigned comparison (R175, R176; the spec's decision D8,
log 19). -/
def Obligations.RegisterComparisons : Prop :=
  DecodesAs .slt 33 (formatR .slt) ∧ DecodesAs .sltu 34 (formatR .sltu) ∧
  RegisterOp .slt (fun a b => if a.toInt < b.toInt then 1#32 else 0#32) ∧
  RegisterOp .sltu (fun a b => if a.toNat < b.toNat then 1#32 else 0#32)

/-! ### Instructions: system -/

/-- ECALL writes -1 to register 10 and takes no trap: nothing else changes (R190; the spec's decision D18, log 23). -/
def Obligations.EcallWritesRegisterTen : Prop :=
  DecodesAs .ecall 38 (fun _ _ => .ecall) ∧
  ∀ s : State, ∃ t, exec .ecall s = .next t ∧ OnlyReg s t 10#5 (BitVec.ofInt 32 (-1))

/-- EBREAK halts the engine with cause Ebreak, which is no fault, and changes nothing else (R244). -/
def Obligations.EbreakHaltsWithoutFault : Prop :=
  DecodesAs .ebreak 39 (fun _ _ => .ebreak) ∧
  ∀ s : State, ∃ t, exec .ebreak s = .next t ∧ OnlyHalt s t .ebreak ∧ HaltCause.isFault .ebreak = false

/-- RETI sets bit MSTATUS_IE_BIT of mstatus, keeps its other bits, stages mepc and changes nothing else
(R192, R249; the spec's decision D17, log 7). -/
def Obligations.RetiSetsEnableAndStagesMepc : Prop :=
  DecodesAs .reti 40 (fun _ _ => .reti) ∧
  ∀ s : State, ∃ t, exec .reti s = .next t ∧
    (∀ b : Nat, b < 32 →
      t.mstatus.getLsbD b = if b = s.cfg.mstatusIeBit.val then true else s.mstatus.getLsbD b) ∧
    t.nextPc = s.mepc ∧ t.mepc = s.mepc ∧ SameRegs s t ∧ SameRam s t ∧ t.trace = s.trace ∧ SameHalt s t ∧
    SameFetch s t

/-- A step on a WFI word changes ir, next_pc and pc as any fetch does and nothing else; it never waits or halts, whatever
mstatus holds (R193). -/
def Obligations.WfiIsNoOp : Prop :=
  DecodesAs .wfi 41 (fun _ _ => .wfi) ∧
  (∀ s : State, ∃ t, exec .wfi s = .next t ∧ OnlyNextPc s t s.nextPc) ∧
  ∀ (s : State) (w : Word), s.halted = false → fetch s = .ok w →
    s.cfg.opcodeMap.lookup (w.extractLsb' 0 7) = some .wfi →
    step s = .next { s with ir := w, nextPc := s.pc + 4#32, pc := s.pc + 4#32 }

/-! ### Instructions: CSRs -/

/-- CSRRW and CSRRWI write the CSR unconditionally, with x[rs1] as read first or the zero-extended immediate, and rd
receives the old value (R201, R204, R208; the spec's decision D13, log 19). -/
def Obligations.CsrSwaps : Prop :=
  DecodesAs .csrrw 42 (formatCsr .csrrw) ∧ DecodesAs .csrrwi 45 (formatCsr .csrrwi) ∧
  (∀ (rd rs1 : Reg) (c : CsrNum) (s : State),
    ∃ t, exec (.csrrw rd rs1 c) s = .next t ∧ OnlyCsr s t c (s.x rs1) rd (csrValue s c)) ∧
  ∀ (rd : Reg) (imm5 : BitVec 5) (c : CsrNum) (s : State),
    ∃ t, exec (.csrrwi rd imm5 c) s = .next t ∧
      OnlyCsr s t c (BitVec.ofNat 32 imm5.toNat) rd (csrValue s c)

/-- CSRRS and CSRRC set or clear the bits of x[rs1], under Reference only when rd is not 0, under RiscvStandard only when
the rs1 field is not 0, and rd receives the old value (R202, R203, R207, R208; the spec's decision D16, log 6). -/
def Obligations.CsrMasks : Prop :=
  DecodesAs .csrrs 43 (formatCsr .csrrs) ∧ DecodesAs .csrrc 44 (formatCsr .csrrc) ∧
  ∀ (rd rs1 : Reg) (c : CsrNum) (s : State),
    (∃ t, exec (.csrrs rd rs1 c) s = .next t ∧
      OnlyCsr s t c
        (if s.cfg.csrMode = .reference ∧ rd ≠ 0#5 ∨ s.cfg.csrMode = .riscvStandard ∧ rs1 ≠ 0#5
          then csrValue s c ||| s.x rs1 else csrValue s c) rd (csrValue s c)) ∧
    (∃ t, exec (.csrrc rd rs1 c) s = .next t ∧
      OnlyCsr s t c
        (if s.cfg.csrMode = .reference ∧ rd ≠ 0#5 ∨ s.cfg.csrMode = .riscvStandard ∧ rs1 ≠ 0#5
          then csrValue s c &&& ~~~s.x rs1 else csrValue s c) rd (csrValue s c))

/-- CSRRSI and CSRRCI set or clear the bits of the immediate, a pure read when it is 0, and rd receives the old value
(R205, R206). -/
def Obligations.CsrImmediateMasks : Prop :=
  DecodesAs .csrrsi 46 (formatCsr .csrrsi) ∧ DecodesAs .csrrci 47 (formatCsr .csrrci) ∧
  ∀ (rd : Reg) (imm5 : BitVec 5) (c : CsrNum) (s : State),
    (∃ t, exec (.csrrsi rd imm5 c) s = .next t ∧
      OnlyCsr s t c (if imm5 ≠ 0#5 then csrValue s c ||| BitVec.ofNat 32 imm5.toNat else csrValue s c) rd
        (csrValue s c)) ∧
    (∃ t, exec (.csrrci rd imm5 c) s = .next t ∧
      OnlyCsr s t c (if imm5 ≠ 0#5 then csrValue s c &&& ~~~BitVec.ofNat 32 imm5.toNat else csrValue s c) rd
        (csrValue s c))

/-- The two settings of CSR_MODE lead to the same state except when CSRRS or CSRRC runs with rd = 0 and rs1 not 0 on an
implemented CSR that the operation would change (R207; the spec's decision D16, log 6). -/
def Obligations.CsrModesDifferOnlyWithoutDestination : Prop :=
  ∀ (i : Instr) (s : State),
    ∃ t u, exec i { s with cfg := { s.cfg with csrMode := .reference } } = .next t ∧
      exec i { s with cfg := { s.cfg with csrMode := .riscvStandard } } = .next u ∧
      ({ u with cfg := t.cfg } = t ↔
        ¬∃ rs1 c, rs1 ≠ 0#5 ∧ (c = 0x300#12 ∨ c = 0x341#12) ∧
          (i = .csrrs 0#5 rs1 c ∧ csrValue s c ||| s.x rs1 ≠ csrValue s c ∨
            i = .csrrc 0#5 rs1 c ∧ csrValue s c &&& ~~~s.x rs1 ≠ csrValue s c))

/-! ### Instructions: multiply and divide -/

/-- MUL writes the low half of the exact product, the same for signed and unsigned readings, and MULHU the high half of
the unsigned product (R220, R223; the signedness of MULHU is the spec's decision D8, log 19). -/
def Obligations.LowAndUnsignedProducts : Prop :=
  DecodesAs .mul 56 (formatR .mul) ∧ DecodesAs .mulhu 59 (formatR .mulhu) ∧
  RegisterOp .mul (fun a b => BitVec.ofNat 32 (a.toNat * b.toNat)) ∧
  RegisterOp .mul (fun a b => BitVec.ofInt 32 (a.toInt * b.toInt)) ∧
  RegisterOp .mulhu (fun a b => BitVec.ofNat 32 (a.toNat * b.toNat / 2 ^ 32))

/-- MULH writes the high half of the signed product, MULHSU that of signed x[rs1] by unsigned x[rs2] (R221, R222; the
spec's decision D8, log 19). -/
def Obligations.SignedHighProducts : Prop :=
  DecodesAs .mulh 57 (formatR .mulh) ∧ DecodesAs .mulhsu 58 (formatR .mulhsu) ∧
  RegisterOp .mulh (fun a b => BitVec.ofInt 32 (a.toInt * b.toInt / 2 ^ 32)) ∧
  RegisterOp .mulhsu (fun a b => BitVec.ofInt 32 (a.toInt * (b.toNat : Int) / 2 ^ 32))

/-- DIV, DIVU, REM and REMU with their special cases: division by zero and the signed overflow. For the ordinary operands
of DIV and REM truncation toward zero and the remainder's sign are from general knowledge, the spec's decision D8, log 19
(R224 to R227; 48_muldiv section 2). -/
def Obligations.DivisionResults : Prop :=
  DecodesAs .div 60 (formatR .div) ∧ DecodesAs .divu 61 (formatR .divu) ∧ DecodesAs .rem 62 (formatR .rem) ∧
  DecodesAs .remu 63 (formatR .remu) ∧
  RegisterOp .div (fun a b =>
    if b = 0#32 then 0xFFFFFFFF#32
    else if a = 0x80000000#32 ∧ b = 0xFFFFFFFF#32 then 0x80000000#32
    else BitVec.ofInt 32 (truncQuotient a.toInt b.toInt)) ∧
  RegisterOp .divu (fun a b => if b = 0#32 then 0xFFFFFFFF#32 else BitVec.ofNat 32 (a.toNat / b.toNat)) ∧
  RegisterOp .rem (fun a b =>
    if b = 0#32 then a
    else if a = 0x80000000#32 ∧ b = 0xFFFFFFFF#32 then 0#32
    else BitVec.ofInt 32 (a.toInt - b.toInt * truncQuotient a.toInt b.toInt)) ∧
  RegisterOp .remu (fun a b => if b = 0#32 then a else BitVec.ofNat 32 (a.toNat % b.toNat))

/-- For ordinary operands DIV and REM satisfy a = b*q + r with |r| < |b| and r of the dividend's sign (the spec's section
48_muldiv 2, from general knowledge, its decision D8, log 19). -/
def Obligations.DivisionLaw : Prop :=
  ∀ (q r rs1 rs2 : Reg) (s : State), q ≠ 0#5 → r ≠ 0#5 → s.x rs2 ≠ 0#32 →
    ¬(s.x rs1 = 0x80000000#32 ∧ s.x rs2 = 0xFFFFFFFF#32) →
    ∃ t u, exec (.div q rs1 rs2) s = .next t ∧ exec (.rem r rs1 rs2) s = .next u ∧
      (s.x rs1).toInt = (s.x rs2).toInt * (t.x q).toInt + (u.x r).toInt ∧
      (u.x r).toInt.natAbs < (s.x rs2).toInt.natAbs ∧
      (0 ≤ (s.x rs1).toInt → 0 ≤ (u.x r).toInt) ∧ ((s.x rs1).toInt ≤ 0 → (u.x r).toInt ≤ 0)

/-! ### The host interface, reset and the run -/

/-- Construction over an image: RAM holds the image from 0x80000000 on and 0 elsewhere, the registers hold the values of
R35, the invariant holds; an image longer than the RAM is refused (R35, R61, R62, R270; logs 9 to 11, 14, 17). -/
def Obligations.ConstructionLoadsImage : Prop :=
  ∀ (cfg : Config) (image : List Byte),
    (image.length ≤ 0x2000000 →
      ∃ s, construct cfg image = .next s ∧ s.Inv ∧ s.pc = cfg.initPc ∧ s.halted = false ∧ s.trace = [] ∧
        s.mstatus = cfg.initMstatus ∧ s.mepc = cfg.initMepc ∧ s.cfg = cfg ∧
        (∀ r : Reg, s.x r = if r = 0#5 then 0#32 else cfg.initRegs[r.toNat]) ∧
        (∀ a : Nat, s.ram.byte a = if 0x80000000 ≤ a then image.getD (a - 0x80000000) 0#8 else 0#8)) ∧
    (0x2000000 < image.length → construct cfg image = .refused (.imageTooLarge image.length))

/-- Between runs: the host's reset gives back the values of R35 and keeps RAM, and a later image replaces its own bytes
alone (R35, R62, R270; logs 9 to 11, 16). -/
def Obligations.HostResetKeepsRam : Prop :=
  ∀ (s : State) (image : List Byte),
    (s.hostReset.ram = s.ram ∧ s.hostReset.cfg = s.cfg ∧ s.hostReset.pc = s.cfg.initPc ∧
      s.hostReset.halted = false ∧ s.hostReset.haltCause = none ∧ s.hostReset.trace = [] ∧
      s.hostReset.mstatus = s.cfg.initMstatus ∧ s.hostReset.mepc = s.cfg.initMepc ∧
      ∀ r : Reg, s.hostReset.x r = if r = 0#5 then 0#32 else s.cfg.initRegs[r.toNat]) ∧
    (s.ram.wf = true → image.length ≤ 0x2000000 →
      ∃ t, s.loadImage image = .next t ∧ { t with ram := s.ram } = s ∧ t.ram.wf = true ∧
        ∀ a : Nat, t.ram.byte a =
          if 0x80000000 ≤ a ∧ a < 0x80000000 + image.length then image.getD (a - 0x80000000) 0#8
          else s.ram.byte a)

/-- What reset leaves under the defaults: pc at 0x80000000, every register and CSR 0, not halted, an empty trace, RAM all
0. The register values and pc are the spec's own decisions D10, D11 (logs 9, 10). -/
def Obligations.ResetValues : Prop :=
  State.reset.pc = 0x80000000#32 ∧ (∀ r : Reg, State.reset.x r = 0#32) ∧ State.reset.mstatus = 0#32 ∧
  State.reset.mepc = 0#32 ∧ State.reset.halted = false ∧ State.reset.haltCause = none ∧ State.reset.trace = [] ∧
  (∀ a : Nat, State.reset.ram.byte a = 0#8) ∧ State.reset.cfg = Config.default

/-- A run under a step budget: an end is a halted state the run reaches and is the same under every larger budget; every
halted state that the run reaches is found as its end under some budget; an exhausted budget is no end; and the run is never
stuck (R245, R272, R273, R276; log 26). -/
def Obligations.BudgetedRunFindsTheEnd : Prop :=
  ∀ s t : State,
    (∀ n, runUntilHalted n s = .ended t →
      t.halted = true ∧ Reaches s t ∧ ∀ m, n ≤ m → runUntilHalted m s = .ended t) ∧
    (Reaches s t → t.halted = true → ∃ n, runUntilHalted n s = .ended t) ∧
    (∀ n, runUntilHalted n s = .noEnd t → t.halted = false ∧ Reaches s t) ∧
    ∀ n, runUntilHalted n s ≠ .stuck t

/-- RETI right after a write of mepc by CSRRW returns to the written address: a CSR write is seen by the next instruction
(R201, R275, R192; the spec's decision D17, log 7). -/
def Obligations.RetiReturnsToWrittenMepc : Prop :=
  ∀ (rd rs1 : Reg) (s : State),
    ∃ t u, exec (.csrrw rd rs1 0x341#12) s = .next t ∧ exec .reti t = .next u ∧ u.nextPc = s.x rs1 ∧
      u.mepc = s.x rs1
end

