-- ==== Sys2Proof/Laws/State.lean ====
section
/-! SUPPORT. One lemma per field per update of State, each true by rfl. -/

namespace Sys2Proof.Machine

/-! ### setNextPc -/

@[simp] theorem setNextPc_pc (s : State) (p : Word) : (s.setNextPc p).pc = s.pc := rfl
@[simp] theorem setNextPc_nextPc (s : State) (p : Word) : (s.setNextPc p).nextPc = p := rfl
@[simp] theorem setNextPc_ir (s : State) (p : Word) : (s.setNextPc p).ir = s.ir := rfl
@[simp] theorem setNextPc_regs (s : State) (p : Word) : (s.setNextPc p).regs = s.regs := rfl
@[simp] theorem setNextPc_mstatus (s : State) (p : Word) : (s.setNextPc p).mstatus = s.mstatus := rfl
@[simp] theorem setNextPc_mepc (s : State) (p : Word) : (s.setNextPc p).mepc = s.mepc := rfl
@[simp] theorem setNextPc_halted (s : State) (p : Word) : (s.setNextPc p).halted = s.halted := rfl
@[simp] theorem setNextPc_haltCause (s : State) (p : Word) : (s.setNextPc p).haltCause = s.haltCause := rfl
@[simp] theorem setNextPc_trace (s : State) (p : Word) : (s.setNextPc p).trace = s.trace := rfl
@[simp] theorem setNextPc_ram (s : State) (p : Word) : (s.setNextPc p).ram = s.ram := rfl
@[simp] theorem setNextPc_cfg (s : State) (p : Word) : (s.setNextPc p).cfg = s.cfg := rfl

/-! ### emit -/

@[simp] theorem emit_pc (s : State) (e : OutEvent) : (s.emit e).pc = s.pc := rfl
@[simp] theorem emit_nextPc (s : State) (e : OutEvent) : (s.emit e).nextPc = s.nextPc := rfl
@[simp] theorem emit_ir (s : State) (e : OutEvent) : (s.emit e).ir = s.ir := rfl
@[simp] theorem emit_regs (s : State) (e : OutEvent) : (s.emit e).regs = s.regs := rfl
@[simp] theorem emit_mstatus (s : State) (e : OutEvent) : (s.emit e).mstatus = s.mstatus := rfl
@[simp] theorem emit_mepc (s : State) (e : OutEvent) : (s.emit e).mepc = s.mepc := rfl
@[simp] theorem emit_halted (s : State) (e : OutEvent) : (s.emit e).halted = s.halted := rfl
@[simp] theorem emit_haltCause (s : State) (e : OutEvent) : (s.emit e).haltCause = s.haltCause := rfl
@[simp] theorem emit_trace (s : State) (e : OutEvent) : (s.emit e).trace = s.trace ++ [e] := rfl
@[simp] theorem emit_ram (s : State) (e : OutEvent) : (s.emit e).ram = s.ram := rfl
@[simp] theorem emit_cfg (s : State) (e : OutEvent) : (s.emit e).cfg = s.cfg := rfl

/-! ### halt -/

@[simp] theorem halt_pc (s : State) (c : HaltCause) : (s.halt c).pc = s.pc := rfl
@[simp] theorem halt_nextPc (s : State) (c : HaltCause) : (s.halt c).nextPc = s.nextPc := rfl
@[simp] theorem halt_ir (s : State) (c : HaltCause) : (s.halt c).ir = s.ir := rfl
@[simp] theorem halt_regs (s : State) (c : HaltCause) : (s.halt c).regs = s.regs := rfl
@[simp] theorem halt_mstatus (s : State) (c : HaltCause) : (s.halt c).mstatus = s.mstatus := rfl
@[simp] theorem halt_mepc (s : State) (c : HaltCause) : (s.halt c).mepc = s.mepc := rfl
@[simp] theorem halt_halted (s : State) (c : HaltCause) : (s.halt c).halted = true := rfl
@[simp] theorem halt_haltCause (s : State) (c : HaltCause) : (s.halt c).haltCause = some c := rfl
@[simp] theorem halt_trace (s : State) (c : HaltCause) : (s.halt c).trace = s.trace := rfl
@[simp] theorem halt_ram (s : State) (c : HaltCause) : (s.halt c).ram = s.ram := rfl
@[simp] theorem halt_cfg (s : State) (c : HaltCause) : (s.halt c).cfg = s.cfg := rfl

/-! ### returnFromInterrupt -/

@[simp] theorem returnFromInterrupt_pc (s : State) : s.returnFromInterrupt.pc = s.pc := rfl
@[simp] theorem returnFromInterrupt_nextPc (s : State) : s.returnFromInterrupt.nextPc = s.mepc := rfl
@[simp] theorem returnFromInterrupt_ir (s : State) : s.returnFromInterrupt.ir = s.ir := rfl
@[simp] theorem returnFromInterrupt_regs (s : State) : s.returnFromInterrupt.regs = s.regs := rfl
@[simp] theorem returnFromInterrupt_mstatus (s : State) : s.returnFromInterrupt.mstatus = s.mstatus ||| interruptEnable s.cfg := rfl
@[simp] theorem returnFromInterrupt_mepc (s : State) : s.returnFromInterrupt.mepc = s.mepc := rfl
@[simp] theorem returnFromInterrupt_halted (s : State) : s.returnFromInterrupt.halted = s.halted := rfl
@[simp] theorem returnFromInterrupt_haltCause (s : State) : s.returnFromInterrupt.haltCause = s.haltCause := rfl
@[simp] theorem returnFromInterrupt_trace (s : State) : s.returnFromInterrupt.trace = s.trace := rfl
@[simp] theorem returnFromInterrupt_ram (s : State) : s.returnFromInterrupt.ram = s.ram := rfl
@[simp] theorem returnFromInterrupt_cfg (s : State) : s.returnFromInterrupt.cfg = s.cfg := rfl

/-! ### fetched -/

@[simp] theorem fetched_pc (s : State) (w : Word) : (s.fetched w).pc = s.pc := rfl
@[simp] theorem fetched_nextPc (s : State) (w : Word) : (s.fetched w).nextPc = s.pc + 4#32 := rfl
@[simp] theorem fetched_ir (s : State) (w : Word) : (s.fetched w).ir = w := rfl
@[simp] theorem fetched_regs (s : State) (w : Word) : (s.fetched w).regs = s.regs := rfl
@[simp] theorem fetched_mstatus (s : State) (w : Word) : (s.fetched w).mstatus = s.mstatus := rfl
@[simp] theorem fetched_mepc (s : State) (w : Word) : (s.fetched w).mepc = s.mepc := rfl
@[simp] theorem fetched_halted (s : State) (w : Word) : (s.fetched w).halted = s.halted := rfl
@[simp] theorem fetched_haltCause (s : State) (w : Word) : (s.fetched w).haltCause = s.haltCause := rfl
@[simp] theorem fetched_trace (s : State) (w : Word) : (s.fetched w).trace = s.trace := rfl
@[simp] theorem fetched_ram (s : State) (w : Word) : (s.fetched w).ram = s.ram := rfl
@[simp] theorem fetched_cfg (s : State) (w : Word) : (s.fetched w).cfg = s.cfg := rfl

/-! ### haltOnFetch -/

@[simp] theorem haltOnFetch_pc (s : State) (f : MemFault) : (s.haltOnFetch f).pc = s.pc := rfl
@[simp] theorem haltOnFetch_nextPc (s : State) (f : MemFault) : (s.haltOnFetch f).nextPc = s.nextPc := rfl
@[simp] theorem haltOnFetch_ir (s : State) (f : MemFault) : (s.haltOnFetch f).ir = s.ir := rfl
@[simp] theorem haltOnFetch_regs (s : State) (f : MemFault) : (s.haltOnFetch f).regs = s.regs := rfl
@[simp] theorem haltOnFetch_mstatus (s : State) (f : MemFault) : (s.haltOnFetch f).mstatus = s.mstatus := rfl
@[simp] theorem haltOnFetch_mepc (s : State) (f : MemFault) : (s.haltOnFetch f).mepc = s.mepc := rfl
@[simp] theorem haltOnFetch_halted (s : State) (f : MemFault) : (s.haltOnFetch f).halted = true := rfl
@[simp] theorem haltOnFetch_haltCause (s : State) (f : MemFault) : (s.haltOnFetch f).haltCause = some (.fetchFault f.kind f.addr) := rfl
@[simp] theorem haltOnFetch_trace (s : State) (f : MemFault) : (s.haltOnFetch f).trace = s.trace := rfl
@[simp] theorem haltOnFetch_ram (s : State) (f : MemFault) : (s.haltOnFetch f).ram = s.ram := rfl
@[simp] theorem haltOnFetch_cfg (s : State) (f : MemFault) : (s.haltOnFetch f).cfg = s.cfg := rfl

/-! ### initial -/

@[simp] theorem initial_pc (cfg : Config) (ram : Memory) : (State.initial cfg ram).pc = cfg.initPc := rfl
@[simp] theorem initial_nextPc (cfg : Config) (ram : Memory) : (State.initial cfg ram).nextPc = 0#32 := rfl
@[simp] theorem initial_ir (cfg : Config) (ram : Memory) : (State.initial cfg ram).ir = 0#32 := rfl
@[simp] theorem initial_regs (cfg : Config) (ram : Memory) : (State.initial cfg ram).regs = cfg.initRegs.set 0 0#32 := rfl
@[simp] theorem initial_mstatus (cfg : Config) (ram : Memory) : (State.initial cfg ram).mstatus = cfg.initMstatus := rfl
@[simp] theorem initial_mepc (cfg : Config) (ram : Memory) : (State.initial cfg ram).mepc = cfg.initMepc := rfl
@[simp] theorem initial_halted (cfg : Config) (ram : Memory) : (State.initial cfg ram).halted = false := rfl
@[simp] theorem initial_haltCause (cfg : Config) (ram : Memory) : (State.initial cfg ram).haltCause = none := rfl
@[simp] theorem initial_trace (cfg : Config) (ram : Memory) : (State.initial cfg ram).trace = [] := rfl
@[simp] theorem initial_ram (cfg : Config) (ram : Memory) : (State.initial cfg ram).ram = ram := rfl
@[simp] theorem initial_cfg (cfg : Config) (ram : Memory) : (State.initial cfg ram).cfg = cfg := rfl

/-! ### hostReset -/

@[simp] theorem hostReset_pc (s : State) : s.hostReset.pc = s.cfg.initPc := rfl
@[simp] theorem hostReset_nextPc (s : State) : s.hostReset.nextPc = 0#32 := rfl
@[simp] theorem hostReset_ir (s : State) : s.hostReset.ir = 0#32 := rfl
@[simp] theorem hostReset_regs (s : State) : s.hostReset.regs = s.cfg.initRegs.set 0 0#32 := rfl
@[simp] theorem hostReset_mstatus (s : State) : s.hostReset.mstatus = s.cfg.initMstatus := rfl
@[simp] theorem hostReset_mepc (s : State) : s.hostReset.mepc = s.cfg.initMepc := rfl
@[simp] theorem hostReset_halted (s : State) : s.hostReset.halted = false := rfl
@[simp] theorem hostReset_haltCause (s : State) : s.hostReset.haltCause = none := rfl
@[simp] theorem hostReset_trace (s : State) : s.hostReset.trace = [] := rfl
@[simp] theorem hostReset_ram (s : State) : s.hostReset.ram = s.ram := rfl
@[simp] theorem hostReset_cfg (s : State) : s.hostReset.cfg = s.cfg := rfl

end Sys2Proof.Machine
end

