-- ==== Sys2Proof/Laws/Registers.lean ====
section
/-! SUPPORT. What the register and CSR operations do, said once. -/

namespace Sys2Proof.Machine

/-! ### General registers -/

@[simp] theorem x_zero (s : State) : s.x 0#5 = 0#32 := by simp [State.x]

@[simp] theorem setReg_zero (s : State) (v : Word) : s.setReg 0#5 v = s := by simp [State.setReg]

/-- Reading a register looks at the register array alone. -/
theorem x_congr {s t : State} (h : t.regs = s.regs) (r : Reg) : t.x r = s.x r := by simp [State.x, h]

@[simp] theorem setReg_pc (s : State) (r : Reg) (v : Word) : (s.setReg r v).pc = s.pc := by
  unfold State.setReg; split <;> rfl
@[simp] theorem setReg_nextPc (s : State) (r : Reg) (v : Word) : (s.setReg r v).nextPc = s.nextPc := by
  unfold State.setReg; split <;> rfl
@[simp] theorem setReg_ir (s : State) (r : Reg) (v : Word) : (s.setReg r v).ir = s.ir := by
  unfold State.setReg; split <;> rfl
@[simp] theorem setReg_mstatus (s : State) (r : Reg) (v : Word) : (s.setReg r v).mstatus = s.mstatus := by
  unfold State.setReg; split <;> rfl
@[simp] theorem setReg_mepc (s : State) (r : Reg) (v : Word) : (s.setReg r v).mepc = s.mepc := by
  unfold State.setReg; split <;> rfl
@[simp] theorem setReg_halted (s : State) (r : Reg) (v : Word) : (s.setReg r v).halted = s.halted := by
  unfold State.setReg; split <;> rfl
@[simp] theorem setReg_haltCause (s : State) (r : Reg) (v : Word) : (s.setReg r v).haltCause = s.haltCause := by
  unfold State.setReg; split <;> rfl
@[simp] theorem setReg_trace (s : State) (r : Reg) (v : Word) : (s.setReg r v).trace = s.trace := by
  unfold State.setReg; split <;> rfl
@[simp] theorem setReg_ram (s : State) (r : Reg) (v : Word) : (s.setReg r v).ram = s.ram := by
  unfold State.setReg; split <;> rfl
@[simp] theorem setReg_cfg (s : State) (r : Reg) (v : Word) : (s.setReg r v).cfg = s.cfg := by
  unfold State.setReg; split <;> rfl

/-- A write to any register but 0 sets its slot of the array (R22). -/
theorem setReg_of_ne {r : Reg} (h : r ≠ 0#5) (s : State) (v : Word) :
    s.setReg r v = { s with regs := s.regs.set r.toNat v } := by simp [State.setReg, h]

/-- What a register write does to every later read (R21, R22). -/
theorem setReg_x (s : State) (rd : Reg) (v : Word) (r : Reg) :
    (s.setReg rd v).x r = if r = rd ∧ rd ≠ 0#5 then v else s.x r := by
  by_cases hd : rd = 0#5
  · simp [hd]
  · rw [setReg_of_ne hd]
    by_cases hr : r = rd
    · subst hr
      simp [State.x, hd]
    · have hne : rd.toNat ≠ r.toNat := fun h => hr (BitVec.eq_of_toNat_eq h.symm)
      simp [State.x, hr, hne]

/-- A register write is a `RegWritten`. -/
theorem setReg_regWritten (s : State) (rd : Reg) (v : Word) : RegWritten s (s.setReg rd v) rd v :=
  fun r => setReg_x s rd v r

/-- The slot of the hard-wired register is never written (R22). -/
theorem setReg_regs_zero (s : State) (rd : Reg) (v : Word) : (s.setReg rd v).regs[0] = s.regs[0] := by
  unfold State.setReg
  split
  · rfl
  · rename_i h
    have hne : rd.toNat ≠ 0 := fun e => h (BitVec.eq_of_toNat_eq (by simpa using e))
    simp [hne]

/-- A meaning that only writes a register: its whole effect. -/
theorem onlyReg_setReg (s : State) (rd : Reg) (v : Word) : OnlyReg s (s.setReg rd v) rd v :=
  ⟨setReg_regWritten s rd v, ⟨by simp, by simp⟩, fun _ => by simp, by simp, ⟨by simp, by simp⟩,
    ⟨by simp, by simp, by simp⟩, by simp⟩

/-! ### CSRs -/

@[simp] theorem csrWrite_pc (s : State) (c : CsrNum) (v : Word) : (s.csrWrite c v).pc = s.pc := by
  unfold State.csrWrite; split <;> [rfl; (split <;> rfl)]
@[simp] theorem csrWrite_nextPc (s : State) (c : CsrNum) (v : Word) : (s.csrWrite c v).nextPc = s.nextPc := by
  unfold State.csrWrite; split <;> [rfl; (split <;> rfl)]
@[simp] theorem csrWrite_ir (s : State) (c : CsrNum) (v : Word) : (s.csrWrite c v).ir = s.ir := by
  unfold State.csrWrite; split <;> [rfl; (split <;> rfl)]
@[simp] theorem csrWrite_regs (s : State) (c : CsrNum) (v : Word) : (s.csrWrite c v).regs = s.regs := by
  unfold State.csrWrite; split <;> [rfl; (split <;> rfl)]
@[simp] theorem csrWrite_halted (s : State) (c : CsrNum) (v : Word) : (s.csrWrite c v).halted = s.halted := by
  unfold State.csrWrite; split <;> [rfl; (split <;> rfl)]
@[simp] theorem csrWrite_haltCause (s : State) (c : CsrNum) (v : Word) :
    (s.csrWrite c v).haltCause = s.haltCause := by
  unfold State.csrWrite; split <;> [rfl; (split <;> rfl)]
@[simp] theorem csrWrite_trace (s : State) (c : CsrNum) (v : Word) : (s.csrWrite c v).trace = s.trace := by
  unfold State.csrWrite; split <;> [rfl; (split <;> rfl)]
@[simp] theorem csrWrite_ram (s : State) (c : CsrNum) (v : Word) : (s.csrWrite c v).ram = s.ram := by
  unfold State.csrWrite; split <;> [rfl; (split <;> rfl)]
@[simp] theorem csrWrite_cfg (s : State) (c : CsrNum) (v : Word) : (s.csrWrite c v).cfg = s.cfg := by
  unfold State.csrWrite; split <;> [rfl; (split <;> rfl)]

/-- mstatus after a CSR write (R200). -/
theorem csrWrite_mstatus (s : State) (c : CsrNum) (v : Word) :
    (s.csrWrite c v).mstatus = if c = 0x300#12 then v else s.mstatus := by
  unfold State.csrWrite csrMstatus csrMepc
  split <;> [simp_all; (split <;> simp_all)]

/-- mepc after a CSR write (R200). -/
theorem csrWrite_mepc (s : State) (c : CsrNum) (v : Word) :
    (s.csrWrite c v).mepc = if c = 0x341#12 then v else s.mepc := by
  unfold State.csrWrite csrMstatus csrMepc
  split <;> [simp_all; (split <;> simp_all)]

/-- A CSR write is a `CsrWritten`. -/
theorem csrWrite_csrWritten (s : State) (c : CsrNum) (v : Word) : CsrWritten s (s.csrWrite c v) c v :=
  ⟨csrWrite_mstatus s c v, csrWrite_mepc s c v⟩

/-- What a read after a CSR write yields (R31, R200). -/
theorem csrRead_csrWrite (s : State) (c d : CsrNum) (v : Word) :
    (s.csrWrite c v).csrRead d = if d = c ∧ (c = 0x300#12 ∨ c = 0x341#12) then v else s.csrRead d := by
  unfold State.csrRead
  rw [csrWrite_mstatus, csrWrite_mepc]
  unfold csrMstatus csrMepc
  by_cases h1 : d = 0x300#12 <;> by_cases h2 : d = 0x341#12 <;> by_cases h3 : c = 0x300#12 <;> by_cases h4 : c = 0x341#12 <;>
    simp_all

/-- Writing a CSR's own value back changes nothing (R202). -/
theorem csrWrite_self (s : State) (c : CsrNum) : s.csrWrite c (s.csrRead c) = s := by
  unfold State.csrWrite State.csrRead csrMstatus csrMepc
  split
  · rfl
  · split <;> rfl

/-- The whole effect of the shared CSR operation (R201 to R208). -/
theorem csrUpdate_next (cond : Bool) (rd : Reg) (c : CsrNum) (v : Word) (s : State) :
    ∃ t, csrUpdate cond rd c v s = .next t ∧
      OnlyCsr s t c (if cond then v else s.csrRead c) rd (s.csrRead c) := by
  refine ⟨_, rfl, ?_⟩
  cases cond with
  | true =>
    refine ⟨fun r => ?_, ?_, fun _ => ?_, ?_, ⟨?_, ?_⟩, ⟨?_, ?_, ?_⟩, ?_⟩ <;> simp [State.csrWriteIf]
    · rw [setReg_x, x_congr (csrWrite_regs s c v)]
    · exact ⟨by rw [setReg_mstatus, csrWrite_mstatus], by rw [setReg_mepc, csrWrite_mepc]⟩
  | false =>
    refine ⟨fun r => ?_, ?_, fun _ => ?_, ?_, ⟨?_, ?_⟩, ⟨?_, ?_, ?_⟩, ?_⟩ <;> simp [State.csrWriteIf]
    · rw [setReg_x]
    · have h := csrWrite_csrWritten s c (s.csrRead c)
      rw [csrWrite_self] at h
      exact ⟨by rw [setReg_mstatus]; exact h.1, by rw [setReg_mepc]; exact h.2⟩

end Sys2Proof.Machine
end

