-- ==== Sys2Proof/Laws/Memory.lean ====
section
/-! SUPPORT. RAM: a read after a write, and every write keeps the canonical form. -/

namespace Sys2Proof.Machine

/-! ### Lists of cells -/

/-- The canonical form of a list of cells. -/
def Canonical (l : List Host.Cell) : Prop := l.Pairwise (fun c d => c.1 < d.1) ∧ ∀ c ∈ l, c.2 ≠ 0#8

theorem wf_iff (m : Memory) : m.wf = true ↔ Canonical m.cells := by
  simp [Memory.wf, Canonical]

/-- An address below every listed one reads 0. -/
theorem lookupCell_of_lt {l : List Host.Cell} {a : Nat} (h : ∀ c ∈ l, a < c.1) : lookupCell l a = 0#8 := by
  induction l with
  | nil => rfl
  | cons c rest ih =>
    have hc := h c (by simp)
    have hne : c.1 ≠ a := by omega
    simp only [lookupCell, hne, if_false]
    exact ih (fun d hd => h d (by simp [hd]))

/-- Reading after a write: the written byte at its address, every other byte as before. -/
theorem lookupCell_storeCell {l : List Host.Cell} (h : l.Pairwise (fun c d => c.1 < d.1)) (a b : Nat) (v : Byte) :
    lookupCell (storeCell l a v) b = if b = a then v else lookupCell l b := by
  induction l with
  | nil =>
    have hne : b ≠ a → ¬a = b := fun h e => h e.symm
    by_cases hv : v = 0#8 <;> by_cases hb : b = a <;> simp_all [storeCell, lookupCell]
  | cons c rest ih =>
    obtain ⟨k, w⟩ := c
    have hk : ∀ d ∈ rest, k < d.1 := (List.pairwise_cons.mp h).1
    have ih := ih (List.pairwise_cons.mp h).2
    by_cases h1 : a < k
    · have hlt : ∀ d ∈ (k, w) :: rest, a < d.1 := by
        intro d hd
        rcases List.mem_cons.mp hd with rfl | hd
        · exact h1
        · exact lt_trans h1 (hk d hd)
      by_cases hv : v = 0#8
      · by_cases hb : b = a
        · subst hb; simp [storeCell, h1, hv, lookupCell_of_lt hlt]
        · simp [storeCell, h1, hv, hb]
      · by_cases hb : b = a
        · subst hb; simp [storeCell, h1, hv, lookupCell]
        · simp [storeCell, h1, hv, hb, lookupCell, Ne.symm hb]
    · by_cases h2 : a = k
      · subst h2
        by_cases hv : v = 0#8
        · by_cases hb : b = a
          · subst hb; simp [storeCell, hv, lookupCell_of_lt hk]
          · simp [storeCell, hv, hb, lookupCell, Ne.symm hb]
        · by_cases hb : b = a
          · subst hb; simp [storeCell, hv, lookupCell]
          · simp [storeCell, hv, hb, lookupCell, Ne.symm hb]
      · simp only [storeCell, h1, h2, if_false, lookupCell, ih]
        by_cases hb : b = a
        · subst hb; simp [Ne.symm h2]
        · simp [hb]

/-- A written list lists only the written address and the addresses listed before. -/
theorem mem_storeCell {l : List Host.Cell} {a : Nat} {v : Byte} {d : Host.Cell} (h : d ∈ storeCell l a v) :
    (d = (a, v) ∧ v ≠ 0#8) ∨ d ∈ l := by
  induction l with
  | nil =>
    by_cases hv : v = 0#8 <;> simp_all [storeCell]
  | cons c rest ih =>
    obtain ⟨k, w⟩ := c
    simp only [storeCell] at h
    split at h
    · split at h
      · exact .inr h
      · rcases List.mem_cons.mp h with rfl | h
        · exact .inl ⟨rfl, by assumption⟩
        · exact .inr h
    · split at h
      · split at h
        · exact .inr (List.mem_cons_of_mem _ h)
        · rcases List.mem_cons.mp h with rfl | h
          · exact .inl ⟨rfl, by assumption⟩
          · exact .inr (List.mem_cons_of_mem _ h)
      · rcases List.mem_cons.mp h with rfl | h
        · exact .inr (by simp)
        · exact (ih h).imp id (List.mem_cons_of_mem _)

/-- A write keeps the canonical form. -/
theorem canonical_storeCell {l : List Host.Cell} (h : Canonical l) (a : Nat) (v : Byte) :
    Canonical (storeCell l a v) := by
  refine ⟨?_, fun d hd => ?_⟩
  · obtain ⟨hp, -⟩ := h
    induction l with
    | nil => by_cases hv : v = 0#8 <;> simp [storeCell, hv]
    | cons c rest ih =>
      obtain ⟨k, w⟩ := c
      have hk : ∀ d ∈ rest, k < d.1 := (List.pairwise_cons.mp hp).1
      have hr := (List.pairwise_cons.mp hp).2
      simp only [storeCell]
      split
      · split
        · exact hp
        · rename_i h1 _
          refine List.pairwise_cons.mpr ⟨fun d hd => ?_, hp⟩
          rcases List.mem_cons.mp hd with rfl | hd
          · exact h1
          · exact lt_trans h1 (hk d hd)
      · split
        · split
          · exact hr
          · rename_i h2 _
            exact List.pairwise_cons.mpr ⟨fun d hd => h2 ▸ hk d hd, hr⟩
        · rename_i h1 h2
          refine List.pairwise_cons.mpr ⟨fun d hd => ?_, ih hr⟩
          rcases mem_storeCell hd with ⟨rfl, -⟩ | hd
          · show k < a
            omega
          · exact hk d hd
  · rcases mem_storeCell hd with ⟨rfl, hv⟩ | hd
    · exact hv
    · exact h.2 d hd

/-! ### Bytes -/

theorem zeroed_wf : Memory.zeroed.wf = true := rfl

theorem zeroed_within : Memory.zeroed.within = true := rfl

@[simp] theorem zeroed_byte (a : Nat) : Memory.zeroed.byte a = 0#8 := rfl

/-- A byte write keeps the canonical form. -/
theorem setByte_wf {m : Memory} (h : m.wf = true) (a : Nat) (v : Byte) : (m.setByte a v).wf = true :=
  (wf_iff _).mpr (canonical_storeCell ((wf_iff m).mp h) a v)

/-- A byte write to a RAM address lists RAM addresses alone. -/
theorem setByte_within {m : Memory} (h : m.within = true) {a : Nat} (ha : ramBase ≤ a ∧ a < ramEnd) (v : Byte) :
    (m.setByte a v).within = true := by
  simp only [Memory.within, List.all_eq_true, Bool.and_eq_true, decide_eq_true_eq] at h ⊢
  intro d hd
  rcases mem_storeCell hd with ⟨rfl, -⟩ | hd
  · exact ha
  · exact h d hd

/-- Read after write, one byte. -/
theorem byte_setByte {m : Memory} (h : m.wf = true) (a b : Nat) (v : Byte) :
    (m.setByte a v).byte b = if b = a then v else m.byte b :=
  lookupCell_storeCell ((wf_iff m).mp h).1 a b v

/-- Writing bytes keeps the canonical form. -/
theorem setBytes_wf {m : Memory} (h : m.wf = true) (a : Nat) (bs : List Byte) : (m.setBytes a bs).wf = true := by
  induction bs generalizing m a with
  | nil => exact h
  | cons b bs ih => exact ih (setByte_wf h a b) (a + 1)

/-- Writing bytes inside RAM lists RAM addresses alone. -/
theorem setBytes_within {m : Memory} (h : m.within = true) {a : Nat} {bs : List Byte} (ha : ramBase ≤ a)
    (hb : a + bs.length ≤ ramEnd) : (m.setBytes a bs).within = true := by
  induction bs generalizing m a with
  | nil => exact h
  | cons b bs ih =>
    simp only [List.length_cons] at hb
    exact ih (setByte_within h ⟨ha, by omega⟩ b) (by omega) (by omega)

/-- Read after write, a run of bytes. -/
theorem byte_setBytes {m : Memory} (h : m.wf = true) (a : Nat) (bs : List Byte) (b : Nat) :
    (m.setBytes a bs).byte b = if a ≤ b ∧ b < a + bs.length then bs.getD (b - a) 0#8 else m.byte b := by
  induction bs generalizing m a with
  | nil =>
    have : ¬(a ≤ b ∧ b < a + ([] : List Byte).length) := by simp
    rw [if_neg this]; rfl
  | cons v bs ih =>
    rw [Memory.setBytes, ih (setByte_wf h a v), byte_setByte h, List.length_cons]
    by_cases h1 : b = a
    · subst h1; simp
    · by_cases h2 : a + 1 ≤ b ∧ b < a + 1 + bs.length
      · have h3 : a ≤ b ∧ b < a + (bs.length + 1) := by omega
        have h4 : b - a = (b - (a + 1)) + 1 := by omega
        rw [if_pos h2, if_pos h3, h4, List.getD_cons_succ]
      · have h3 : ¬(a ≤ b ∧ b < a + (bs.length + 1)) := by omega
        rw [if_neg h2, if_neg h1, if_neg h3]

/-! ### Words in bytes -/

theorem byteOf_toNat (w : Word) (k : Nat) : (byteOf w k).toNat = w.toNat / 256 ^ k % 256 := by
  have h : (256 : Nat) ^ k = 2 ^ (8 * k) := by rw [Nat.pow_mul]
  simp [byteOf, BitVec.extractLsb'_toNat, Nat.shiftRight_eq_div_pow, h]

theorem wordOfBytes_toNat (b0 b1 b2 b3 : Byte) :
    (wordOfBytes b0 b1 b2 b3).toNat =
      b0.toNat + 256 * b1.toNat + 65536 * b2.toNat + 16777216 * b3.toNat := by
  have h0 := b0.isLt
  have h1 := b1.isLt
  have h2 := b2.isLt
  simp only [wordOfBytes, BitVec.toNat_append]
  rw [← Nat.shiftLeft_add_eq_or_of_lt (by omega), ← Nat.shiftLeft_add_eq_or_of_lt (by omega),
    ← Nat.shiftLeft_add_eq_or_of_lt (by omega)]
  simp only [Nat.shiftLeft_eq]
  omega

theorem halfOfBytes_toNat (b0 b1 : Byte) : (halfOfBytes b0 b1).toNat = b0.toNat + 256 * b1.toNat := by
  have h0 := b0.isLt
  simp only [halfOfBytes, BitVec.toNat_append]
  rw [← Nat.shiftLeft_add_eq_or_of_lt (by omega)]
  simp only [Nat.shiftLeft_eq]
  omega

/-- A word is what its own four bytes assemble to (R45). -/
theorem wordOfBytes_byteOf (w : Word) : wordOfBytes (byteOf w 0) (byteOf w 1) (byteOf w 2) (byteOf w 3) = w := by
  apply BitVec.eq_of_toNat_eq
  rw [wordOfBytes_toNat]
  simp only [byteOf_toNat]
  have := w.isLt
  omega

/-- The bytes of an assembled word (R45). -/
theorem bytesOfWord_wordOfBytes (b0 b1 b2 b3 : Byte) : bytesOfWord (wordOfBytes b0 b1 b2 b3) = [b0, b1, b2, b3] := by
  have h0 := b0.isLt
  have h1 := b1.isLt
  have h2 := b2.isLt
  have h3 := b3.isLt
  simp only [bytesOfWord, List.cons.injEq, and_true]
  refine ⟨?_, ?_, ?_, ?_⟩ <;> apply BitVec.eq_of_toNat_eq <;> rw [byteOf_toNat, wordOfBytes_toNat] <;> omega

@[simp] theorem bytesOfWord_length (w : Word) : (bytesOfWord w).length = 4 := rfl

theorem kind_bytes_le (k : MemKind) : k.bytes ≤ 4 := by cases k <;> simp [MemKind.bytes]

theorem stored_length (k : MemKind) (v : Word) : ((bytesOfWord v).take k.bytes).length = k.bytes := by
  have := kind_bytes_le k
  simp
  omega

/-- One byte of RAM after a store (R46). -/
theorem byte_store {m : Memory} (h : m.wf = true) (k : MemKind) (a : Nat) (v : Word) (b : Nat) :
    (m.store k a v).byte b = if a ≤ b ∧ b < a + k.bytes then byteOf v (b - a) else m.byte b := by
  rw [Memory.store, byte_setBytes h, stored_length]
  by_cases hb : a ≤ b ∧ b < a + k.bytes
  · rw [if_pos hb, if_pos hb]
    have h4 := kind_bytes_le k
    have hlt : b - a < k.bytes := by omega
    rw [List.getD_eq_getElem?_getD, List.getElem?_take_of_lt hlt]
    have hlt4 : b - a < 4 := by omega
    generalize b - a = i at hlt4
    interval_cases i <;> rfl
  · rw [if_neg hb, if_neg hb]

/-- A store keeps the canonical form. -/
theorem store_wf {m : Memory} (h : m.wf = true) (k : MemKind) (a : Nat) (v : Word) : (m.store k a v).wf = true :=
  setBytes_wf h a _

/-- A store inside RAM lists RAM addresses alone. -/
theorem store_within {m : Memory} (h : m.within = true) {k : MemKind} {a : Nat} (ha : ramBase ≤ a)
    (hb : a + k.bytes ≤ ramEnd) (v : Word) : (m.store k a v).within = true :=
  setBytes_within h ha (by rw [stored_length]; exact hb)

/-- A loaded word depends on its four bytes (R43). -/
theorem load_word (m : Memory) (a : Nat) :
    m.load .word a = wordOfBytes (m.byte a) (m.byte (a + 1)) (m.byte (a + 2)) (m.byte (a + 3)) := rfl

end Sys2Proof.Machine
end

