-- ==== Sys2Proof/Laws/Access.lean ====
section
/-! SUPPORT. The memory subsystem's two operations, each said once. -/

namespace Sys2Proof.Machine

/-- The range of RAM (R41). -/
theorem inRam_iff (a : Word) : inRam a = true ↔ 0x80000000 ≤ a.toNat ∧ a.toNat < 0x82000000 := by
  simp only [inRam, Bool.and_eq_true, decide_eq_true_eq]
  rfl

/-- Natural alignment (R43). -/
theorem aligned_iff (k : MemKind) (a : Word) : aligned k a = true ↔ a.toNat % k.bytes = 0 := by
  simp [aligned]

/-- A RAM address is no port (R41). -/
theorem portAt_of_inRam {a : Word} (h : inRam a = true) : portAt a = none := by
  rw [inRam_iff] at h
  have h1 : a ≠ portCharAddr := by rintro rfl; simp [portCharAddr] at h
  have h2 : a ≠ portDecAddr := by rintro rfl; simp [portDecAddr] at h
  have h3 : a ≠ portHexAddr := by rintro rfl; simp [portHexAddr] at h
  simp [portAt, h1, h2, h3]

/-- The addresses that are ports (R41). -/
theorem portAt_isSome_iff (a : Word) :
    (portAt a).isSome = true ↔ a = 0x10000000#32 ∨ a = 0x10000004#32 ∨ a = 0x10000008#32 := by
  unfold portAt portCharAddr portDecAddr portHexAddr
  split
  · simp_all
  · split
    · simp_all
    · split <;> simp_all

/-- The three outcomes of the access tests (R246). -/
theorem accessFault_cases (k : MemKind) (a : Word) :
    (∃ p, portAt a = some p ∧ accessFault k a = none) ∨
    (portAt a = none ∧ inRam a = false ∧ accessFault k a = some { kind := .outOfRange, addr := a }) ∨
    (portAt a = none ∧ inRam a = true ∧ aligned k a = false ∧
      accessFault k a = some { kind := .misaligned, addr := a }) ∨
    (portAt a = none ∧ inRam a = true ∧ aligned k a = true ∧ accessFault k a = none) := by
  unfold accessFault
  cases hp : portAt a with
  | some p => exact .inl ⟨p, rfl, by simp⟩
  | none =>
    cases hr : inRam a with
    | false => exact .inr (.inl ⟨rfl, rfl, by simp⟩)
    | true =>
      cases ha : aligned k a with
      | false => exact .inr (.inr (.inl ⟨rfl, rfl, rfl, by simp⟩))
      | true => exact .inr (.inr (.inr ⟨rfl, rfl, rfl, by simp⟩))

/-- An access that passes the tests in RAM ends inside RAM (R51). -/
theorem access_within {k : MemKind} {a : Word} (hr : inRam a = true) (ha : aligned k a = true) :
    ramBase ≤ a.toNat ∧ a.toNat + k.bytes ≤ ramEnd := by
  rw [inRam_iff] at hr
  rw [aligned_iff] at ha
  unfold ramBase ramEnd
  cases k <;> simp only [MemKind.bytes] at * <;> omega

/-- Everything a read can answer (R43, R48). -/
theorem memRead_cases (s : State) (k : MemKind) (a : Word) :
    (∃ p, portAt a = some p ∧ memRead s k a = .ok 0#32) ∨
    (portAt a = none ∧ inRam a = false ∧ memRead s k a = .error { kind := .outOfRange, addr := a }) ∨
    (portAt a = none ∧ inRam a = true ∧ aligned k a = false ∧
      memRead s k a = .error { kind := .misaligned, addr := a }) ∨
    (portAt a = none ∧ inRam a = true ∧ aligned k a = true ∧ memRead s k a = .ok (s.ram.load k a.toNat)) := by
  unfold memRead
  rcases accessFault_cases k a with ⟨p, hp, h⟩ | ⟨hp, hr, h⟩ | ⟨hp, hr, ha, h⟩ | ⟨hp, hr, ha, h⟩ <;>
    simp [*]

/-- Everything a write can answer (R46, R47, R50). -/
theorem memWrite_cases (s : State) (k : MemKind) (a v : Word) :
    (∃ p, portAt a = some p ∧ memWrite s k a v = .ok (s.emit (p.event v))) ∨
    (portAt a = none ∧ inRam a = false ∧ memWrite s k a v = .error { kind := .outOfRange, addr := a }) ∨
    (portAt a = none ∧ inRam a = true ∧ aligned k a = false ∧
      memWrite s k a v = .error { kind := .misaligned, addr := a }) ∨
    (portAt a = none ∧ inRam a = true ∧ aligned k a = true ∧
      memWrite s k a v = .ok { s with ram := s.ram.store k a.toNat v }) := by
  unfold memWrite
  rcases accessFault_cases k a with ⟨p, hp, h⟩ | ⟨hp, hr, h⟩ | ⟨hp, hr, ha, h⟩ | ⟨hp, hr, ha, h⟩ <;>
    simp [*]

/-- A read fails with the fault of its access tests (R246). -/
theorem memRead_error {s : State} {k : MemKind} {a : Word} {f : MemFault} (h : memRead s k a = .error f) :
    accessFault k a = some f := by
  unfold memRead at h
  split at h
  · cases h; assumption
  · split at h <;> cases h

/-- A write fails with the fault of its access tests (R246). -/
theorem memWrite_error {s : State} {k : MemKind} {a v : Word} {f : MemFault} (h : memWrite s k a v = .error f) :
    accessFault k a = some f := by
  unfold memWrite at h
  split at h
  · cases h; assumption
  · split at h <;> cases h

/-- A read depends on the state through RAM alone. -/
theorem memRead_congr {s t : State} (h : t.ram = s.ram) (k : MemKind) (a : Word) :
    memRead t k a = memRead s k a := by
  simp [memRead, h]

/-- A fetch depends on pc and RAM alone (R55). -/
theorem fetch_congr {s t : State} (hp : t.pc = s.pc) (hr : t.ram = s.ram) : fetch t = fetch s := by
  simp [fetch, hp, memRead_congr hr]

end Sys2Proof.Machine
end

