-- ==== Sys2Proof/Laws/Exec.lean ====
section
/-! SUPPORT. What an executed instruction and a step can do, said once. -/

namespace Sys2Proof.Machine

/-- Everything a load can answer (R131 to R135, R139). -/
theorem loadInto_cases (k : MemKind) (keep : Word → Word) (rd rs1 : Reg) (imm : Word) (s : State) :
    (∃ f, memRead s k (effectiveAddr s rs1 imm) = .error f ∧
      loadInto k keep rd rs1 imm s = .next (s.halt (.accessFault f.kind f.addr))) ∨
    (∃ v, memRead s k (effectiveAddr s rs1 imm) = .ok v ∧
      loadInto k keep rd rs1 imm s = .next (s.setReg rd (keep v))) := by
  unfold loadInto raiseAccess
  cases h : memRead s k (effectiveAddr s rs1 imm) with
  | error f => exact .inl ⟨f, rfl, rfl⟩
  | ok v => exact .inr ⟨v, rfl, rfl⟩

/-- Everything a store can answer (R136 to R139). -/
theorem storeFrom_cases (k : MemKind) (rs2 rs1 : Reg) (imm : Word) (s : State) :
    (∃ f, memWrite s k (effectiveAddr s rs1 imm) (s.x rs2) = .error f ∧
      storeFrom k rs2 rs1 imm s = .next (s.halt (.accessFault f.kind f.addr))) ∨
    (∃ p, portAt (effectiveAddr s rs1 imm) = some p ∧
      storeFrom k rs2 rs1 imm s = .next (s.emit (p.event (s.x rs2)))) ∨
    (inRam (effectiveAddr s rs1 imm) = true ∧ aligned k (effectiveAddr s rs1 imm) = true ∧
      storeFrom k rs2 rs1 imm s =
        .next { s with ram := s.ram.store k (effectiveAddr s rs1 imm).toNat (s.x rs2) }) := by
  unfold storeFrom raiseAccess
  rcases memWrite_cases s k (effectiveAddr s rs1 imm) (s.x rs2) with
    ⟨p, hp, h⟩ | ⟨hp, hr, h⟩ | ⟨hp, hr, ha, h⟩ | ⟨hp, hr, ha, h⟩ <;> rw [h]
  · exact .inr (.inl ⟨p, hp, rfl⟩)
  · exact .inl ⟨_, rfl, rfl⟩
  · exact .inl ⟨_, rfl, rfl⟩
  · exact .inr (.inr ⟨hr, ha, rfl⟩)

/-- The whole effect of JAL and JALR after their target (R110, R111). -/
theorem jumpAndLink_next (rd : Reg) (target : Word) (s : State) :
    ∃ t, jumpAndLink rd target s = .next t ∧ OnlyJump s t target rd (s.pc + 4#32) := by
  refine ⟨_, rfl, fun r => ?_, ⟨by simp, by simp⟩, fun _ => by simp, by simp, ⟨by simp, by simp⟩,
    ⟨by simp, by simp, by simp⟩, by simp⟩
  rw [setReg_x]
  rfl

/-- The whole effect of a branch (R112). -/
theorem branchIf_next (cond : Bool) (off : Word) (s : State) :
    ∃ t, branchIf cond off s = .next t ∧ OnlyNextPc s t (if cond then s.pc + off else s.nextPc) := by
  cases cond <;>
    exact ⟨_, rfl, fun _ => rfl, ⟨rfl, rfl⟩, fun _ => rfl, rfl, ⟨rfl, rfl⟩, ⟨rfl, rfl, rfl⟩, rfl⟩

/-- The states an instruction can lead to from `s`, with what the instruction must be for each shape. -/
inductive Effect (i : Instr) (s : State) : State → Prop where
  | reg (rd : Reg) (v : Word) : Effect i s (s.setReg rd v)
  | jump (target : Word) (rd : Reg) (v : Word) (hi : isTransfer i = true) :
      Effect i s ((s.setNextPc target).setReg rd v)
  | branch (target : Word) (hi : isTransfer i = true) : Effect i s (s.setNextPc target)
  | none : Effect i s s
  | event (k : MemKind) (rs2 rs1 : Reg) (imm : Word) (p : Port) (hi : dataAccess i = some (k, rs1, imm))
      (hs : storedRegister i = some rs2) (hp : portAt (effectiveAddr s rs1 imm) = some p) :
      Effect i s (s.emit (p.event (s.x rs2)))
  | store (k : MemKind) (rs2 rs1 : Reg) (imm : Word) (hi : dataAccess i = some (k, rs1, imm))
      (hs : storedRegister i = some rs2) (hr : inRam (effectiveAddr s rs1 imm) = true)
      (ha : aligned k (effectiveAddr s rs1 imm) = true) :
      Effect i s { s with ram := s.ram.store k (effectiveAddr s rs1 imm).toNat (s.x rs2) }
  | csr (c : CsrNum) (v : Word) (rd : Reg) (old : Word) (hi : csrTarget i = some c) :
      Effect i s ((s.csrWrite c v).setReg rd old)
  | reti (hi : i = .reti) : Effect i s s.returnFromInterrupt
  | ebreak (hi : i = .ebreak) : Effect i s (s.halt .ebreak)
  | accessFault (k : MemKind) (rs1 : Reg) (imm : Word) (f : MemFault) (hi : dataAccess i = some (k, rs1, imm))
      (hf : accessFault k (effectiveAddr s rs1 imm) = some f) : Effect i s (s.halt (.accessFault f.kind f.addr))

theorem loadInto_effect {i : Instr} {k : MemKind} {keep : Word → Word} {rd rs1 : Reg} {imm : Word} {s t : State}
    (hi : dataAccess i = some (k, rs1, imm)) (h : loadInto k keep rd rs1 imm s = .next t) : Effect i s t := by
  rcases loadInto_cases k keep rd rs1 imm s with ⟨f, hf, e⟩ | ⟨v, -, e⟩ <;> rw [e] at h <;> cases h
  · exact .accessFault k rs1 imm f hi (memRead_error hf)
  · exact .reg _ _

theorem storeFrom_effect {i : Instr} {k : MemKind} {rs2 rs1 : Reg} {imm : Word} {s t : State}
    (hi : dataAccess i = some (k, rs1, imm)) (hs : storedRegister i = some rs2)
    (h : storeFrom k rs2 rs1 imm s = .next t) : Effect i s t := by
  rcases storeFrom_cases k rs2 rs1 imm s with ⟨f, hf, e⟩ | ⟨p, hp, e⟩ | ⟨hr, ha, e⟩ <;> rw [e] at h <;> cases h
  · exact .accessFault k rs1 imm f hi (memWrite_error hf)
  · exact .event k rs2 rs1 imm p hi hs hp
  · exact .store k rs2 rs1 imm hi hs hr ha

theorem branchIf_effect {i : Instr} {cond : Bool} {off : Word} {s t : State} (hi : isTransfer i = true)
    (h : branchIf cond off s = .next t) : Effect i s t := by
  cases cond <;> cases h
  · exact .none
  · exact .branch _ hi

theorem csrUpdate_effect {i : Instr} {cond : Bool} {rd : Reg} {c : CsrNum} {v : Word} {s t : State}
    (hi : csrTarget i = some c) (h : csrUpdate cond rd c v s = .next t) : Effect i s t := by
  cases cond <;> cases h
  · exact .reg _ _
  · exact .csr _ _ _ _ hi

/-- Whatever instruction is executed, its next state has one of the shapes of `Effect`. -/
theorem exec_effect {i : Instr} {s t : State} (h : exec i s = .next t) : Effect i s t := by
  cases i <;> simp only [exec] at h
  case lui => cases h; exact .reg _ _
  case auipc => cases h; exact .reg _ _
  case jal => cases h; exact .jump _ _ _ rfl
  case jalr => cases h; exact .jump _ _ _ rfl
  case beq => exact branchIf_effect rfl h
  case bne => exact branchIf_effect rfl h
  case blt => exact branchIf_effect rfl h
  case bge => exact branchIf_effect rfl h
  case bltu => exact branchIf_effect rfl h
  case bgeu => exact branchIf_effect rfl h
  case lb => exact loadInto_effect rfl h
  case lh => exact loadInto_effect rfl h
  case lw => exact loadInto_effect rfl h
  case lbu => exact loadInto_effect rfl h
  case lhu => exact loadInto_effect rfl h
  case sb => exact storeFrom_effect rfl rfl h
  case sh => exact storeFrom_effect rfl rfl h
  case sw => exact storeFrom_effect rfl rfl h
  case ecall => cases h; exact .reg _ _
  case ebreak => cases h; exact .ebreak rfl
  case reti => cases h; exact .reti rfl
  case wfi => cases h; exact .none
  case csrrw => exact csrUpdate_effect rfl h
  case csrrs => exact csrUpdate_effect rfl h
  case csrrc => exact csrUpdate_effect rfl h
  case csrrwi => exact csrUpdate_effect rfl h
  case csrrsi => exact csrUpdate_effect rfl h
  case csrrci => exact csrUpdate_effect rfl h
  all_goals (cases h; exact .reg _ _)

/-! ### Commit -/

@[simp] theorem commit_nextPc (s : State) : s.commit.nextPc = s.nextPc := by
  unfold State.commit; split <;> [(split <;> rfl); rfl]
@[simp] theorem commit_ir (s : State) : s.commit.ir = s.ir := by
  unfold State.commit; split <;> [(split <;> rfl); rfl]
@[simp] theorem commit_regs (s : State) : s.commit.regs = s.regs := by
  unfold State.commit; split <;> [(split <;> rfl); rfl]
@[simp] theorem commit_mstatus (s : State) : s.commit.mstatus = s.mstatus := by
  unfold State.commit; split <;> [(split <;> rfl); rfl]
@[simp] theorem commit_mepc (s : State) : s.commit.mepc = s.mepc := by
  unfold State.commit; split <;> [(split <;> rfl); rfl]
@[simp] theorem commit_halted (s : State) : s.commit.halted = s.halted := by
  unfold State.commit; split <;> [(split <;> rfl); rfl]
@[simp] theorem commit_haltCause (s : State) : s.commit.haltCause = s.haltCause := by
  unfold State.commit; split <;> [(split <;> rfl); rfl]
@[simp] theorem commit_trace (s : State) : s.commit.trace = s.trace := by
  unfold State.commit; split <;> [(split <;> rfl); rfl]
@[simp] theorem commit_ram (s : State) : s.commit.ram = s.ram := by
  unfold State.commit; split <;> [(split <;> rfl); rfl]
@[simp] theorem commit_cfg (s : State) : s.commit.cfg = s.cfg := by
  unfold State.commit; split <;> [(split <;> rfl); rfl]

/-- pc after commit (R88). -/
theorem commit_pc (s : State) :
    s.commit.pc = if s.halted = true ∧ s.cfg.pcAfterHalt = .stay then s.pc else s.nextPc := by
  unfold State.commit
  cases h : s.halted <;> cases h2 : s.cfg.pcAfterHalt <;> simp

/-! ### Step -/

/-- A fetch that succeeds reads a port or a word of RAM (R55, R87). -/
theorem fetch_cases (s : State) :
    (∃ p, portAt s.pc = some p ∧ fetch s = .ok 0#32) ∨
    (portAt s.pc = none ∧ inRam s.pc = false ∧ fetch s = .error { kind := .outOfRange, addr := s.pc }) ∨
    (portAt s.pc = none ∧ inRam s.pc = true ∧ aligned .word s.pc = false ∧
      fetch s = .error { kind := .misaligned, addr := s.pc }) ∨
    (portAt s.pc = none ∧ inRam s.pc = true ∧ aligned .word s.pc = true ∧
      fetch s = .ok (s.ram.load .word s.pc.toNat)) :=
  memRead_cases s .word s.pc

/-- The step of a running engine (R89). -/
theorem step_running {s : State} (h : s.halted = false) :
    step s = match fetch s with
      | .error f => .next (s.haltOnFetch f)
      | .ok w =>
        match decode s.cfg w with
        | .unknownOpcode op => .next (s.haltOnOpcode w op)
        | .instr i => commitResult (exec i (s.fetched w)) := by
  unfold step
  rw [h]
  rfl

/-- Everything a step that answers a next state can have done (R89). -/
theorem step_cases {s t : State} (h : step s = .next t) :
    s.halted = false ∧
    ((∃ f, fetch s = .error f ∧ t = s.haltOnFetch f) ∨
     (∃ w op, fetch s = .ok w ∧ decode s.cfg w = .unknownOpcode op ∧ t = s.haltOnOpcode w op) ∨
     (∃ w i u, fetch s = .ok w ∧ decode s.cfg w = .instr i ∧ exec i (s.fetched w) = .next u ∧ t = u.commit)) := by
  unfold step at h
  cases hh : s.halted with
  | true => simp [hh] at h
  | false =>
    refine ⟨rfl, ?_⟩
    simp only [hh, Bool.false_eq_true, if_false] at h
    cases hf : fetch s with
    | error f =>
      simp only [hf] at h
      cases h
      exact .inl ⟨f, rfl, rfl⟩
    | ok w =>
      simp only [hf] at h
      cases hd : decode s.cfg w with
      | unknownOpcode op =>
        simp only [hd] at h
        cases h
        exact .inr (.inl ⟨w, op, rfl, hd, rfl⟩)
      | instr i =>
        simp only [hd] at h
        cases he : exec i (s.fetched w) with
        | next u =>
          simp only [he, commitResult] at h
          cases h
          exact .inr (.inr ⟨w, i, u, rfl, hd, he, rfl⟩)
        | fault f => simp [he, commitResult] at h
        | refused r => simp [he, commitResult] at h

end Sys2Proof.Machine
end

