-- ==== Sys2Proof/Laws/Decode.lean ====
section
/-! SUPPORT. Fields and immediates: what the encoder places, the decoder reads back. -/

namespace Sys2Proof

/-! ### Immediate layouts -/

/-- A position that the layout does not use holds 0 in the placed word. -/
theorem placeBits_getLsbD_of_notMem {zeros : Nat} {imm : Word} {bits : List (Fin 32)} {q : Fin 32} (h : q ∉ bits) :
    (placeBits zeros imm bits).getLsbD q.val = false := by
  induction bits with
  | nil => simp [placeBits]
  | cons p ps ih =>
    have hp : p ≠ q := fun e => h (by simp [e])
    have hne : ¬(q.val = p.val) := fun e => hp (Fin.ext e.symm)
    have hps := ih (fun hm => h (List.mem_cons_of_mem _ hm))
    rw [placeBits, BitVec.getLsbD_or, hps, Bool.or_false]
    split
    · simp only [BitVec.getLsbD_shiftLeft, BitVec.getLsbD_one]
      by_cases hlt : q.val < p.val
      · simp [hlt]
      · have : q.val - p.val ≠ 0 := by omega
        simp [this]
    · simp

/-- The bits of the placed word, read in the layout's order, are the immediate's bits. -/
theorem map_placeBits {zeros : Nat} {imm : Word} {bits : List (Fin 32)} (h : bits.Nodup) :
    bits.map (fun (p : Fin 32) => (placeBits zeros imm bits).getLsbD p.val) =
      (List.range bits.length).map (fun k => imm.getLsbD (bits.length - 1 - k + zeros)) := by
  induction bits with
  | nil => rfl
  | cons p ps ih =>
    obtain ⟨hp, hps⟩ := List.nodup_cons.mp h
    have hhead : (placeBits zeros imm (p :: ps)).getLsbD p.val = imm.getLsbD (ps.length + zeros) := by
      rw [placeBits, BitVec.getLsbD_or, placeBits_getLsbD_of_notMem hp, Bool.or_false]
      split <;> rename_i hb
      · simp [hb]
      · simpa using (Bool.not_eq_true _ ▸ hb : imm.getLsbD (ps.length + zeros) = false).symm
    have htail : ps.map (fun (q : Fin 32) => (placeBits zeros imm (p :: ps)).getLsbD q.val) =
        ps.map (fun (q : Fin 32) => (placeBits zeros imm ps).getLsbD q.val) := by
      apply List.map_congr_left
      intro q hq
      have hne : ¬(q.val = p.val) := fun e => hp (Fin.ext e ▸ hq)
      rw [placeBits, BitVec.getLsbD_or]
      split
      · have : ((1#32 : Word) <<< p.val).getLsbD q.val = false := by
          simp only [BitVec.getLsbD_shiftLeft, BitVec.getLsbD_one]
          by_cases hlt : q.val < p.val
          · simp [hlt]
          · have : q.val - p.val ≠ 0 := by omega
            simp [this]
        rw [this, Bool.false_or]
      · simp
    rw [List.map_cons, hhead, htail, ih hps, List.length_cons, List.range_succ_eq_map, List.map_cons, List.map_map]
    congr 1
    apply List.map_congr_left
    intro k hk
    have := List.mem_range.mp hk
    simp only [Function.comp]
    congr 1
    omega

/-- A value in the signed range of its low `n` bits is their sign extension. -/
theorem signExtend_setWidth_of_range {n : Nat} (hn : n ≤ 32) {imm : Word} (h1 : -(2 ^ n : Int) ≤ 2 * imm.toInt)
    (h2 : 2 * imm.toInt < (2 ^ n : Int)) : (imm.setWidth n).signExtend 32 = imm := by
  apply BitVec.eq_of_toInt_eq
  have hdvd : 2 ^ n ∣ 2 ^ 32 := pow_dvd_pow 2 hn
  have hcast : ((2 ^ n : Nat) : Int) = 2 ^ n := by push_cast; rfl
  rw [BitVec.toInt_signExtend_of_le hn, BitVec.toInt_setWidth, ← Int.bmod_bmod_of_dvd hdvd,
    ← BitVec.toInt_eq_toNat_bmod]
  exact Int.bmod_eq_of_le_mul_two (by rw [hcast]; linarith) (by rw [hcast]; linarith)

/-- Sign extension depends on the bits alone. -/
theorem signExtend_congr {m n : Nat} {x : BitVec m} {y : BitVec n} (h : m = n) (hb : ∀ i, x.getLsbD i = y.getLsbD i) :
    x.signExtend 32 = y.signExtend 32 := by
  subst h
  rw [BitVec.eq_of_getLsbD_eq (fun i _ => hb i)]

/-- A word that agrees with the placed immediate on the layout's positions holds that immediate, if the layout can
hold it: the round trip of every layout (R76 to R79, R82). -/
theorem value_of_place {l : ImmLayout} {imm w : Word} (hnodup : l.bits.Nodup) (hwidth : l.width ≤ 32)
    (hfits : l.fits imm = true) (hw : ∀ p ∈ l.bits, w.getLsbD p.val = (l.place imm).getLsbD p.val) :
    l.value w = imm := by
  simp only [ImmLayout.fits, Bool.and_eq_true, decide_eq_true_eq] at hfits
  obtain ⟨⟨h1, h2⟩, h3⟩ := hfits
  rw [← signExtend_setWidth_of_range hwidth h1 h2]
  have hmap : l.bits.map (fun (p : Fin 32) => w.getLsbD p.val) =
      (List.range l.bits.length).map (fun k => imm.getLsbD (l.bits.length - 1 - k + l.zeros)) := by
    rw [← map_placeBits hnodup]
    exact List.map_congr_left hw
  have hlow : ∀ j < l.zeros, imm.getLsbD j = false := by
    intro j hj
    obtain ⟨q, hq⟩ := Nat.dvd_of_mod_eq_zero h3
    rw [BitVec.getLsbD, hq, Nat.testBit_two_pow_mul]
    simp [Nat.not_le.mpr hj]
  refine signExtend_congr (by simp [ImmLayout.width]) (fun i => ?_)
  rw [hmap, BitVec.getLsbD_ofBoolListBE, BitVec.getLsbD_setWidth]
  simp only [List.length_append, List.length_map, List.length_range, List.length_replicate, ImmLayout.width]
  by_cases hi : i < l.bits.length + l.zeros
  · simp only [hi, decide_true, Bool.true_and]
    by_cases hz : i < l.zeros
    · rw [List.getD_append_right _ _ _ _ (by simp; omega), hlow i hz]
      simp only [List.getD_eq_getElem?_getD, List.getElem?_replicate]
      split <;> rfl
    · rw [List.getD_append _ _ _ _ (by simp; omega), List.getD_eq_getElem?_getD, List.getElem?_map,
        List.getElem?_range (by omega)]
      simp only [Option.map_some, Option.getD_some]
      congr 1
      omega
  · simp [hi]

/-! ### Spans -/

/-- Outside its span a placed register number is 0. -/
theorem putReg_getLsbD_of_not_holds {f : RegField} {p : Nat} (h : f.holds p = false) (r : Reg) :
    (putReg f r).getLsbD p = false := by
  simp only [RegField.holds, Bool.and_eq_false_iff, decide_eq_false_iff_not] at h
  simp only [putReg, BitVec.getLsbD_shiftLeft, BitVec.getLsbD_setWidth]
  rcases h with h | h
  · have : p < f.lo := by omega
    simp [this]
  · by_cases hp : p < f.lo
    · simp [hp]
    · have : r.getLsbD (p - f.lo) = false := BitVec.getLsbD_of_ge r _ (by omega)
      simp [this]

theorem regField_lo_bounds (f : RegField) : 7 ≤ f.lo ∧ f.lo ≤ 17 := by cases f <;> simp [RegField.lo]

/-- The span of a placed register number reads back the number. -/
@[simp] theorem extract_putReg_same (f : RegField) (r : Reg) : (putReg f r).extractLsb' f.lo 5 = r := by
  apply BitVec.eq_of_getLsbD_eq
  intro j hj
  have hf := regField_lo_bounds f
  simp only [BitVec.getLsbD_extractLsb', putReg, BitVec.getLsbD_shiftLeft, BitVec.getLsbD_setWidth]
  simp [hj, show f.lo + j < 32 by omega, show j < 32 by omega]

/-- A stretch of bits that a word does not use reads back 0. -/
theorem extract_eq_zero {w : Word} {lo n : Nat} (h : ∀ j < n, w.getLsbD (lo + j) = false) :
    w.extractLsb' lo n = 0#n := by
  apply BitVec.eq_of_getLsbD_eq
  intro j hj
  simp [hj, h j hj]

/-- Spans that do not meet do not disturb each other. -/
theorem extract_putReg_zero {f : RegField} {lo n : Nat} (h : ∀ j < n, f.holds (lo + j) = false) (r : Reg) :
    (putReg f r).extractLsb' lo n = 0#n :=
  extract_eq_zero (fun j hj => putReg_getLsbD_of_not_holds (h j hj) r)

/-- No span reaches into the opcode field. -/
@[simp] theorem extract_opcode_putReg (f : RegField) (r : Reg) : (putReg f r).extractLsb' 0 7 = 0#7 := by
  refine extract_putReg_zero (fun j hj => ?_) r
  have := (regField_lo_bounds f).1
  simp only [RegField.holds, Bool.and_eq_false_iff, decide_eq_false_iff_not]
  omega

/-- A field placed higher leaves a stretch of bits 0. -/
theorem extract_shiftLeft_zero {m lo n k : Nat} (x : BitVec m) (h : lo + n ≤ k) :
    ((x.setWidth 32) <<< k).extractLsb' lo n = 0#n := by
  refine extract_eq_zero (fun j hj => ?_)
  simp only [BitVec.getLsbD_shiftLeft]
  simp [show lo + j < k by omega]

/-- A stretch of bits of a disjunction. -/
theorem extract_or (a b : Word) (lo n : Nat) :
    (a ||| b).extractLsb' lo n = a.extractLsb' lo n ||| b.extractLsb' lo n := by
  apply BitVec.eq_of_getLsbD_eq
  intro i hi
  simp [hi]

/-- A layout that stays out of a stretch of bits leaves it 0. -/
theorem extract_place_zero {l : ImmLayout} {lo n : Nat} (h : ∀ p ∈ l.bits, ¬(lo ≤ p.val ∧ p.val < lo + n))
    (hn : lo + n ≤ 32) (imm : Word) : (l.place imm).extractLsb' lo n = 0#n := by
  refine extract_eq_zero (fun j hj => ?_)
  refine placeBits_getLsbD_of_notMem (q := ⟨lo + j, by omega⟩) (fun hm => h _ hm ?_)
  exact ⟨by simp, by simpa using hj⟩

/-- The opcode field of a placed opcode. -/
@[simp] theorem extract_opcode (op : Opcode) : (op.setWidth 32).extractLsb' 0 7 = op := by
  apply BitVec.eq_of_getLsbD_eq
  intro j hj
  simp [hj, show j < 32 by omega]

/-- A placed opcode leaves every later bit 0. -/
theorem extract_opcode_zero {lo n : Nat} (h : 7 ≤ lo) (op : Opcode) :
    (op.setWidth 32).extractLsb' lo n = 0#n := by
  refine extract_eq_zero (fun j _ => ?_)
  rw [BitVec.getLsbD_setWidth, BitVec.getLsbD_of_ge op _ (by omega)]
  simp

/-! ### OPCODE_MAP -/

/-- Under an OPCODE_MAP that is injective and total, selecting the opcode of an instruction gives the instruction
(R73). -/
theorem select_opcodeFor {cfg : Config} (hnodup : (cfg.opcodeMap.map Prod.fst).Nodup) {m : Mnemonic}
    (hm : m ∈ cfg.opcodeMap.map Prod.snd) : cfg.select (cfg.opcodeFor m) = some m := by
  unfold Config.select Config.opcodeFor
  cases hf : cfg.opcodeMap.find? (fun e => e.2 == m) with
  | none =>
    obtain ⟨e, he, rfl⟩ := List.mem_map.mp hm
    exact absurd (List.find?_eq_none.mp hf e he) (by simp)
  | some e =>
    obtain ⟨op, m'⟩ := e
    have hmem := List.mem_of_find?_eq_some hf
    have heq : m' = m := by simpa using List.find?_some hf
    subst heq
    clear hf hm
    revert hnodup hmem
    generalize cfg.opcodeMap = map
    intro hnodup hmem
    induction map with
    | nil => simp at hmem
    | cons x xs ih =>
      obtain ⟨o, n⟩ := x
      simp only [List.map_cons, List.nodup_cons] at hnodup
      rcases List.mem_cons.mp hmem with h | h
      · cases h; simp [List.lookup]
      · have hne : op ≠ o := fun e => hnodup.1 (e ▸ List.mem_map.mpr ⟨_, h, rfl⟩)
        have hb : (op == o) = false := by simpa using hne
        simpa [List.lookup, hb] using ih hnodup.2 h

/-! ### Lawful parameters -/

/-- What `ImmLayout.lawful` says. -/
theorem layout_lawful {l : ImmLayout} {taken : Nat → Bool} (h : l.lawful taken = true) :
    l.bits.Nodup ∧ (∀ p ∈ l.bits, taken p.val = false) ∧ l.width ≤ 32 := by
  simp only [ImmLayout.lawful, Bool.and_eq_true, decide_eq_true_eq, List.all_eq_true] at h
  exact ⟨h.1.1, fun p hp => by simpa using h.1.2 p hp, h.2⟩

/-- What `Config.lawful` says. -/
theorem config_lawful {cfg : Config} (h : cfg.lawful = true) :
    (cfg.opcodeMap.map Prod.fst).Nodup ∧ (∀ m : Mnemonic, m ∈ cfg.opcodeMap.map Prod.snd) ∧
    0#7 ∉ cfg.opcodeMap.map Prod.fst ∧
    cfg.immI.lawful (fun p => decide (p < 17)) = true ∧ cfg.immS.lawful (fun p => decide (p < 17)) = true ∧
    cfg.immJ.lawful (fun p => decide (p < 12)) = true ∧
    cfg.immB.lawful (fun p => decide (p < 7) || cfg.branchFirst.holds p || cfg.branchSecond.holds p) = true ∧
    cfg.branchFirst ≠ cfg.branchSecond := by
  simp only [Config.lawful, Bool.and_eq_true, decide_eq_true_eq, List.all_eq_true] at h
  obtain ⟨⟨⟨⟨⟨⟨⟨⟨h1, h2⟩, h3⟩, h4⟩, h5⟩, h6⟩, h7⟩, h8⟩, h9⟩ := h
  refine ⟨h1, fun m => ?_, by simpa using h4, h5, h6, h7, h8, h9⟩
  have := h3 m (by cases m <;> decide)
  simpa using this

/-- A lawful layout stays out of the opcode field. -/
theorem extract_opcode_place {l : ImmLayout} {taken : Nat → Bool} (h : l.lawful taken = true)
    (ht : ∀ p < 7, taken p = true) (imm : Word) : (l.place imm).extractLsb' 0 7 = 0#7 := by
  refine extract_place_zero (fun p hp hc => ?_) (by omega) imm
  have := (layout_lawful h).2.1 p hp
  rw [ht _ (by omega)] at this
  cases this

/-- The instruction that a selected opcode decodes to. -/
theorem decode_of_select {cfg : Config} {w : Word} {m : Mnemonic} (h : cfg.select (fieldOpcode w) = some m) :
    decode cfg w = .instr (m.build cfg w) := by
  simp [decode, h]

/-- Everything decode can answer (R86). -/
theorem decode_cases (cfg : Config) (w : Word) :
    (∃ m, cfg.select (fieldOpcode w) = some m ∧ decode cfg w = .instr (m.build cfg w)) ∨
    (cfg.select (fieldOpcode w) = none ∧ decode cfg w = .unknownOpcode (fieldOpcode w)) := by
  unfold decode
  cases cfg.select (fieldOpcode w) with
  | none => exact .inr ⟨rfl, rfl⟩
  | some m => exact .inl ⟨m, rfl, rfl⟩

/-- A built instruction has the name it was built for. -/
@[simp] theorem build_mnemonic (cfg : Config) (w : Word) (m : Mnemonic) : (m.build cfg w).mnemonic = m := by
  cases m <;> rfl

end Sys2Proof
end

