-- ==== Sys2Proof/Laws/Operands.lean ====
section
/-! SUPPORT. Operand forms, shifts and products as exact arithmetic. -/

namespace Sys2Proof.Machine

/-- The U immediate is the field times 2^12 (R75). -/
theorem immU_toNat (imm : BitVec 20) : (immU imm).toNat = imm.toNat * 4096 := by
  have h : (immU imm).toNat = imm.toNat <<< 12 ||| (0#12).toNat := BitVec.toNat_append imm 0#12
  rw [h, Nat.shiftLeft_eq]
  simp

/-- The U immediate of a word is the word with its low twelve bits cleared (R75). -/
theorem immU_extract (w : Word) : immU (w.extractLsb' 12 20) = w &&& 0xFFFFF000#32 := by
  apply BitVec.eq_of_toNat_eq
  have hmask : (0xFFFFF000#32).toNat = (2 ^ 20 - 1) * 2 ^ 12 := by decide
  have hw := w.isLt
  rw [immU_toNat, BitVec.extractLsb'_toNat, BitVec.toNat_and, hmask, Nat.shiftRight_eq_div_pow]
  apply Nat.eq_of_testBit_eq
  intro j
  rw [Nat.testBit_and, show (4096 : Nat) = 2 ^ 12 from rfl, Nat.testBit_mul_two_pow, Nat.testBit_mul_two_pow,
    Nat.testBit_mod_two_pow, Nat.testBit_div_two_pow, Nat.testBit_two_pow_sub_one]
  by_cases hj : 12 ≤ j
  · simp [hj, Bool.and_comm, show j - 12 + 12 = j by omega]
  · simp [hj]

/-- The amount of a register shift is the register modulo 32 (R172). -/
theorem registerShift_eq (v : Word) : registerShift v = v.toNat % 32 := by
  simpa [registerShift] using Nat.and_two_pow_sub_one_eq_mod v.toNat 5

/-- A left shift is a product modulo 2^32. -/
theorem shiftLeft_eq (a : Word) (n : Nat) : shiftLeft a n = BitVec.ofNat 32 (a.toNat * 2 ^ n) := by
  apply BitVec.eq_of_toNat_eq
  simp [shiftLeft, Nat.shiftLeft_eq]

/-- A logical right shift is a quotient. -/
theorem shiftRightLogical_eq (a : Word) (n : Nat) :
    shiftRightLogical a n = BitVec.ofNat 32 (a.toNat / 2 ^ n) := by
  apply BitVec.eq_of_toNat_eq
  rw [shiftRightLogical, BitVec.toNat_ushiftRight, Nat.shiftRight_eq_div_pow, BitVec.toNat_ofNat, Nat.mod_eq_of_lt]
  exact lt_of_le_of_lt (Nat.div_le_self _ _) a.isLt

/-- An arithmetic right shift is a quotient rounded down. -/
theorem shiftRightArith_eq (a : Word) (n : Nat) : shiftRightArith a n = BitVec.ofInt 32 (a.toInt / 2 ^ n) := by
  apply BitVec.eq_of_toInt_eq
  rw [BitVec.toInt_ofInt, shiftRightArith, BitVec.toInt_sshiftRight, Int.shiftRight_eq_div_pow]
  have h1 : -(2 ^ 31 : Int) ≤ a.toInt := BitVec.le_toInt a
  have h2 : a.toInt < (2 ^ 31 : Int) := BitVec.toInt_lt
  have hp : (0 : Int) < 2 ^ n := by positivity
  have hone : (1 : Int) ≤ 2 ^ n := by exact_mod_cast Nat.one_le_two_pow
  have hlow : -(2 ^ 31 : Int) ≤ a.toInt / 2 ^ n := by
    rw [Int.le_ediv_iff_mul_le hp]
    nlinarith
  have hhigh : a.toInt / 2 ^ n < (2 ^ 31 : Int) := by
    rw [Int.ediv_lt_iff_lt_mul hp]
    nlinarith
  push_cast
  symm
  apply Int.bmod_eq_of_le_mul_two <;> norm_num at * <;> linarith

/-- The low half of an exact product. -/
theorem productLow_eq (p : Int) : productLow p = BitVec.ofInt 32 p := by
  apply BitVec.eq_of_toNat_eq
  rw [productLow, BitVec.extractLsb'_toNat, BitVec.toNat_ofInt, BitVec.toNat_ofInt, Nat.shiftRight_zero]
  omega

/-- The high half of an exact product. -/
theorem productHigh_eq (p : Int) : productHigh p = BitVec.ofInt 32 (p / 2 ^ 32) := by
  apply BitVec.eq_of_toNat_eq
  rw [productHigh, BitVec.extractLsb'_toNat, BitVec.toNat_ofInt, BitVec.toNat_ofInt, Nat.shiftRight_eq_div_pow]
  omega

end Sys2Proof.Machine
end

