-- ==== Sys2Proof/Laws/PerInstr.lean ====
section
/-! SUPPORT. Statements about every instruction as syntax, one lemma per constructor. -/

namespace Sys2Proof.Laws.EncodedOpcode

/-- Under lawful parameters the opcode field of the encoded instruction selects the instruction's own name: no operand
bit reaches into the field (R71, R73). -/
def Statement (i : Instr) : Prop :=
  ∀ cfg : Config, cfg.lawful = true → cfg.select (fieldOpcode (encode cfg i)) = some i.mnemonic

/-- It is enough that the operand bits leave the opcode field 0. -/
theorem of_operandBits {i : Instr}
    (h : ∀ cfg : Config, cfg.lawful = true → (i.operandBits cfg).extractLsb' 0 7 = 0#7) : Statement i := by
  intro cfg hl
  obtain ⟨hnodup, hall, -⟩ := config_lawful hl
  have : fieldOpcode (encode cfg i) = cfg.opcodeFor i.mnemonic := by
    unfold fieldOpcode encode
    rw [extract_or, extract_opcode, h cfg hl]
    simp
  rw [this]
  exact select_opcodeFor hnodup (hall _)

theorem encU_opcode (rd : Reg) (imm : BitVec 20) : (encU rd imm).extractLsb' 0 7 = 0#7 := by
  rw [encU, extract_or, extract_opcode_putReg, extract_shiftLeft_zero _ (by omega)]
  rfl

theorem encR_opcode (rd rs1 rs2 : Reg) : (encR rd rs1 rs2).extractLsb' 0 7 = 0#7 := by
  simp [encR, extract_or]

theorem encSH_opcode (rd : Reg) (imm5 : BitVec 5) : (encSH rd imm5).extractLsb' 0 7 = 0#7 := by
  simp [encSH, extract_or]

theorem encCsr_opcode (rd rs1 : Reg) (csr : CsrNum) : (encCsr rd rs1 csr).extractLsb' 0 7 = 0#7 := by
  rw [encCsr, extract_or, extract_or, extract_shiftLeft_zero _ (by omega)]
  simp

theorem encI_opcode {cfg : Config} (h : cfg.lawful = true) (rd rs1 : Reg) (imm : Word) :
    (encI cfg rd rs1 imm).extractLsb' 0 7 = 0#7 := by
  obtain ⟨-, -, -, hi, -⟩ := config_lawful h
  rw [encI, extract_or, extract_or, extract_opcode_place hi (by simp; omega)]
  simp

theorem encS_opcode {cfg : Config} (h : cfg.lawful = true) (rs2 rs1 : Reg) (imm : Word) :
    (encS cfg rs2 rs1 imm).extractLsb' 0 7 = 0#7 := by
  obtain ⟨-, -, -, -, hs, -⟩ := config_lawful h
  rw [encS, extract_or, extract_or, extract_opcode_place hs (by simp; omega)]
  simp

theorem encB_opcode {cfg : Config} (h : cfg.lawful = true) (rs1 rs2 : Reg) (off : Word) :
    (encB cfg rs1 rs2 off).extractLsb' 0 7 = 0#7 := by
  obtain ⟨-, -, -, -, -, -, hb, -⟩ := config_lawful h
  rw [encB, extract_or, extract_or, extract_opcode_place hb (by simp +contextual)]
  simp

theorem encJ_opcode {cfg : Config} (h : cfg.lawful = true) (rd : Reg) (off : Word) :
    (putReg .rd rd ||| cfg.immJ.place off).extractLsb' 0 7 = 0#7 := by
  obtain ⟨-, -, -, -, -, hj, -⟩ := config_lawful h
  rw [extract_or, extract_opcode_place hj (by simp; omega)]
  simp

theorem lui (rd : Reg) (imm : BitVec 20) : Statement (.lui rd imm) :=
  of_operandBits fun _ _ => encU_opcode rd imm
theorem auipc (rd : Reg) (imm : BitVec 20) : Statement (.auipc rd imm) :=
  of_operandBits fun _ _ => encU_opcode rd imm
theorem jal (rd : Reg) (off : Word) : Statement (.jal rd off) :=
  of_operandBits fun _ h => encJ_opcode h rd off
theorem jalr (rd rs1 : Reg) (imm : Word) : Statement (.jalr rd rs1 imm) :=
  of_operandBits fun _ h => encI_opcode h rd rs1 imm
theorem beq (rs1 rs2 : Reg) (off : Word) : Statement (.beq rs1 rs2 off) :=
  of_operandBits fun _ h => encB_opcode h rs1 rs2 off
theorem bne (rs1 rs2 : Reg) (off : Word) : Statement (.bne rs1 rs2 off) :=
  of_operandBits fun _ h => encB_opcode h rs1 rs2 off
theorem blt (rs1 rs2 : Reg) (off : Word) : Statement (.blt rs1 rs2 off) :=
  of_operandBits fun _ h => encB_opcode h rs1 rs2 off
theorem bge (rs1 rs2 : Reg) (off : Word) : Statement (.bge rs1 rs2 off) :=
  of_operandBits fun _ h => encB_opcode h rs1 rs2 off
theorem bltu (rs1 rs2 : Reg) (off : Word) : Statement (.bltu rs1 rs2 off) :=
  of_operandBits fun _ h => encB_opcode h rs1 rs2 off
theorem bgeu (rs1 rs2 : Reg) (off : Word) : Statement (.bgeu rs1 rs2 off) :=
  of_operandBits fun _ h => encB_opcode h rs1 rs2 off
theorem lb (rd rs1 : Reg) (imm : Word) : Statement (.lb rd rs1 imm) :=
  of_operandBits fun _ h => encI_opcode h rd rs1 imm
theorem lh (rd rs1 : Reg) (imm : Word) : Statement (.lh rd rs1 imm) :=
  of_operandBits fun _ h => encI_opcode h rd rs1 imm
theorem lw (rd rs1 : Reg) (imm : Word) : Statement (.lw rd rs1 imm) :=
  of_operandBits fun _ h => encI_opcode h rd rs1 imm
theorem lbu (rd rs1 : Reg) (imm : Word) : Statement (.lbu rd rs1 imm) :=
  of_operandBits fun _ h => encI_opcode h rd rs1 imm
theorem lhu (rd rs1 : Reg) (imm : Word) : Statement (.lhu rd rs1 imm) :=
  of_operandBits fun _ h => encI_opcode h rd rs1 imm
theorem sb (rs2 rs1 : Reg) (imm : Word) : Statement (.sb rs2 rs1 imm) :=
  of_operandBits fun _ h => encS_opcode h rs2 rs1 imm
theorem sh (rs2 rs1 : Reg) (imm : Word) : Statement (.sh rs2 rs1 imm) :=
  of_operandBits fun _ h => encS_opcode h rs2 rs1 imm
theorem sw (rs2 rs1 : Reg) (imm : Word) : Statement (.sw rs2 rs1 imm) :=
  of_operandBits fun _ h => encS_opcode h rs2 rs1 imm
theorem addi (rd rs1 : Reg) (imm : Word) : Statement (.addi rd rs1 imm) :=
  of_operandBits fun _ h => encI_opcode h rd rs1 imm
theorem slti (rd rs1 : Reg) (imm : Word) : Statement (.slti rd rs1 imm) :=
  of_operandBits fun _ h => encI_opcode h rd rs1 imm
theorem sltiu (rd rs1 : Reg) (imm : Word) : Statement (.sltiu rd rs1 imm) :=
  of_operandBits fun _ h => encI_opcode h rd rs1 imm
theorem xori (rd rs1 : Reg) (imm : Word) : Statement (.xori rd rs1 imm) :=
  of_operandBits fun _ h => encI_opcode h rd rs1 imm
theorem ori (rd rs1 : Reg) (imm : Word) : Statement (.ori rd rs1 imm) :=
  of_operandBits fun _ h => encI_opcode h rd rs1 imm
theorem andi (rd rs1 : Reg) (imm : Word) : Statement (.andi rd rs1 imm) :=
  of_operandBits fun _ h => encI_opcode h rd rs1 imm
theorem slli (rd : Reg) (imm5 : BitVec 5) : Statement (.slli rd imm5) :=
  of_operandBits fun _ _ => encSH_opcode rd imm5
theorem srli (rd : Reg) (imm5 : BitVec 5) : Statement (.srli rd imm5) :=
  of_operandBits fun _ _ => encSH_opcode rd imm5
theorem srai (rd : Reg) (imm5 : BitVec 5) : Statement (.srai rd imm5) :=
  of_operandBits fun _ _ => encSH_opcode rd imm5
theorem add (rd rs1 rs2 : Reg) : Statement (.add rd rs1 rs2) :=
  of_operandBits fun _ _ => encR_opcode rd rs1 rs2
theorem sub (rd rs1 rs2 : Reg) : Statement (.sub rd rs1 rs2) :=
  of_operandBits fun _ _ => encR_opcode rd rs1 rs2
theorem sll (rd rs1 rs2 : Reg) : Statement (.sll rd rs1 rs2) :=
  of_operandBits fun _ _ => encR_opcode rd rs1 rs2
theorem srl (rd rs1 rs2 : Reg) : Statement (.srl rd rs1 rs2) :=
  of_operandBits fun _ _ => encR_opcode rd rs1 rs2
theorem sra (rd rs1 rs2 : Reg) : Statement (.sra rd rs1 rs2) :=
  of_operandBits fun _ _ => encR_opcode rd rs1 rs2
theorem slt (rd rs1 rs2 : Reg) : Statement (.slt rd rs1 rs2) :=
  of_operandBits fun _ _ => encR_opcode rd rs1 rs2
theorem sltu (rd rs1 rs2 : Reg) : Statement (.sltu rd rs1 rs2) :=
  of_operandBits fun _ _ => encR_opcode rd rs1 rs2
theorem xor (rd rs1 rs2 : Reg) : Statement (.xor rd rs1 rs2) :=
  of_operandBits fun _ _ => encR_opcode rd rs1 rs2
theorem or (rd rs1 rs2 : Reg) : Statement (.or rd rs1 rs2) :=
  of_operandBits fun _ _ => encR_opcode rd rs1 rs2
theorem and (rd rs1 rs2 : Reg) : Statement (.and rd rs1 rs2) :=
  of_operandBits fun _ _ => encR_opcode rd rs1 rs2
theorem ecall : Statement .ecall :=
  of_operandBits fun _ _ => rfl
theorem ebreak : Statement .ebreak :=
  of_operandBits fun _ _ => rfl
theorem reti : Statement .reti :=
  of_operandBits fun _ _ => rfl
theorem wfi : Statement .wfi :=
  of_operandBits fun _ _ => rfl
theorem csrrw (rd rs1 : Reg) (csr : CsrNum) : Statement (.csrrw rd rs1 csr) :=
  of_operandBits fun _ _ => encCsr_opcode rd rs1 csr
theorem csrrs (rd rs1 : Reg) (csr : CsrNum) : Statement (.csrrs rd rs1 csr) :=
  of_operandBits fun _ _ => encCsr_opcode rd rs1 csr
theorem csrrc (rd rs1 : Reg) (csr : CsrNum) : Statement (.csrrc rd rs1 csr) :=
  of_operandBits fun _ _ => encCsr_opcode rd rs1 csr
theorem csrrwi (rd : Reg) (imm5 : BitVec 5) (csr : CsrNum) : Statement (.csrrwi rd imm5 csr) :=
  of_operandBits fun _ _ => encCsr_opcode rd imm5 csr
theorem csrrsi (rd : Reg) (imm5 : BitVec 5) (csr : CsrNum) : Statement (.csrrsi rd imm5 csr) :=
  of_operandBits fun _ _ => encCsr_opcode rd imm5 csr
theorem csrrci (rd : Reg) (imm5 : BitVec 5) (csr : CsrNum) : Statement (.csrrci rd imm5 csr) :=
  of_operandBits fun _ _ => encCsr_opcode rd imm5 csr
theorem mul (rd rs1 rs2 : Reg) : Statement (.mul rd rs1 rs2) :=
  of_operandBits fun _ _ => encR_opcode rd rs1 rs2
theorem mulh (rd rs1 rs2 : Reg) : Statement (.mulh rd rs1 rs2) :=
  of_operandBits fun _ _ => encR_opcode rd rs1 rs2
theorem mulhsu (rd rs1 rs2 : Reg) : Statement (.mulhsu rd rs1 rs2) :=
  of_operandBits fun _ _ => encR_opcode rd rs1 rs2
theorem mulhu (rd rs1 rs2 : Reg) : Statement (.mulhu rd rs1 rs2) :=
  of_operandBits fun _ _ => encR_opcode rd rs1 rs2
theorem div (rd rs1 rs2 : Reg) : Statement (.div rd rs1 rs2) :=
  of_operandBits fun _ _ => encR_opcode rd rs1 rs2
theorem divu (rd rs1 rs2 : Reg) : Statement (.divu rd rs1 rs2) :=
  of_operandBits fun _ _ => encR_opcode rd rs1 rs2
theorem rem (rd rs1 rs2 : Reg) : Statement (.rem rd rs1 rs2) :=
  of_operandBits fun _ _ => encR_opcode rd rs1 rs2
theorem remu (rd rs1 rs2 : Reg) : Statement (.remu rd rs1 rs2) :=
  of_operandBits fun _ _ => encR_opcode rd rs1 rs2

end Sys2Proof.Laws.EncodedOpcode
end

