-- ==== Sys2Proof/Laws/Platform.lean ====
section
/-! SUPPORT. What the host's operations between runs do, and that a placed word is the one fetched. -/

namespace Sys2Proof.Machine

/-- An image that fits is written from RAM_BASE on (R61). -/
theorem loadImage_of_le {m : Memory} {image : List Byte} (h : image.length ≤ 0x2000000) :
    m.loadImage image = some (m.setBytes ramBase image) := if_pos h

/-- An image that does not fit is refused (R61). -/
theorem loadImage_of_lt {m : Memory} {image : List Byte} (h : 0x2000000 < image.length) :
    m.loadImage image = none := if_neg (Nat.not_le.mpr h)

/-- The registers at construction and after the host's reset (R35). -/
theorem initial_x (cfg : Config) (ram : Memory) (r : Reg) :
    (State.initial cfg ram).x r = if r = 0#5 then 0#32 else cfg.initRegs[r.toNat] := by
  unfold State.x
  split
  · rfl
  · rename_i h
    have hne : 0 ≠ r.toNat := fun e => h (BitVec.eq_of_toNat_eq (by simpa using e.symm))
    rw [initial_regs, Vector.getElem_set_ne _ _ hne]

/-! ### Inspection -/

@[simp] theorem observe_mstatus (s : State) : (observe s).mstatus = s.mstatus := rfl
@[simp] theorem observe_mepc (s : State) : (observe s).mepc = s.mepc := rfl
@[simp] theorem observe_pc (s : State) : (observe s).pc = s.pc := rfl
@[simp] theorem observe_ir (s : State) : (observe s).ir = s.ir := rfl
@[simp] theorem observe_halted (s : State) : (observe s).halted = s.halted := rfl
@[simp] theorem observe_haltCause (s : State) : (observe s).haltCause = s.haltCause := rfl
@[simp] theorem observe_ram (s : State) : (observe s).ram = s.ram := rfl
@[simp] theorem observe_trace (s : State) : (observe s).trace = s.trace := rfl

/-- The inspected registers are those that the register operation reads (R21, R273). -/
theorem observe_regs (s : State) (r : Reg) : (observe s).regs[r.toNat]? = some (s.x r) := by
  have h : r.toNat < 32 := r.isLt
  simp [observe, State.allRegs, h]

/-! ### Runs under a budget, and the placed word -/

/-- A halted state ends every budgeted run at once (R272). -/
theorem run_of_halted {s : State} (h : s.halted = true) (n : Nat) : runUntilHalted n s = .ended s := by
  cases n <;> simp [runUntilHalted, h]

/-- A budgeted run takes one step at a time (R272). -/
theorem run_succ {s t : State} (h : step s = .next t) (n : Nat) :
    runUntilHalted (n + 1) s = runUntilHalted n t := by
  simp [runUntilHalted, (step_cases h).1, h]

/-- The slot of the next fetch is a word of RAM. -/
theorem fetchSlot_spec (s : State) : inRam (fetchSlot s) = true ∧ aligned .word (fetchSlot s) = true := by
  unfold fetchSlot
  split
  · rename_i h
    exact Bool.and_eq_true_iff.mp h
  · exact ⟨rfl, rfl⟩

/-- A stored word is the word loaded (R45). -/
theorem load_store_word {m : Memory} (h : m.wf = true) (a : Nat) (v : Word) :
    (m.store .word a v).load .word a = v := by
  have hsub : ∀ k, a + k - a = k := fun k => by omega
  have hb : ∀ k < 4, (m.store .word a v).byte (a + k) = byteOf v k := by
    intro k hk
    rw [byte_store h, if_pos ⟨by omega, by simp [MemKind.bytes, hk]⟩, hsub]
  have h0 := hb 0 (by omega)
  rw [Nat.add_zero] at h0
  rw [load_word, h0, hb 1 (by omega), hb 2 (by omega), hb 3 (by omega), wordOfBytes_byteOf]

/-- The word that `withFetchWord` places is the word that the next step fetches. -/
theorem fetch_withFetchWord {s : State} (h : s.ram.wf = true) (nbits w : Nat) :
    fetch (s.withFetchWord nbits w) = .ok (tableWord nbits w) := by
  obtain ⟨hr, ha⟩ := fetchSlot_spec s
  rcases fetch_cases (s.withFetchWord nbits w) with ⟨p, hp, -⟩ | ⟨-, hr', -⟩ | ⟨-, -, ha', -⟩ | ⟨-, -, -, he⟩
  · exact absurd (portAt_of_inRam (a := fetchSlot s) hr) (by rw [show portAt (fetchSlot s) = some p from hp]; simp)
  · exact absurd hr (by rw [show inRam (fetchSlot s) = false from hr']; simp)
  · exact absurd ha (by rw [show aligned .word (fetchSlot s) = false from ha']; simp)
  · rw [he]
    exact congrArg _ (load_store_word h _ _)

end Sys2Proof.Machine
end

