-- ==== Sys2Proof/Machine/Assembly.lean ====
section
/-! DEFINITION. The assembler's side of the encoding: the syntax that the spec writes its programs in, and what an
assembler refuses (spec/30_encoding.md R85; the spec's decision D21, log 29). -/

namespace Sys2Proof.Machine

/-- What an assembler does with an instruction: its word, or none where the immediate is out of range or a branch or
jump offset is odd (R85). -/
def assemble (cfg : Config) (i : Instr) : Option Word := if i.wellFormed cfg then some (encode cfg i) else none

/-- A shift as it is written, `op rd, rs1, shamt`: it can be encoded only when the word names `rs1` as the register
shifted, which under SHIFTI_SRC = rs1 means rs1 = shamt; an assembler refuses it otherwise (R85, R156). -/
def assembleShift (cfg : Config) (op : Reg → BitVec 5 → Instr) (rd rs1 : Reg) (shamt : Nat) : Option Word :=
  if shamt < 32 ∧ shiftSource cfg.shiftiSrc rd (BitVec.ofNat 5 shamt) = rs1 then
    assemble cfg (op rd (BitVec.ofNat 5 shamt))
  else none

/-- A register as it is written. -/
def regText (r : Reg) : String := "x" ++ toString r.toNat

/-- A signed number as it is written, in decimal. -/
def intText (v : Word) : String := toString v.toInt

/-- A number as it is written in hexadecimal. -/
def hexText (n : Nat) : String := "0x" ++ String.ofList ((Nat.toDigits 16 n).map Char.toUpper)

/-- `op rd, rs1, rs2`. -/
def registersText (op : String) (rd rs1 rs2 : Reg) : String :=
  op ++ regText rd ++ ", " ++ regText rs1 ++ ", " ++ regText rs2

/-- `op ra, rb, imm`. -/
def immText (op : String) (ra rb : Reg) (imm : Word) : String :=
  op ++ regText ra ++ ", " ++ regText rb ++ ", " ++ intText imm

/-- `op ra, imm(rb)`. -/
def baseText (op : String) (ra rb : Reg) (imm : Word) : String :=
  op ++ regText ra ++ ", " ++ intText imm ++ "(" ++ regText rb ++ ")"

/-- `op rd, rs1, shamt`, where rs1 is the register that SHIFTI_SRC names. -/
def shiftText (cfg : Config) (op : String) (rd : Reg) (imm5 : BitVec 5) : String :=
  op ++ regText rd ++ ", " ++ regText (shiftSource cfg.shiftiSrc rd imm5) ++ ", " ++ toString imm5.toNat

/-- `op rd, csr, source`. -/
def csrText (op : String) (rd : Reg) (csr : CsrNum) (source : String) : String :=
  op ++ regText rd ++ ", " ++ hexText csr.toNat ++ ", " ++ source

/-- An instruction as the spec writes it (R85). -/
def asmText (cfg : Config) : Instr → String
  | .lui rd imm => "LUI " ++ regText rd ++ ", " ++ hexText imm.toNat
  | .auipc rd imm => "AUIPC " ++ regText rd ++ ", " ++ hexText imm.toNat
  | .jal rd off => "JAL " ++ regText rd ++ ", " ++ intText off
  | .jalr rd rs1 imm => baseText "JALR " rd rs1 imm
  | .beq rs1 rs2 off => immText "BEQ " rs1 rs2 off
  | .bne rs1 rs2 off => immText "BNE " rs1 rs2 off
  | .blt rs1 rs2 off => immText "BLT " rs1 rs2 off
  | .bge rs1 rs2 off => immText "BGE " rs1 rs2 off
  | .bltu rs1 rs2 off => immText "BLTU " rs1 rs2 off
  | .bgeu rs1 rs2 off => immText "BGEU " rs1 rs2 off
  | .lb rd rs1 imm => baseText "LB " rd rs1 imm
  | .lh rd rs1 imm => baseText "LH " rd rs1 imm
  | .lw rd rs1 imm => baseText "LW " rd rs1 imm
  | .lbu rd rs1 imm => baseText "LBU " rd rs1 imm
  | .lhu rd rs1 imm => baseText "LHU " rd rs1 imm
  | .sb rs2 rs1 imm => baseText "SB " rs2 rs1 imm
  | .sh rs2 rs1 imm => baseText "SH " rs2 rs1 imm
  | .sw rs2 rs1 imm => baseText "SW " rs2 rs1 imm
  | .addi rd rs1 imm => immText "ADDI " rd rs1 imm
  | .slti rd rs1 imm => immText "SLTI " rd rs1 imm
  | .sltiu rd rs1 imm => immText "SLTIU " rd rs1 imm
  | .xori rd rs1 imm => immText "XORI " rd rs1 imm
  | .ori rd rs1 imm => immText "ORI " rd rs1 imm
  | .andi rd rs1 imm => immText "ANDI " rd rs1 imm
  | .slli rd imm5 => shiftText cfg "SLLI " rd imm5
  | .srli rd imm5 => shiftText cfg "SRLI " rd imm5
  | .srai rd imm5 => shiftText cfg "SRAI " rd imm5
  | .add rd rs1 rs2 => registersText "ADD " rd rs1 rs2
  | .sub rd rs1 rs2 => registersText "SUB " rd rs1 rs2
  | .sll rd rs1 rs2 => registersText "SLL " rd rs1 rs2
  | .srl rd rs1 rs2 => registersText "SRL " rd rs1 rs2
  | .sra rd rs1 rs2 => registersText "SRA " rd rs1 rs2
  | .slt rd rs1 rs2 => registersText "SLT " rd rs1 rs2
  | .sltu rd rs1 rs2 => registersText "SLTU " rd rs1 rs2
  | .xor rd rs1 rs2 => registersText "XOR " rd rs1 rs2
  | .or rd rs1 rs2 => registersText "OR " rd rs1 rs2
  | .and rd rs1 rs2 => registersText "AND " rd rs1 rs2
  | .ecall => "ECALL"
  | .ebreak => "EBREAK"
  | .reti => "RETI"
  | .wfi => "WFI"
  | .csrrw rd rs1 csr => csrText "CSRRW " rd csr (regText rs1)
  | .csrrs rd rs1 csr => csrText "CSRRS " rd csr (regText rs1)
  | .csrrc rd rs1 csr => csrText "CSRRC " rd csr (regText rs1)
  | .csrrwi rd imm5 csr => csrText "CSRRWI " rd csr (toString imm5.toNat)
  | .csrrsi rd imm5 csr => csrText "CSRRSI " rd csr (toString imm5.toNat)
  | .csrrci rd imm5 csr => csrText "CSRRCI " rd csr (toString imm5.toNat)
  | .mul rd rs1 rs2 => registersText "MUL " rd rs1 rs2
  | .mulh rd rs1 rs2 => registersText "MULH " rd rs1 rs2
  | .mulhsu rd rs1 rs2 => registersText "MULHSU " rd rs1 rs2
  | .mulhu rd rs1 rs2 => registersText "MULHU " rd rs1 rs2
  | .div rd rs1 rs2 => registersText "DIV " rd rs1 rs2
  | .divu rd rs1 rs2 => registersText "DIVU " rd rs1 rs2
  | .rem rd rs1 rs2 => registersText "REM " rd rs1 rs2
  | .remu rd rs1 rs2 => registersText "REMU " rd rs1 rs2

end Sys2Proof.Machine
end

