-- ==== Sys2Proof/Tests/Slice0.lean ====
section
/-! SUPPORT. Tests on fixed values, and a witness for the hypotheses of every statement that has some. The expected values
are those of spec/95_test_vectors.md, computed there from the rules, except where a comment names a rule. -/

namespace Sys2Proof.Tests

open Sys2Proof.Machine Sys2Proof.Statements

set_option Elab.async false

/-! ### Helpers -/

/-- The reset state with an instruction word at `pc` and some registers set. -/
def machine (pc word : Word) (regs : List (Reg × Word)) : State :=
  let s := regs.foldl (fun s p => s.setReg p.1 p.2) State.reset
  { s with pc := pc, ram := s.ram.store .word pc.toNat word }

/-- One more word of RAM. -/
def withWord (s : State) (a : Nat) (w : Word) : State := { s with ram := s.ram.store .word a w }

/-- What a step leaves, seen through `f`; none when no step is taken. -/
def after {α : Type} (f : State → α) (s : State) : Option α :=
  match step s with
  | .next t => some (f t)
  | .fault _ => none
  | .refused _ => none

/-- A step is taken. -/
def steps (s : State) : Bool := (after (fun _ => ()) s).isSome

/-! ### WellFormed refuses what no word encodes (R76 to R79, R85) -/

/-- An I immediate above 2047 and one below -2048. -/
theorem test_refuses_I_range :
    (Instr.addi 1 1 2048#32).wellFormed Config.default = false ∧
      (Instr.lw 1 1 0xFFFFF7FF#32).wellFormed Config.default = false := by decide

/-- An S immediate out of range. -/
theorem test_refuses_S_range : (Instr.sw 1 1 2048#32).wellFormed Config.default = false := by decide

/-- A branch offset out of range. -/
theorem test_refuses_B_range : (Instr.beq 1 1 4096#32).wellFormed Config.default = false := by decide

/-- An odd branch offset. -/
theorem test_refuses_B_odd : (Instr.bgeu 1 1 3#32).wellFormed Config.default = false := by decide

/-- A jump offset out of range. -/
theorem test_refuses_J_range : (Instr.jal 1 0x00100000#32).wellFormed Config.default = false := by decide

/-- An odd jump offset. -/
theorem test_refuses_J_odd : (Instr.jal 1 7#32).wellFormed Config.default = false := by decide

/-- The ends of the ranges are accepted, negative and positive. -/
theorem test_accepts_range_ends :
    (Instr.addi 1 1 2047#32).wellFormed Config.default = true ∧
      (Instr.sb 1 1 0xFFFFF800#32).wellFormed Config.default = true ∧
      (Instr.beq 1 1 4094#32).wellFormed Config.default = true ∧
      (Instr.jal 1 0xFFF00000#32).wellFormed Config.default = true := by decide

/-! ### Decode: one word of every instruction, written out from its encoding -/

/-- `LUI x1, 0xABCDE` (spec/95_test_vectors.md section 2). -/
theorem test_decode_lui : decode Config.default 0xABCDE081#32 = .instr (.lui 1 0xABCDE) := by decide +kernel

/-- `AUIPC x3, 0x80000` (spec/95_test_vectors.md section 2). -/
theorem test_decode_auipc : decode Config.default 0x80000182#32 = .instr (.auipc 3 0x80000) := by decide +kernel

/-- `JAL x0, -4` (spec/95_test_vectors.md section 2). -/
theorem test_decode_jal : decode Config.default 0xFFFFE003#32 = .instr (.jal 0 0xFFFFFFFC#32) := by decide +kernel

/-- `JALR x1, -2048(x2)` (spec/95_test_vectors.md section 2). -/
theorem test_decode_jalr : decode Config.default 0x80002084#32 = .instr (.jalr 1 2 0xFFFFF800#32) := by decide +kernel

/-- `BEQ x1, x2, 8` (spec/95_test_vectors.md section 2). -/
theorem test_decode_beq : decode Config.default 0x00401105#32 = .instr (.beq 1 2 0x00000008#32) := by decide +kernel

/-- `BNE x1, x2, -8` (spec/95_test_vectors.md section 2). -/
theorem test_decode_bne : decode Config.default 0xFFC01106#32 = .instr (.bne 1 2 0xFFFFFFF8#32) := by decide +kernel

/-- `BLT x1, x2, 12` (spec/95_test_vectors.md section 2). -/
theorem test_decode_blt : decode Config.default 0x00601107#32 = .instr (.blt 1 2 0x0000000C#32) := by decide +kernel

/-- `BGE x1, x2, -4` (spec/95_test_vectors.md section 2). -/
theorem test_decode_bge : decode Config.default 0xFFE01108#32 = .instr (.bge 1 2 0xFFFFFFFC#32) := by decide +kernel

/-- `BLTU x3, x4, 16` (spec/95_test_vectors.md section 2). -/
theorem test_decode_bltu : decode Config.default 0x00803209#32 = .instr (.bltu 3 4 0x00000010#32) := by decide +kernel

/-- `BGEU x3, x4, 8` (spec/95_test_vectors.md section 2). -/
theorem test_decode_bgeu : decode Config.default 0x0040320A#32 = .instr (.bgeu 3 4 0x00000008#32) := by decide +kernel

/-- `LB x7, 3(x6)` (spec/95_test_vectors.md section 2). -/
theorem test_decode_lb : decode Config.default 0x0030638B#32 = .instr (.lb 7 6 0x00000003#32) := by decide +kernel

/-- `LH x7, 2(x6)` (spec/95_test_vectors.md section 2). -/
theorem test_decode_lh : decode Config.default 0x0020638C#32 = .instr (.lh 7 6 0x00000002#32) := by decide +kernel

/-- `LW x7, 1(x6)` (spec/95_test_vectors.md section 2). -/
theorem test_decode_lw : decode Config.default 0x0010638D#32 = .instr (.lw 7 6 0x00000001#32) := by decide +kernel

/-- `LBU x7, 3(x6)` (spec/95_test_vectors.md section 2). -/
theorem test_decode_lbu : decode Config.default 0x0030638E#32 = .instr (.lbu 7 6 0x00000003#32) := by decide +kernel

/-- `LHU x7, 2(x6)` (spec/95_test_vectors.md section 2). -/
theorem test_decode_lhu : decode Config.default 0x0020638F#32 = .instr (.lhu 7 6 0x00000002#32) := by decide +kernel

/-- `SB x5, 1(x6)` (spec/95_test_vectors.md section 2). -/
theorem test_decode_sb : decode Config.default 0x00106290#32 = .instr (.sb 5 6 0x00000001#32) := by decide +kernel

/-- `SH x5, 2(x6)` (spec/95_test_vectors.md section 2). -/
theorem test_decode_sh : decode Config.default 0x00206291#32 = .instr (.sh 5 6 0x00000002#32) := by decide +kernel

/-- `SW x5, 2(x6)` (spec/95_test_vectors.md section 2). -/
theorem test_decode_sw : decode Config.default 0x00206292#32 = .instr (.sw 5 6 0x00000002#32) := by decide +kernel

/-- `ADDI x2, x1, -3` (spec/95_test_vectors.md section 2). -/
theorem test_decode_addi : decode Config.default 0xFFD01113#32 = .instr (.addi 2 1 0xFFFFFFFD#32) := by decide +kernel

/-- `SLTI x3, x1, -2048` (spec/95_test_vectors.md section 2). -/
theorem test_decode_slti : decode Config.default 0x80001194#32 = .instr (.slti 3 1 0xFFFFF800#32) := by decide +kernel

/-- `SLTIU x3, x1, 1` (spec/95_test_vectors.md section 2). -/
theorem test_decode_sltiu : decode Config.default 0x00101195#32 = .instr (.sltiu 3 1 0x00000001#32) := by decide +kernel

/-- `XORI x3, x1, 2047` (spec/95_test_vectors.md section 2). -/
theorem test_decode_xori : decode Config.default 0x7FF01196#32 = .instr (.xori 3 1 0x000007FF#32) := by decide +kernel

/-- `ORI x3, x1, 240` (spec/95_test_vectors.md section 2). -/
theorem test_decode_ori : decode Config.default 0x0F001197#32 = .instr (.ori 3 1 0x000000F0#32) := by decide +kernel

/-- `ANDI x3, x1, -2048` (spec/95_test_vectors.md section 2). -/
theorem test_decode_andi : decode Config.default 0x80001198#32 = .instr (.andi 3 1 0xFFFFF800#32) := by decide +kernel

/-- `SLLI x31, x31, 31` (spec/95_test_vectors.md section 2). -/
theorem test_decode_slli : decode Config.default 0x0001FF99#32 = .instr (.slli 31 31) := by decide +kernel

/-- `SRLI x3, x4, 4` (spec/95_test_vectors.md section 2). -/
theorem test_decode_srli : decode Config.default 0x0000419A#32 = .instr (.srli 3 4) := by decide +kernel

/-- `SRAI x3, x1, 1` (spec/95_test_vectors.md section 2). -/
theorem test_decode_srai : decode Config.default 0x0000119B#32 = .instr (.srai 3 1) := by decide +kernel

/-- `ADD x3, x1, x2` (spec/95_test_vectors.md section 2). -/
theorem test_decode_add : decode Config.default 0x0004119C#32 = .instr (.add 3 1 2) := by decide +kernel

/-- `SUB x3, x1, x2` (spec/95_test_vectors.md section 2). -/
theorem test_decode_sub : decode Config.default 0x0004119D#32 = .instr (.sub 3 1 2) := by decide +kernel

/-- `SLL x3, x1, x2` (spec/95_test_vectors.md section 2). -/
theorem test_decode_sll : decode Config.default 0x0004119E#32 = .instr (.sll 3 1 2) := by decide +kernel

/-- `SRL x3, x1, x2` (spec/95_test_vectors.md section 2). -/
theorem test_decode_srl : decode Config.default 0x0004119F#32 = .instr (.srl 3 1 2) := by decide +kernel

/-- `SRA x3, x1, x2` (spec/95_test_vectors.md section 2). -/
theorem test_decode_sra : decode Config.default 0x000411A0#32 = .instr (.sra 3 1 2) := by decide +kernel

/-- `SLT x3, x1, x2` (spec/95_test_vectors.md section 2). -/
theorem test_decode_slt : decode Config.default 0x000411A1#32 = .instr (.slt 3 1 2) := by decide +kernel

/-- `SLTU x3, x1, x2` (spec/95_test_vectors.md section 2). -/
theorem test_decode_sltu : decode Config.default 0x000411A2#32 = .instr (.sltu 3 1 2) := by decide +kernel

/-- `XOR x3, x1, x2` (spec/95_test_vectors.md section 2). -/
theorem test_decode_xor : decode Config.default 0x000411A3#32 = .instr (.xor 3 1 2) := by decide +kernel

/-- `OR x3, x1, x2` (spec/95_test_vectors.md section 2). -/
theorem test_decode_or : decode Config.default 0x000411A4#32 = .instr (.or 3 1 2) := by decide +kernel

/-- `AND x3, x1, x2` (spec/95_test_vectors.md section 2). -/
theorem test_decode_and : decode Config.default 0x000411A5#32 = .instr (.and 3 1 2) := by decide +kernel

/-- `ECALL` (spec/95_test_vectors.md section 2). -/
theorem test_decode_ecall : decode Config.default 0x00000026#32 = .instr (.ecall) := by decide +kernel

/-- `EBREAK` (spec/95_test_vectors.md section 2). -/
theorem test_decode_ebreak : decode Config.default 0x00000027#32 = .instr (.ebreak) := by decide +kernel

/-- `RETI` (spec/95_test_vectors.md section 2). -/
theorem test_decode_reti : decode Config.default 0x00000028#32 = .instr (.reti) := by decide +kernel

/-- `WFI` (spec/95_test_vectors.md section 2). -/
theorem test_decode_wfi : decode Config.default 0x00000029#32 = .instr (.wfi) := by decide +kernel

/-- `CSRRW x5, 0x300, x6` (spec/95_test_vectors.md section 2). -/
theorem test_decode_csrrw : decode Config.default 0x300062AA#32 = .instr (.csrrw 5 6 0x300) := by decide +kernel

/-- `CSRRS x5, 0x300, x6` (spec/95_test_vectors.md section 2). -/
theorem test_decode_csrrs : decode Config.default 0x300062AB#32 = .instr (.csrrs 5 6 0x300) := by decide +kernel

/-- `CSRRC x5, 0x300, x6` (spec/95_test_vectors.md section 2). -/
theorem test_decode_csrrc : decode Config.default 0x300062AC#32 = .instr (.csrrc 5 6 0x300) := by decide +kernel

/-- `CSRRWI x5, 0x341, 7` (spec/95_test_vectors.md section 2). -/
theorem test_decode_csrrwi : decode Config.default 0x341072AD#32 = .instr (.csrrwi 5 7 0x341) := by decide +kernel

/-- `CSRRSI x5, 0x300, 8` (spec/95_test_vectors.md section 2). -/
theorem test_decode_csrrsi : decode Config.default 0x300082AE#32 = .instr (.csrrsi 5 8 0x300) := by decide +kernel

/-- `CSRRCI x5, 0x300, 8` (spec/95_test_vectors.md section 2). -/
theorem test_decode_csrrci : decode Config.default 0x300082AF#32 = .instr (.csrrci 5 8 0x300) := by decide +kernel

/-- `MUL x3, x1, x2` (spec/95_test_vectors.md section 2). -/
theorem test_decode_mul : decode Config.default 0x000411B8#32 = .instr (.mul 3 1 2) := by decide +kernel

/-- `MULH x3, x1, x2` (spec/95_test_vectors.md section 2). -/
theorem test_decode_mulh : decode Config.default 0x000411B9#32 = .instr (.mulh 3 1 2) := by decide +kernel

/-- `MULHSU x3, x1, x2` (spec/95_test_vectors.md section 2). -/
theorem test_decode_mulhsu : decode Config.default 0x000411BA#32 = .instr (.mulhsu 3 1 2) := by decide +kernel

/-- `MULHU x3, x1, x2` (spec/95_test_vectors.md section 2). -/
theorem test_decode_mulhu : decode Config.default 0x000411BB#32 = .instr (.mulhu 3 1 2) := by decide +kernel

/-- `DIV x3, x1, x2` (spec/95_test_vectors.md section 2). -/
theorem test_decode_div : decode Config.default 0x000411BC#32 = .instr (.div 3 1 2) := by decide +kernel

/-- `DIVU x3, x1, x2` (spec/95_test_vectors.md section 2). -/
theorem test_decode_divu : decode Config.default 0x000411BD#32 = .instr (.divu 3 1 2) := by decide +kernel

/-- `REM x3, x1, x2` (spec/95_test_vectors.md section 2). -/
theorem test_decode_rem : decode Config.default 0x000411BE#32 = .instr (.rem 3 1 2) := by decide +kernel

/-- `REMU x3, x1, x2` (spec/95_test_vectors.md section 2). -/
theorem test_decode_remu : decode Config.default 0x000411BF#32 = .instr (.remu 3 1 2) := by decide +kernel

/-- Every bit of the word outside the opcode set: `ADDI x31, x31, -1` (section 2.9). -/
theorem test_decode_all_ones : decode Config.default 0xFFFFFF93#32 = .instr (.addi 31 31 0xFFFFFFFF#32) := by
  decide +kernel

/-- Ignored bits set: ECALL (section 2.9). -/
theorem test_decode_ignored_bits : decode Config.default 0xFFFC01A6#32 = .instr .ecall := by decide +kernel

/-- Opcodes that the table leaves out (section 2.9). -/
theorem test_decode_unknown :
    decode Config.default 0x00000000#32 = .unknownOpcode 0 ∧
      decode Config.default 0x00000030#32 = .unknownOpcode 48 ∧
      decode Config.default 0x00000037#32 = .unknownOpcode 55 ∧
      decode Config.default 0x00000040#32 = .unknownOpcode 64 ∧
      decode Config.default 0x0000007F#32 = .unknownOpcode 127 := by decide +kernel

/-- Fewer than four bytes are no instruction (R70). -/
theorem test_decode_truncated : decodeBytes Config.default [0x26#8, 0#8, 0#8] = .truncated 3 := by decide

/-- The table's numbering and the bytes in memory agree: `ADD x3, x1, x2`. -/
theorem test_decode_table_word : decodeTableWord 32 0x0004119C = some (.add 3 1 2) := by decide +kernel

/-! ### Assembler (R85) -/

/-- The spec's words for its own text: `SLLI x3, x3, 3`; a shift whose rs1 is not its amount is refused. -/
theorem test_assemble_shift :
    assembleShift Config.default .slli 3 3 3 = some 0x00003199#32 ∧
      assembleShift Config.default .slli 3 4 3 = none ∧
      assembleShift { Config.default with shiftiSrc := .rd } .slli 3 3 5 = some 0x00005199#32 ∧
      assembleShift Config.default .slli 0 0 32 = none := by decide +kernel

/-- `BNE x1, x2, -8`, and an odd offset refused. -/
theorem test_assemble_branch :
    assemble Config.default (.bne 1 2 0xFFFFFFF8#32) = some 0xFFC01106#32 ∧
      assemble Config.default (.bne 1 2 0xFFFFFFF7#32) = none := by decide +kernel

/-- The text of a load, a CSR instruction and a shift. -/
theorem test_asmText :
    asmText Config.default (.lw 7 6 0xFFFFFFFC#32) = "LW x7, -4(x6)" ∧
      asmText Config.default (.csrrwi 5 7 0x341#12) = "CSRRWI x5, 0x341, 7" ∧
      asmText Config.default (.slli 3 3#5) = "SLLI x3, x3, 3" := by decide +kernel

/-- PORT_DEC shows the signed reading, PORT_HEX the unsigned one. -/
theorem test_event_shown :
    (OutEvent.dec 0xFFFFFFFE#32).shown = -2 ∧ (OutEvent.hex 0xFFFFFFFE#32).shown = 0xFFFFFFFE ∧
      (OutEvent.char 0x41#8).shown = 65 := by decide

/-! ### One step of every instruction -/

/-- `LUI x1, 0xABCDE` from x1=0x12345678. -/
theorem test_lui_replaces_old :
    after (fun t => (t.x 1, t.pc))
      (machine 0x80000000#32 0xABCDE081#32 [(1, 0x12345678#32)]) =
      some (0xABCDE000#32, 0x80000004#32) := by decide +kernel

/-- `LUI x0, 0xFFFFF` from the defaults. -/
theorem test_lui_x0 :
    after (fun t => (t.x 0, t.pc))
      (machine 0x80000000#32 0xFFFFF001#32 []) =
      some (0x00000000#32, 0x80000004#32) := by decide +kernel

/-- `AUIPC x3, 0x1` from the defaults. -/
theorem test_auipc_adds_pc :
    after (fun t => (t.x 3, t.pc))
      (machine 0x80000000#32 0x00001182#32 []) =
      some (0x80001000#32, 0x80000004#32) := by decide +kernel

/-- `AUIPC x3, 0x80000` from pc=0x80000010. -/
theorem test_auipc_wraps :
    after (fun t => (t.x 3, t.pc))
      (machine 0x80000010#32 0x80000182#32 []) =
      some (0x00000010#32, 0x80000014#32) := by decide +kernel

/-- `JAL x1, 8` from the defaults. -/
theorem test_jal_links :
    after (fun t => (t.x 1, t.pc))
      (machine 0x80000000#32 0x00004083#32 []) =
      some (0x80000004#32, 0x80000008#32) := by decide +kernel

/-- `JAL x1, -1048576` from pc=0x80100000. -/
theorem test_jal_backward :
    after (fun t => (t.x 1, t.pc))
      (machine 0x80100000#32 0x80000083#32 []) =
      some (0x80100004#32, 0x80000000#32) := by decide +kernel

/-- `JALR x1, 4(x1)` from x1=0x80000100, pc=0x80000010. -/
theorem test_jalr_own_base :
    after (fun t => (t.x 1, t.pc))
      (machine 0x80000010#32 0x00401084#32 [(1, 0x80000100#32)]) =
      some (0x80000014#32, 0x80000104#32) := by decide +kernel

/-- `JALR x1, 1(x2)` from x2=0x80000001. -/
theorem test_jalr_clears_bit0_alone :
    after (fun t => (t.x 1, t.pc))
      (machine 0x80000000#32 0x00102084#32 [(2, 0x80000001#32)]) =
      some (0x80000004#32, 0x80000002#32) := by decide +kernel

/-- `BEQ x1, x2, 8` from x1=0x00000007, x2=0x00000007. -/
theorem test_beq_taken :
    after (fun t => t.pc)
      (machine 0x80000000#32 0x00401105#32 [(1, 0x00000007#32), (2, 0x00000007#32)]) =
      some 0x80000008#32 := by decide +kernel

/-- `BEQ x1, x2, 8` from x1=0x00000007, x2=0x00000008. -/
theorem test_beq_not_taken :
    after (fun t => t.pc)
      (machine 0x80000000#32 0x00401105#32 [(1, 0x00000007#32), (2, 0x00000008#32)]) =
      some 0x80000004#32 := by decide +kernel

/-- `BNE x1, x2, -8` from x1=0x00000001, x2=0x00000000, pc=0x80000010. -/
theorem test_bne_backward :
    after (fun t => t.pc)
      (machine 0x80000010#32 0xFFC01106#32 [(1, 0x00000001#32), (2, 0x00000000#32)]) =
      some 0x80000008#32 := by decide +kernel

/-- `BNE x3, x3, -8` from x3=0x00000001, pc=0x80000010. -/
theorem test_bne_same_register :
    after (fun t => t.pc)
      (machine 0x80000010#32 0xFFC03186#32 [(3, 0x00000001#32)]) =
      some 0x80000014#32 := by decide +kernel

/-- `BLT x1, x2, 12` from x1=0x80000000, x2=0x7FFFFFFF. -/
theorem test_blt_signed_extremes :
    after (fun t => t.pc)
      (machine 0x80000000#32 0x00601107#32 [(1, 0x80000000#32), (2, 0x7FFFFFFF#32)]) =
      some 0x8000000C#32 := by decide +kernel

/-- `BLT x1, x2, 12` from x1=0x00000005, x2=0x00000005. -/
theorem test_blt_equal :
    after (fun t => t.pc)
      (machine 0x80000000#32 0x00601107#32 [(1, 0x00000005#32), (2, 0x00000005#32)]) =
      some 0x80000004#32 := by decide +kernel

/-- `BGE x1, x2, -4` from x1=0x00000005, x2=0x00000005, pc=0x80000008. -/
theorem test_bge_equal :
    after (fun t => t.pc)
      (machine 0x80000008#32 0xFFE01108#32 [(1, 0x00000005#32), (2, 0x00000005#32)]) =
      some 0x80000004#32 := by decide +kernel

/-- `BGE x1, x2, -4` from x1=0x80000000, x2=0x00000000, pc=0x80000008. -/
theorem test_bge_negative :
    after (fun t => t.pc)
      (machine 0x80000008#32 0xFFE01108#32 [(1, 0x80000000#32), (2, 0x00000000#32)]) =
      some 0x8000000C#32 := by decide +kernel

/-- `BLTU x3, x4, 16` from x3=0x00000001, x4=0xFFFFFFFF. -/
theorem test_bltu_unsigned :
    after (fun t => t.pc)
      (machine 0x80000000#32 0x00803209#32 [(3, 0x00000001#32), (4, 0xFFFFFFFF#32)]) =
      some 0x80000010#32 := by decide +kernel

/-- `BLTU x3, x4, 16` from x3=0xFFFFFFFF, x4=0x00000001. -/
theorem test_bltu_not_taken :
    after (fun t => t.pc)
      (machine 0x80000000#32 0x00803209#32 [(3, 0xFFFFFFFF#32), (4, 0x00000001#32)]) =
      some 0x80000004#32 := by decide +kernel

/-- `BGEU x3, x4, 8` from x3=0xFFFFFFFF, x4=0x00000001. -/
theorem test_bgeu_unsigned :
    after (fun t => t.pc)
      (machine 0x80000000#32 0x0040320A#32 [(3, 0xFFFFFFFF#32), (4, 0x00000001#32)]) =
      some 0x80000008#32 := by decide +kernel

/-- `BGEU x3, x4, 8` from x3=0x00000001, x4=0xFFFFFFFF. -/
theorem test_bgeu_not_taken :
    after (fun t => t.pc)
      (machine 0x80000000#32 0x0040320A#32 [(3, 0x00000001#32), (4, 0xFFFFFFFF#32)]) =
      some 0x80000004#32 := by decide +kernel

/-- `LB x7, 3(x6)` from x6=0x80001000, M[0x80001000]=0x8001FF80. -/
theorem test_lb_sign_extends :
    after (fun t => (t.x 7, t.pc))
      (withWord (machine 0x80000000#32 0x0030638B#32 [(6, 0x80001000#32)]) 0x80001000 0x8001FF80#32) =
      some (0xFFFFFF80#32, 0x80000004#32) := by decide +kernel

/-- `LB x7, 8(x6)` from x6=0x10000000, x7=0x00000055. -/
theorem test_lb_port :
    after (fun t => (t.x 7, t.pc))
      (machine 0x80000000#32 0x0080638B#32 [(6, 0x10000000#32), (7, 0x00000055#32)]) =
      some (0x00000000#32, 0x80000004#32) := by decide +kernel

/-- `LH x7, 2(x6)` from x6=0x80001000, M[0x80001000]=0x8001FF80. -/
theorem test_lh_sign_extends :
    after (fun t => (t.x 7, t.pc))
      (withWord (machine 0x80000000#32 0x0020638C#32 [(6, 0x80001000#32)]) 0x80001000 0x8001FF80#32) =
      some (0xFFFF8001#32, 0x80000004#32) := by decide +kernel

/-- `LH x7, 1(x6)` from x6=0x80001000, x7=0x00000055, M[0x80001000]=0x8001FF80. -/
theorem test_lh_misaligned :
    after (fun t => (t.x 7, t.haltCause, t.pc))
      (withWord (machine 0x80000000#32 0x0010638C#32 [(6, 0x80001000#32), (7, 0x00000055#32)]) 0x80001000 0x8001FF80#32) =
      some (0x00000055#32, some (.accessFault .misaligned 0x80001001#32), 0x80000000#32) := by decide +kernel

/-- `LW x6, 0(x6)` from x6=0x80001000, M[0x80001000]=0x8001FF80. -/
theorem test_lw_own_base :
    after (fun t => (t.x 6, t.pc))
      (withWord (machine 0x80000000#32 0x0000630D#32 [(6, 0x80001000#32)]) 0x80001000 0x8001FF80#32) =
      some (0x8001FF80#32, 0x80000004#32) := by decide +kernel

/-- `LW x7, -4(x6)` from x6=0x80000000. -/
theorem test_lw_below_ram :
    after (fun t => (t.x 7, t.haltCause, t.pc))
      (machine 0x80000000#32 0xFFC0638D#32 [(6, 0x80000000#32)]) =
      some (0x00000000#32, some (.accessFault .outOfRange 0x7FFFFFFC#32), 0x80000000#32) := by decide +kernel

/-- `LBU x7, 3(x6)` from x6=0x80001000, M[0x80001000]=0x8001FF80. -/
theorem test_lbu_zero_extends :
    after (fun t => (t.x 7, t.pc))
      (withWord (machine 0x80000000#32 0x0030638E#32 [(6, 0x80001000#32)]) 0x80001000 0x8001FF80#32) =
      some (0x00000080#32, 0x80000004#32) := by decide +kernel

/-- `LHU x7, 2(x6)` from x6=0x80001000, M[0x80001000]=0x8001FF80. -/
theorem test_lhu_zero_extends :
    after (fun t => (t.x 7, t.pc))
      (withWord (machine 0x80000000#32 0x0020638F#32 [(6, 0x80001000#32)]) 0x80001000 0x8001FF80#32) =
      some (0x00008001#32, 0x80000004#32) := by decide +kernel

/-- `LHU x7, 3(x6)` from x6=0x80001000, M[0x80001000]=0x8001FF80. -/
theorem test_lhu_misaligned :
    after (fun t => (t.x 7, t.haltCause, t.pc))
      (withWord (machine 0x80000000#32 0x0030638F#32 [(6, 0x80001000#32)]) 0x80001000 0x8001FF80#32) =
      some (0x00000000#32, some (.accessFault .misaligned 0x80001003#32), 0x80000000#32) := by decide +kernel

/-- `SB x5, 1(x6)` from x5=0x12345678, x6=0x80001000, M[0x80001000]=0x8001FF80. -/
theorem test_sb_one_byte :
    after (fun t => (t.ram.load .word 0x80001000, t.pc))
      (withWord (machine 0x80000000#32 0x00106290#32 [(5, 0x12345678#32), (6, 0x80001000#32)]) 0x80001000 0x8001FF80#32) =
      some (0x80017880#32, 0x80000004#32) := by decide +kernel

/-- `SB x5, 0(x6)` from x5=0x12345641, x6=0x10000000. -/
theorem test_sb_port_char :
    after (fun t => (t.trace, t.pc))
      (machine 0x80000000#32 0x00006290#32 [(5, 0x12345641#32), (6, 0x10000000#32)]) =
      some ([.char 0x00000041], 0x80000004#32) := by decide +kernel

/-- `SH x5, 2(x6)` from x5=0x12345678, x6=0x80001000, M[0x80001000]=0x8001FF80. -/
theorem test_sh_two_bytes :
    after (fun t => (t.ram.load .word 0x80001000, t.pc))
      (withWord (machine 0x80000000#32 0x00206291#32 [(5, 0x12345678#32), (6, 0x80001000#32)]) 0x80001000 0x8001FF80#32) =
      some (0x5678FF80#32, 0x80000004#32) := by decide +kernel

/-- `SH x5, 8(x6)` from x5=0x12345678, x6=0x10000000. -/
theorem test_sh_port_hex :
    after (fun t => (t.trace, t.pc))
      (machine 0x80000000#32 0x00806291#32 [(5, 0x12345678#32), (6, 0x10000000#32)]) =
      some ([.hex 0x12345678], 0x80000004#32) := by decide +kernel

/-- `SW x5, 4(x6)` from x5=0xFFFFFFFE, x6=0x10000000. -/
theorem test_sw_port_dec :
    after (fun t => (t.trace, t.pc))
      (machine 0x80000000#32 0x00406292#32 [(5, 0xFFFFFFFE#32), (6, 0x10000000#32)]) =
      some ([.dec 0xFFFFFFFE], 0x80000004#32) := by decide +kernel

/-- `SW x5, 0(x6)` from x5=0x12345678, x6=0x82000000. -/
theorem test_sw_beyond_ram :
    after (fun t => (t.haltCause, t.pc))
      (machine 0x80000000#32 0x00006292#32 [(5, 0x12345678#32), (6, 0x82000000#32)]) =
      some (some (.accessFault .outOfRange 0x82000000#32), 0x80000000#32) := by decide +kernel

/-- `ADDI x2, x1, -3` from x1=0x00000005. -/
theorem test_addi_negative :
    after (fun t => (t.x 2, t.pc))
      (machine 0x80000000#32 0xFFD01113#32 [(1, 0x00000005#32)]) =
      some (0x00000002#32, 0x80000004#32) := by decide +kernel

/-- `ADDI x1, x1, 1` from x1=0x7FFFFFFF. -/
theorem test_addi_wraps :
    after (fun t => (t.x 1, t.pc))
      (machine 0x80000000#32 0x00101093#32 [(1, 0x7FFFFFFF#32)]) =
      some (0x80000000#32, 0x80000004#32) := by decide +kernel

/-- `SLTI x3, x1, 2047` from x1=0x80000000. -/
theorem test_slti_most_negative :
    after (fun t => (t.x 3, t.pc))
      (machine 0x80000000#32 0x7FF01194#32 [(1, 0x80000000#32)]) =
      some (0x00000001#32, 0x80000004#32) := by decide +kernel

/-- `SLTI x3, x1, -1` from x1=0xFFFFFFFF. -/
theorem test_slti_equal :
    after (fun t => (t.x 3, t.pc))
      (machine 0x80000000#32 0xFFF01194#32 [(1, 0xFFFFFFFF#32)]) =
      some (0x00000000#32, 0x80000004#32) := by decide +kernel

/-- `SLTIU x3, x1, -1` from x1=0x00000005. -/
theorem test_sltiu_extended_immediate :
    after (fun t => (t.x 3, t.pc))
      (machine 0x80000000#32 0xFFF01195#32 [(1, 0x00000005#32)]) =
      some (0x00000001#32, 0x80000004#32) := by decide +kernel

/-- `SLTIU x3, x1, 0` from x1=0x00000000. -/
theorem test_sltiu_zero :
    after (fun t => (t.x 3, t.pc))
      (machine 0x80000000#32 0x00001195#32 [(1, 0x00000000#32)]) =
      some (0x00000000#32, 0x80000004#32) := by decide +kernel

/-- `XORI x3, x1, -1` from x1=0x12345678. -/
theorem test_xori_complement :
    after (fun t => (t.x 3, t.pc))
      (machine 0x80000000#32 0xFFF01196#32 [(1, 0x12345678#32)]) =
      some (0xEDCBA987#32, 0x80000004#32) := by decide +kernel

/-- `ORI x3, x1, -2048` from x1=0x00000000. -/
theorem test_ori_sign_extends :
    after (fun t => (t.x 3, t.pc))
      (machine 0x80000000#32 0x80001197#32 [(1, 0x00000000#32)]) =
      some (0xFFFFF800#32, 0x80000004#32) := by decide +kernel

/-- `ANDI x3, x1, -2048` from x1=0x12345FFF. -/
theorem test_andi_sign_extends :
    after (fun t => (t.x 3, t.pc))
      (machine 0x80000000#32 0x80001198#32 [(1, 0x12345FFF#32)]) =
      some (0x12345800#32, 0x80000004#32) := by decide +kernel

/-- `SLLI x31, x31, 31` from x31=0x00000003. -/
theorem test_slli_by_31 :
    after (fun t => (t.x 31, t.pc))
      (machine 0x80000000#32 0x0001FF99#32 [(31, 0x00000003#32)]) =
      some (0x80000000#32, 0x80000004#32) := by decide +kernel

/-- `SLLI x3, x0, 0` from x3=0x00000055. -/
theorem test_slli_x0 :
    after (fun t => (t.x 3, t.pc))
      (machine 0x80000000#32 0x00000199#32 [(3, 0x00000055#32)]) =
      some (0x00000000#32, 0x80000004#32) := by decide +kernel

/-- `SRLI x3, x4, 4` from x4=0x80000000. -/
theorem test_srli_source_is_amount :
    after (fun t => (t.x 3, t.pc))
      (machine 0x80000000#32 0x0000419A#32 [(4, 0x80000000#32)]) =
      some (0x08000000#32, 0x80000004#32) := by decide +kernel

/-- `SRLI x3, x31, 31` from x31=0xFFFFFFFF. -/
theorem test_srli_by_31 :
    after (fun t => (t.x 3, t.pc))
      (machine 0x80000000#32 0x0001F19A#32 [(31, 0xFFFFFFFF#32)]) =
      some (0x00000001#32, 0x80000004#32) := by decide +kernel

/-- `SRAI x3, x4, 4` from x4=0x80000000. -/
theorem test_srai_sign_copies :
    after (fun t => (t.x 3, t.pc))
      (machine 0x80000000#32 0x0000419B#32 [(4, 0x80000000#32)]) =
      some (0xF8000000#32, 0x80000004#32) := by decide +kernel

/-- `SRAI x3, x1, 1` from x1=0xFFFFFFF9. -/
theorem test_srai_rounds_down :
    after (fun t => (t.x 3, t.pc))
      (machine 0x80000000#32 0x0000119B#32 [(1, 0xFFFFFFF9#32)]) =
      some (0xFFFFFFFC#32, 0x80000004#32) := by decide +kernel

/-- `ADD x3, x1, x2` from x1=0xFFFFFFFF, x2=0x00000001. -/
theorem test_add_wraps :
    after (fun t => (t.x 3, t.pc))
      (machine 0x80000000#32 0x0004119C#32 [(1, 0xFFFFFFFF#32), (2, 0x00000001#32)]) =
      some (0x00000000#32, 0x80000004#32) := by decide +kernel

/-- `ADD x1, x1, x1` from x1=0x40000000. -/
theorem test_add_source_is_destination :
    after (fun t => (t.x 1, t.pc))
      (machine 0x80000000#32 0x0002109C#32 [(1, 0x40000000#32)]) =
      some (0x80000000#32, 0x80000004#32) := by decide +kernel

/-- `SUB x3, x1, x2` from x1=0x00000000, x2=0x00000001. -/
theorem test_sub_borrows :
    after (fun t => (t.x 3, t.pc))
      (machine 0x80000000#32 0x0004119D#32 [(1, 0x00000000#32), (2, 0x00000001#32)]) =
      some (0xFFFFFFFF#32, 0x80000004#32) := by decide +kernel

/-- `SUB x3, x1, x2` from x1=0x80000000, x2=0x00000001. -/
theorem test_sub_overflows :
    after (fun t => (t.x 3, t.pc))
      (machine 0x80000000#32 0x0004119D#32 [(1, 0x80000000#32), (2, 0x00000001#32)]) =
      some (0x7FFFFFFF#32, 0x80000004#32) := by decide +kernel

/-- `SLL x3, x1, x2` from x1=0x00000001, x2=0x00000020. -/
theorem test_sll_by_32 :
    after (fun t => (t.x 3, t.pc))
      (machine 0x80000000#32 0x0004119E#32 [(1, 0x00000001#32), (2, 0x00000020#32)]) =
      some (0x00000001#32, 0x80000004#32) := by decide +kernel

/-- `SLL x3, x1, x2` from x1=0x12345678, x2=0xFFFFFFE4. -/
theorem test_sll_low_five_bits :
    after (fun t => (t.x 3, t.pc))
      (machine 0x80000000#32 0x0004119E#32 [(1, 0x12345678#32), (2, 0xFFFFFFE4#32)]) =
      some (0x23456780#32, 0x80000004#32) := by decide +kernel

/-- `SRL x3, x1, x2` from x1=0x80000000, x2=0x0000001F. -/
theorem test_srl_by_31 :
    after (fun t => (t.x 3, t.pc))
      (machine 0x80000000#32 0x0004119F#32 [(1, 0x80000000#32), (2, 0x0000001F#32)]) =
      some (0x00000001#32, 0x80000004#32) := by decide +kernel

/-- `SRL x3, x1, x2` from x1=0x80000000, x2=0x00000020. -/
theorem test_srl_by_32 :
    after (fun t => (t.x 3, t.pc))
      (machine 0x80000000#32 0x0004119F#32 [(1, 0x80000000#32), (2, 0x00000020#32)]) =
      some (0x80000000#32, 0x80000004#32) := by decide +kernel

/-- `SRA x3, x1, x2` from x1=0xF0000000, x2=0x00000004. -/
theorem test_sra_sign_copies :
    after (fun t => (t.x 3, t.pc))
      (machine 0x80000000#32 0x000411A0#32 [(1, 0xF0000000#32), (2, 0x00000004#32)]) =
      some (0xFF000000#32, 0x80000004#32) := by decide +kernel

/-- `SRA x3, x1, x2` from x1=0x70000000, x2=0x00000024. -/
theorem test_sra_low_five_bits :
    after (fun t => (t.x 3, t.pc))
      (machine 0x80000000#32 0x000411A0#32 [(1, 0x70000000#32), (2, 0x00000024#32)]) =
      some (0x07000000#32, 0x80000004#32) := by decide +kernel

/-- `SLT x3, x1, x2` from x1=0xFFFFFFFF, x2=0x00000001. -/
theorem test_slt_negative :
    after (fun t => (t.x 3, t.pc))
      (machine 0x80000000#32 0x000411A1#32 [(1, 0xFFFFFFFF#32), (2, 0x00000001#32)]) =
      some (0x00000001#32, 0x80000004#32) := by decide +kernel

/-- `SLT x3, x1, x2` from x1=0x00000001, x2=0xFFFFFFFF. -/
theorem test_slt_positive :
    after (fun t => (t.x 3, t.pc))
      (machine 0x80000000#32 0x000411A1#32 [(1, 0x00000001#32), (2, 0xFFFFFFFF#32)]) =
      some (0x00000000#32, 0x80000004#32) := by decide +kernel

/-- `SLTU x3, x1, x2` from x1=0xFFFFFFFF, x2=0x00000001. -/
theorem test_sltu_large :
    after (fun t => (t.x 3, t.pc))
      (machine 0x80000000#32 0x000411A2#32 [(1, 0xFFFFFFFF#32), (2, 0x00000001#32)]) =
      some (0x00000000#32, 0x80000004#32) := by decide +kernel

/-- `SLTU x3, x1, x2` from x1=0x00000001, x2=0xFFFFFFFF. -/
theorem test_sltu_small :
    after (fun t => (t.x 3, t.pc))
      (machine 0x80000000#32 0x000411A2#32 [(1, 0x00000001#32), (2, 0xFFFFFFFF#32)]) =
      some (0x00000001#32, 0x80000004#32) := by decide +kernel

/-- `XOR x3, x1, x2` from x1=0xFF00FF00, x2=0x0FF00FF0. -/
theorem test_xor_bits :
    after (fun t => (t.x 3, t.pc))
      (machine 0x80000000#32 0x000411A3#32 [(1, 0xFF00FF00#32), (2, 0x0FF00FF0#32)]) =
      some (0xF0F0F0F0#32, 0x80000004#32) := by decide +kernel

/-- `OR x3, x1, x2` from x1=0xFF00FF00, x2=0x0FF00FF0. -/
theorem test_or_bits :
    after (fun t => (t.x 3, t.pc))
      (machine 0x80000000#32 0x000411A4#32 [(1, 0xFF00FF00#32), (2, 0x0FF00FF0#32)]) =
      some (0xFFF0FFF0#32, 0x80000004#32) := by decide +kernel

/-- `AND x3, x1, x2` from x1=0xFF00FF00, x2=0x0FF00FF0. -/
theorem test_and_bits :
    after (fun t => (t.x 3, t.pc))
      (machine 0x80000000#32 0x000411A5#32 [(1, 0xFF00FF00#32), (2, 0x0FF00FF0#32)]) =
      some (0x0F000F00#32, 0x80000004#32) := by decide +kernel

/-- `ECALL` from x10=0x00000005. -/
theorem test_ecall_x10 :
    after (fun t => (t.x 10, t.pc))
      (machine 0x80000000#32 0x00000026#32 [(10, 0x00000005#32)]) =
      some (0xFFFFFFFF#32, 0x80000004#32) := by decide +kernel

/-- `EBREAK` from pc=0x80000008. -/
theorem test_ebreak_halts :
    after (fun t => (t.haltCause, t.pc))
      (machine 0x80000008#32 0x00000027#32 []) =
      some (some .ebreak, 0x80000008#32) := by decide +kernel

/-- `RETI` from mstatus=0xFFFFFFF7, mepc=0x80000100. -/
theorem test_reti_keeps_other_bits :
    after (fun t => (t.mstatus, t.mepc, t.pc))
      ({ (machine 0x80000000#32 0x00000028#32 []) with mstatus := 0xFFFFFFF7#32, mepc := 0x80000100#32 }) =
      some (0xFFFFFFFF#32, 0x80000100#32, 0x80000100#32) := by decide +kernel

/-- `RETI` from mepc=0x80000100. -/
theorem test_reti_goes_to_mepc :
    after (fun t => (t.mstatus, t.mepc, t.pc))
      ({ (machine 0x80000000#32 0x00000028#32 []) with mepc := 0x80000100#32 }) =
      some (0x00000008#32, 0x80000100#32, 0x80000100#32) := by decide +kernel

/-- `WFI` from the defaults. -/
theorem test_wfi_falls_through :
    after (fun t => t.pc)
      (machine 0x80000000#32 0x00000029#32 []) =
      some 0x80000004#32 := by decide +kernel

/-- `CSRRW x6, 0x341, x6` from x6=0x80000100, mepc=0x00000044. -/
theorem test_csrrw_swaps :
    after (fun t => (t.x 6, t.mepc, t.pc))
      ({ (machine 0x80000000#32 0x3410632A#32 [(6, 0x80000100#32)]) with mepc := 0x00000044#32 }) =
      some (0x00000044#32, 0x80000100#32, 0x80000004#32) := by decide +kernel

/-- `CSRRW x5, 0x342, x6` from x6=0x00001234. -/
theorem test_csrrw_unimplemented :
    after (fun t => (t.x 5, t.pc))
      (machine 0x80000000#32 0x342062AA#32 [(6, 0x00001234#32)]) =
      some (0x00000000#32, 0x80000004#32) := by decide +kernel

/-- `CSRRS x5, 0x300, x6` from x6=0x00000001, mstatus=0x00000008. -/
theorem test_csrrs_sets :
    after (fun t => (t.x 5, t.mstatus, t.pc))
      ({ (machine 0x80000000#32 0x300062AB#32 [(6, 0x00000001#32)]) with mstatus := 0x00000008#32 }) =
      some (0x00000008#32, 0x00000009#32, 0x80000004#32) := by decide +kernel

/-- `CSRRS x0, 0x300, x6` from x6=0x00000001, mstatus=0x00000008. -/
theorem test_csrrs_x0_writes_nothing :
    after (fun t => (t.x 0, t.mstatus, t.pc))
      ({ (machine 0x80000000#32 0x3000602B#32 [(6, 0x00000001#32)]) with mstatus := 0x00000008#32 }) =
      some (0x00000000#32, 0x00000008#32, 0x80000004#32) := by decide +kernel

/-- `CSRRC x5, 0x300, x6` from x6=0x00000008, mstatus=0x00000009. -/
theorem test_csrrc_clears :
    after (fun t => (t.x 5, t.mstatus, t.pc))
      ({ (machine 0x80000000#32 0x300062AC#32 [(6, 0x00000008#32)]) with mstatus := 0x00000009#32 }) =
      some (0x00000009#32, 0x00000001#32, 0x80000004#32) := by decide +kernel

/-- `CSRRC x0, 0x300, x6` from x6=0x00000008, mstatus=0x00000009. -/
theorem test_csrrc_x0_writes_nothing :
    after (fun t => (t.x 0, t.mstatus, t.pc))
      ({ (machine 0x80000000#32 0x3000602C#32 [(6, 0x00000008#32)]) with mstatus := 0x00000009#32 }) =
      some (0x00000000#32, 0x00000009#32, 0x80000004#32) := by decide +kernel

/-- `CSRRWI x5, 0x341, 7` from mepc=0x80000100. -/
theorem test_csrrwi_zero_extends :
    after (fun t => (t.x 5, t.mepc, t.pc))
      ({ (machine 0x80000000#32 0x341072AD#32 []) with mepc := 0x80000100#32 }) =
      some (0x80000100#32, 0x00000007#32, 0x80000004#32) := by decide +kernel

/-- `CSRRWI x0, 0x300, 0` from mstatus=0xFFFFFFFF. -/
theorem test_csrrwi_x0_still_writes :
    after (fun t => (t.x 0, t.mstatus, t.pc))
      ({ (machine 0x80000000#32 0x3000002D#32 []) with mstatus := 0xFFFFFFFF#32 }) =
      some (0x00000000#32, 0x00000000#32, 0x80000004#32) := by decide +kernel

/-- `CSRRSI x5, 0x300, 8` from mstatus=0x00000000. -/
theorem test_csrrsi_sets :
    after (fun t => (t.x 5, t.mstatus, t.pc))
      ({ (machine 0x80000000#32 0x300082AE#32 []) with mstatus := 0x00000000#32 }) =
      some (0x00000000#32, 0x00000008#32, 0x80000004#32) := by decide +kernel

/-- `CSRRSI x0, 0x300, 1` from mstatus=0x00000000. -/
theorem test_csrrsi_x0_still_writes :
    after (fun t => (t.x 0, t.mstatus, t.pc))
      ({ (machine 0x80000000#32 0x3000102E#32 []) with mstatus := 0x00000000#32 }) =
      some (0x00000000#32, 0x00000001#32, 0x80000004#32) := by decide +kernel

/-- `CSRRCI x0, 0x300, 31` from mstatus=0xFFFFFFFF. -/
theorem test_csrrci_x0_still_writes :
    after (fun t => (t.x 0, t.mstatus, t.pc))
      ({ (machine 0x80000000#32 0x3001F02F#32 []) with mstatus := 0xFFFFFFFF#32 }) =
      some (0x00000000#32, 0xFFFFFFE0#32, 0x80000004#32) := by decide +kernel

/-- `CSRRCI x5, 0x300, 0` from mstatus=0x00000009. -/
theorem test_csrrci_zero_reads :
    after (fun t => (t.x 5, t.mstatus, t.pc))
      ({ (machine 0x80000000#32 0x300002AF#32 []) with mstatus := 0x00000009#32 }) =
      some (0x00000009#32, 0x00000009#32, 0x80000004#32) := by decide +kernel

/-- `MUL x3, x1, x2` from x1=0xFFFFFFFF, x2=0xFFFFFFFF. -/
theorem test_mul_minus_one_squared :
    after (fun t => (t.x 3, t.pc))
      (machine 0x80000000#32 0x000411B8#32 [(1, 0xFFFFFFFF#32), (2, 0xFFFFFFFF#32)]) =
      some (0x00000001#32, 0x80000004#32) := by decide +kernel

/-- `MUL x3, x1, x2` from x1=0x80000000, x2=0x00000002. -/
theorem test_mul_overflow :
    after (fun t => (t.x 3, t.pc))
      (machine 0x80000000#32 0x000411B8#32 [(1, 0x80000000#32), (2, 0x00000002#32)]) =
      some (0x00000000#32, 0x80000004#32) := by decide +kernel

/-- `MULH x3, x1, x2` from x1=0x80000000, x2=0x7FFFFFFF. -/
theorem test_mulh_signs :
    after (fun t => (t.x 3, t.pc))
      (machine 0x80000000#32 0x000411B9#32 [(1, 0x80000000#32), (2, 0x7FFFFFFF#32)]) =
      some (0xC0000000#32, 0x80000004#32) := by decide +kernel

/-- `MULH x3, x1, x2` from x1=0xFFFFFFFF, x2=0x00000001. -/
theorem test_mulh_minus_one :
    after (fun t => (t.x 3, t.pc))
      (machine 0x80000000#32 0x000411B9#32 [(1, 0xFFFFFFFF#32), (2, 0x00000001#32)]) =
      some (0xFFFFFFFF#32, 0x80000004#32) := by decide +kernel

/-- `MULHSU x3, x1, x2` from x1=0x80000000, x2=0xFFFFFFFF. -/
theorem test_mulhsu_mixed_signs :
    after (fun t => (t.x 3, t.pc))
      (machine 0x80000000#32 0x000411BA#32 [(1, 0x80000000#32), (2, 0xFFFFFFFF#32)]) =
      some (0x80000000#32, 0x80000004#32) := by decide +kernel

/-- `MULHSU x3, x1, x2` from x1=0xFFFFFFFF, x2=0xFFFFFFFF. -/
theorem test_mulhsu_minus_one :
    after (fun t => (t.x 3, t.pc))
      (machine 0x80000000#32 0x000411BA#32 [(1, 0xFFFFFFFF#32), (2, 0xFFFFFFFF#32)]) =
      some (0xFFFFFFFF#32, 0x80000004#32) := by decide +kernel

/-- `MULHU x3, x1, x2` from x1=0xFFFFFFFF, x2=0xFFFFFFFF. -/
theorem test_mulhu_largest :
    after (fun t => (t.x 3, t.pc))
      (machine 0x80000000#32 0x000411BB#32 [(1, 0xFFFFFFFF#32), (2, 0xFFFFFFFF#32)]) =
      some (0xFFFFFFFE#32, 0x80000004#32) := by decide +kernel

/-- `MULHU x3, x1, x2` from x1=0x80000000, x2=0xFFFFFFFF. -/
theorem test_mulhu_half :
    after (fun t => (t.x 3, t.pc))
      (machine 0x80000000#32 0x000411BB#32 [(1, 0x80000000#32), (2, 0xFFFFFFFF#32)]) =
      some (0x7FFFFFFF#32, 0x80000004#32) := by decide +kernel

/-- `DIV x3, x1, x2` from x1=0x80000000, x2=0xFFFFFFFF. -/
theorem test_div_overflow :
    after (fun t => (t.x 3, t.pc))
      (machine 0x80000000#32 0x000411BC#32 [(1, 0x80000000#32), (2, 0xFFFFFFFF#32)]) =
      some (0x80000000#32, 0x80000004#32) := by decide +kernel

/-- `DIV x3, x1, x2` from x1=0xFFFFFFF9, x2=0x00000002. -/
theorem test_div_toward_zero :
    after (fun t => (t.x 3, t.pc))
      (machine 0x80000000#32 0x000411BC#32 [(1, 0xFFFFFFF9#32), (2, 0x00000002#32)]) =
      some (0xFFFFFFFD#32, 0x80000004#32) := by decide +kernel

/-- `DIVU x3, x1, x2` from x1=0x00000007, x2=0x00000000. -/
theorem test_divu_by_zero :
    after (fun t => (t.x 3, t.pc))
      (machine 0x80000000#32 0x000411BD#32 [(1, 0x00000007#32), (2, 0x00000000#32)]) =
      some (0xFFFFFFFF#32, 0x80000004#32) := by decide +kernel

/-- `DIVU x3, x1, x2` from x1=0x80000000, x2=0xFFFFFFFF. -/
theorem test_divu_unsigned :
    after (fun t => (t.x 3, t.pc))
      (machine 0x80000000#32 0x000411BD#32 [(1, 0x80000000#32), (2, 0xFFFFFFFF#32)]) =
      some (0x00000000#32, 0x80000004#32) := by decide +kernel

/-- `REM x3, x1, x2` from x1=0x80000000, x2=0xFFFFFFFF. -/
theorem test_rem_overflow :
    after (fun t => (t.x 3, t.pc))
      (machine 0x80000000#32 0x000411BE#32 [(1, 0x80000000#32), (2, 0xFFFFFFFF#32)]) =
      some (0x00000000#32, 0x80000004#32) := by decide +kernel

/-- `REM x3, x1, x2` from x1=0xFFFFFFF9, x2=0x00000002. -/
theorem test_rem_sign_of_dividend :
    after (fun t => (t.x 3, t.pc))
      (machine 0x80000000#32 0x000411BE#32 [(1, 0xFFFFFFF9#32), (2, 0x00000002#32)]) =
      some (0xFFFFFFFF#32, 0x80000004#32) := by decide +kernel

/-- `REMU x3, x1, x2` from x1=0x00000007, x2=0x00000000. -/
theorem test_remu_by_zero :
    after (fun t => (t.x 3, t.pc))
      (machine 0x80000000#32 0x000411BF#32 [(1, 0x00000007#32), (2, 0x00000000#32)]) =
      some (0x00000007#32, 0x80000004#32) := by decide +kernel

/-- `REMU x3, x1, x2` from x1=0x80000000, x2=0xFFFFFFFF. -/
theorem test_remu_unsigned :
    after (fun t => (t.x 3, t.pc))
      (machine 0x80000000#32 0x000411BF#32 [(1, 0x80000000#32), (2, 0xFFFFFFFF#32)]) =
      some (0x80000000#32, 0x80000004#32) := by decide +kernel

/-! ### Fetch, halts and the other settings (sections 2.9 and 4) -/

/-- A fetch fault leaves pc, ir and next_pc. -/
theorem test_fetch_misaligned :
    after (fun t => (t.haltCause, t.pc, t.ir, t.nextPc)) { State.reset with pc := 0x80000002#32 } =
      some (some (.fetchFault .misaligned 0x80000002#32), 0x80000002#32, 0#32, 0#32) := by decide +kernel

/-- The range is tested before the alignment. -/
theorem test_fetch_range_first :
    after (fun t => t.haltCause) { State.reset with pc := 0x10000001#32 } =
      some (some (.fetchFault .outOfRange 0x10000001#32)) := by decide +kernel

/-- A port is fetched as the word 0. -/
theorem test_fetch_port :
    after (fun t => (t.haltCause, t.pc)) { State.reset with pc := 0x10000000#32 } =
      some (some (.unknownOpcode 0), 0x10000000#32) := by decide +kernel

/-- The last word of RAM executes, and pc leaves RAM. -/
theorem test_fetch_last_word :
    after (fun t => (t.x 1, t.pc, t.halted)) (machine 0x81FFFFFC#32 0x00100093#32 []) =
      some (1#32, 0x82000000#32, false) := by decide +kernel

/-- Reset lists no program: the first step halts with UnknownOpcode(0) (log 14). -/
theorem test_reset_first_step :
    after (fun t => (t.haltCause, t.pc)) State.reset = some (some (.unknownOpcode 0), 0x80000000#32) := by
  decide +kernel

/-- No step is taken while halted. -/
theorem test_halted : step { State.reset with halted := true } = .fault .halted := rfl

/-- The instruction placed for the next fetch is the one that runs: ECALL at reset. -/
theorem test_withFetchWord :
    after (fun t => (t.x 10, t.ir)) (State.reset.withFetchWord 7 0x26) = some (0xFFFFFFFF#32, 0x26#32) := by
  decide +kernel

/-- PC_AFTER_HALT = Advance, EBREAK. -/
theorem test_advance_ebreak :
    after (fun t => (t.haltCause, t.pc))
      { machine 0x80000008#32 0x00000027#32 [] with cfg := { Config.default with pcAfterHalt := .advance } } =
      some (some .ebreak, 0x8000000C#32) := by decide +kernel

/-- PC_AFTER_HALT = Advance, a fetch fault: pc stays. -/
theorem test_advance_fetch :
    after (fun t => t.pc)
      { State.reset with pc := 0x80000002#32, cfg := { Config.default with pcAfterHalt := .advance } } =
      some 0x80000002#32 := by decide +kernel

/-- CSR_MODE = RiscvStandard, CSRRS and CSRRC with rd = 0. -/
theorem test_standard_csr :
    after (fun t => t.mstatus)
      { machine 0x80000000#32 0x3000602B#32 [(6, 1#32)] with
        mstatus := 8#32, cfg := { Config.default with csrMode := .riscvStandard } } = some 9#32 ∧
    after (fun t => t.mstatus)
      { machine 0x80000000#32 0x3000602C#32 [(6, 8#32)] with
        mstatus := 9#32, cfg := { Config.default with csrMode := .riscvStandard } } = some 1#32 := by decide +kernel

/-- The host sees the latch and the instruction that set it (R8). -/
theorem test_observe_halt :
    after (fun t => ((observe t).halted, (observe t).haltCause, (observe t).ir))
      (machine 0x80000000#32 0x00000027#32 []) = some (true, some .ebreak, 0x00000027#32) := by decide +kernel

/-- MSTATUS_IE_BIT = 0, RETI. -/
theorem test_ie_bit_0 :
    after (fun t => (t.mstatus, t.pc))
      { machine 0x80000000#32 0x00000028#32 [] with
        mepc := 0x80000100#32, cfg := { Config.default with mstatusIeBit := 0 } } =
      some (1#32, 0x80000100#32) := by decide +kernel

/-- SHIFTI_SRC = rd, and the same word under the default. -/
theorem test_shifti_src :
    after (fun t => t.x 3)
      { machine 0x80000000#32 0x00005199#32 [(3, 1#32), (5, 7#32)] with
        cfg := { Config.default with shiftiSrc := .rd } } = some 0x20#32 ∧
    after (fun t => t.x 3) (machine 0x80000000#32 0x00005199#32 [(3, 1#32), (5, 7#32)]) = some 0xE0#32 := by
  decide +kernel

/-! ### Witnesses: the hypotheses of the statements can be met

Each theorem is named after its statement. Where a statement has several clauses, each is met at the ends of its range. -/

/-- A lawful setting that differs from the defaults: opcodes 1 to 55 in table order, S and B immediates with other bits in
other orders, and branches that compare the spans 21..17 and 11..7. -/
def otherConfig : Config :=
  { Config.default with
    opcodeMap := (List.range 55).zip Mnemonic.all |>.map (fun p => (BitVec.ofNat 7 (p.1 + 1), p.2))
    immS := { bits := [17, 18, 19, 20, 21, 22, 23, 24, 25, 26, 27, 28, 29, 30, 31], zeros := 1 }
    immB := { bits := [31, 12, 13, 14, 15, 16, 22, 23, 24, 25, 26, 27, 28, 29, 30], zeros := 0 }
    branchFirst := .rs2Reg
    branchSecond := .rd }

theorem witness_DecodeOfEncodeIsIdentity :
    Config.default.lawful = true ∧ (Instr.jal 31 0xFFF00000#32).wellFormed Config.default = true ∧
      otherConfig.lawful = true ∧ (Instr.sh 1 2 0x00007FFE#32).wellFormed otherConfig = true := by decide +kernel

theorem witness_EncodeOfDecodeKeepsUsedBits :
    decode Config.default 0xFFFE119C#32 = .instr (.add 3 1 31) := by decide +kernel

/-- ECALL with its ignored bits set, under the defaults, and RETI under another setting. -/
theorem witness_IgnoredBitsNeverMatter :
    (Config.default.opcodeMap.lookup ((0x00000026#32 : Word).extractLsb' 0 7) = some .ecall ∧
      ∀ p < 32, usesBit Config.default .ecall p = true →
        (0x00000026#32 : Word).getLsbD p = (0xFFFC01A6#32 : Word).getLsbD p) ∧
      (otherConfig.opcodeMap.lookup ((0x00000128#32 : Word).extractLsb' 0 7) = some .reti ∧
        ∀ p < 32, usesBit otherConfig .reti p = true →
          (0x00000128#32 : Word).getLsbD p = (0xFFFFFFA8#32 : Word).getLsbD p) := by decide +kernel

/-- Under the defaults the used bits are those of `usedMask`. -/
theorem test_usesBit_default :
    ∀ m ∈ Mnemonic.all, ∀ p < 32, usesBit Config.default m p = (usedMask m).getLsbD p := by decide +kernel

/-- Opcodes 1 and 47, 56 and 63, and 0, 48, 55, 64, 127. -/
theorem witness_DefaultOpcodesSelectInTableOrder :
    ((0x00000001#32 : Word).extractLsb' 0 7).toNat = 1 ∧ ((0xFFFFFFAF#32 : Word).extractLsb' 0 7).toNat = 47 ∧
      ((0x00000038#32 : Word).extractLsb' 0 7).toNat = 56 ∧ ((0xFFFFFFBF#32 : Word).extractLsb' 0 7).toNat = 63 ∧
      ((0x00000080#32 : Word).extractLsb' 0 7).toNat = 0 ∧ ((0x00000030#32 : Word).extractLsb' 0 7).toNat = 48 ∧
      ((0x00000037#32 : Word).extractLsb' 0 7).toNat = 55 ∧ ((0x00000040#32 : Word).extractLsb' 0 7).toNat = 64 ∧
      ((0xFFFFFFFF#32 : Word).extractLsb' 0 7).toNat = 127 := by decide +kernel

theorem witness_InstructionBytesDecode :
    Config.default.lawful = true ∧ (Instr.bne 1 2 0xFFFFF000#32).wellFormed Config.default = true := by decide +kernel

/-- The last word of RAM. -/
theorem witness_StepRunsDecodedInstruction :
    let s := machine 0x81FFFFFC#32 0x00100093#32 []
    s.halted = false ∧ (0x80000000 ≤ s.pc.toNat ∧ s.pc.toNat < 0x82000000) ∧ s.pc.toNat % 4 = 0 ∧
      (0x00100093#32 : Word).toNat = wordAt s s.pc.toNat ∧
      decode s.cfg 0x00100093#32 = .instr (.addi 1 0 1#32) := by decide +kernel

/-- The address is outside RAM and is no port. -/
def outside (a : Word) : Bool :=
  !(a == 0x10000000#32 || a == 0x10000004#32 || a == 0x10000008#32) &&
    !(decide (0x80000000 ≤ a.toNat) && decide (a.toNat < 0x82000000))

/-- What `outside` says. -/
theorem outside_spec {a : Word} (h : outside a = true) : ¬IsPort a ∧ ¬IsRam a := by
  simp only [outside, Bool.and_eq_true, Bool.not_eq_true', Bool.or_eq_false_iff, beq_eq_false_iff_ne,
    Bool.and_eq_false_iff, decide_eq_false_iff_not] at h
  unfold IsPort IsRam
  refine ⟨?_, ?_⟩
  · rintro (e | e | e)
    · exact h.1.1.1 e
    · exact h.1.1.2 e
    · exact h.1.2 e
  · rintro ⟨h1, h2⟩
    rcases h.2 with h | h
    · exact h h1
    · exact h h2

/-- pc just below and just above RAM, beside a port, and at misaligned addresses at both ends of RAM. -/
theorem witness_FetchFaultHaltsBeforeDecode :
    (¬IsPort 0x7FFFFFFC#32 ∧ ¬IsRam 0x7FFFFFFC#32) ∧ (¬IsPort 0x82000000#32 ∧ ¬IsRam 0x82000000#32) ∧
      (¬IsPort 0x1000000C#32 ∧ ¬IsRam 0x1000000C#32) ∧ (¬IsPort 0x10000001#32 ∧ ¬IsRam 0x10000001#32) ∧
      (IsRam 0x80000001#32 ∧ (0x80000001#32 : Word).toNat % 4 ≠ 0) ∧
      (IsRam 0x81FFFFFF#32 ∧ (0x81FFFFFF#32 : Word).toNat % 4 ≠ 0) ∧ State.reset.halted = false :=
  ⟨outside_spec (by decide), outside_spec (by decide), outside_spec (by decide), outside_spec (by decide),
    by unfold IsRam; decide, by unfold IsRam; decide, rfl⟩

theorem witness_UnknownOpcodeHalts :
    let s := machine 0x80000000#32 0x0000007F#32 []
    s.halted = false ∧ fetch s = .ok 0x0000007F#32 ∧
      s.cfg.opcodeMap.lookup ((0x0000007F#32 : Word).extractLsb' 0 7) = none :=
  ⟨rfl, by decide +kernel, by decide +kernel⟩

theorem witness_FetchAtPortHalts :
    State.reset.halted = false ∧ State.reset.cfg.lawful = true ∧ IsPort 0x10000000#32 ∧ IsPort 0x10000004#32 ∧
      IsPort 0x10000008#32 :=
  ⟨rfl, by decide +kernel, .inl rfl, .inr (.inl rfl), .inr (.inr rfl)⟩

theorem witness_HaltedEngineTakesNoStep : ({ State.reset with halted := true } : State).halted = true := rfl

theorem witness_RunningEngineAlwaysSteps : State.reset.halted = false := rfl

/-- The instruction that a state is about to execute. -/
def current (s : State) : Option Instr :=
  match fetch s with
  | .ok w =>
    match decode s.cfg w with
    | .instr i => some i
    | .unknownOpcode _ => none
  | .error _ => none

/-- What `current` says. -/
theorem current_spec {s : State} {i : Instr} (h : current s = some i) :
    Executes s i ∧ ∀ j, Executes s j → j = i := by
  unfold current at h
  cases hf : fetch s with
  | error f => simp [hf] at h
  | ok w =>
    cases hd : decode s.cfg w with
    | unknownOpcode op => simp [hf, hd] at h
    | instr k =>
      simp only [hf, hd, Option.some.injEq] at h
      subst h
      refine ⟨⟨w, hf, hd⟩, ?_⟩
      rintro j ⟨v, h1, h2⟩
      rw [hf] at h1
      cases h1
      rw [hd] at h2
      cases h2
      rfl

/-- What `steps` says. -/
theorem steps_spec {s : State} (h : steps s = true) : ∃ t, step s = .next t := by
  unfold steps after at h
  cases hs : step s with
  | next t => exact ⟨t, rfl⟩
  | fault f => simp [hs] at h
  | refused r => simp [hs] at h

/-- `LW x7, 2(x6)` with x6 = 0x80001000: a misaligned load. -/
def badLoad : State := machine 0x80000000#32 0x0020638D#32 [(6, 0x80001000#32)]

/-- `SW x5, 0(x6)` with x6 = 0x82000000: a store beyond RAM. -/
def badStore : State := machine 0x80000000#32 0x00006292#32 [(6, 0x82000000#32)]

/-- Each of the four events happens in some step: a fetch fault, an unknown opcode, EBREAK, a faulting access of each
kind; an instruction that does not halt; and a halted state. -/
theorem witness_HaltLatchIsSetByTheFourEventsAlone :
    (∃ t, step { State.reset with pc := 0x82000000#32 } = .next t) ∧
      fetch { State.reset with pc := 0x82000000#32 } = .error { kind := .outOfRange, addr := 0x82000000#32 } ∧
      (∃ t, step State.reset = .next t) ∧ fetch State.reset = .ok 0#32 ∧
      (∃ t, step (machine 0x80000000#32 0x00000027#32 []) = .next t) ∧
      Executes (machine 0x80000000#32 0x00000027#32 []) .ebreak ∧
      (∃ t, step badLoad = .next t) ∧ Executes badLoad (.lw 7 6 2#32) ∧
      (∃ t, step badStore = .next t) ∧ Executes badStore (.sw 5 6 0#32) ∧
      (∃ t, step (machine 0x80000000#32 0x00000029#32 []) = .next t) ∧
      (∃ t, exec .wfi { State.reset with halted := true } = .next t) ∧
      ({ State.reset with halted := true } : State).halted = true :=
  ⟨steps_spec (by decide +kernel), rfl, steps_spec (by decide +kernel), rfl, steps_spec (by decide +kernel),
    (current_spec (by decide +kernel)).1, steps_spec (by decide +kernel), (current_spec (by decide +kernel)).1,
    steps_spec (by decide +kernel), (current_spec (by decide +kernel)).1, steps_spec (by decide +kernel),
    ⟨_, rfl⟩, rfl⟩

theorem witness_EveryStepKeepsInv : State.reset.Inv ∧ ∃ t, step State.reset = .next t :=
  ⟨⟨rfl, rfl, by decide, rfl⟩, steps_spec (by decide +kernel)⟩

/-- `SW x5, 4(x6)` at PORT_DEC. -/
theorem witness_TraceGrowsByPortStoresAlone :
    ∃ t, step (machine 0x80000000#32 0x00406292#32 [(5, 0xFFFFFFFE#32), (6, 0x10000000#32)]) = .next t :=
  steps_spec (by decide +kernel)

/-- `SB x5, 1(x6)` changes a byte. -/
theorem witness_RamChangesOnlyWhereStoresStore :
    let s := machine 0x80000000#32 0x00106290#32 [(5, 0x12345678#32), (6, 0x80001000#32)]
    s.ram.wf = true ∧ after (fun t => t.ram.byte 0x80001001 != s.ram.byte 0x80001001) s = some true := by decide +kernel

/-- RETI changes mstatus, and `CSRRW x6, 0x341, x6` changes mepc. -/
theorem witness_CsrsChangeOnlyByTheirInstructions :
    after (fun t => t.mstatus != 0#32) (machine 0x80000000#32 0x00000028#32 []) = some true ∧
      after (fun t => t.mepc != 0#32) (machine 0x80000000#32 0x3410632A#32 [(6, 0x80000100#32)]) = some true := by
  decide +kernel

/-- `JAL x1, 8` leaves the sequence without a halt. -/
theorem witness_OnlyTransfersLeaveTheSequence :
    after (fun t => (t.halted, t.pc != 0x80000004#32)) (machine 0x80000000#32 0x00004083#32 []) =
      some (false, true) := by decide +kernel

/-- RETI, which writes mstatus and is no CSR instruction. -/
theorem witness_MstatusInfluencesNothingElse :
    let s := machine 0x80000000#32 0x00000028#32 []
    s.halted = false ∧ ∀ i, Executes s i → csrTarget i ≠ some 0x300#12 := by
  refine ⟨rfl, fun i h => ?_⟩
  rw [(current_spec (i := .reti) (by decide +kernel)).2 i h]
  simp [csrTarget]

theorem witness_EarlierIrAndNextPcNeverMatter : fetch (machine 0x80000000#32 0x00000029#32 []) = .ok 0x29#32 := by
  decide +kernel

/-- The three ports, and the first and the last byte, half and word of RAM. -/
theorem witness_ReadsReturnMemory :
    IsPort 0x10000000#32 ∧ IsPort 0x10000004#32 ∧ IsPort 0x10000008#32 ∧ IsRam 0x80000000#32 ∧
      IsRam 0x81FFFFFF#32 ∧ (IsRam 0x81FFFFFE#32 ∧ (0x81FFFFFE#32 : Word).toNat % 2 = 0) ∧
      (IsRam 0x81FFFFFC#32 ∧ (0x81FFFFFC#32 : Word).toNat % 4 = 0) :=
  ⟨.inl rfl, .inr (.inl rfl), .inr (.inr rfl), by unfold IsRam; decide, by unfold IsRam; decide,
    by unfold IsRam; decide, by unfold IsRam; decide⟩

theorem witness_WritesStoreOrEmit :
    State.reset.ram.wf = true ∧ IsPort 0x10000008#32 ∧
      (IsRam 0x81FFFFFF#32 ∧ (0x81FFFFFF#32 : Word).toNat % MemKind.byte.bytes = 0) ∧
      (IsRam 0x81FFFFFE#32 ∧ (0x81FFFFFE#32 : Word).toNat % MemKind.half.bytes = 0) ∧
      (IsRam 0x81FFFFFC#32 ∧ (0x81FFFFFC#32 : Word).toNat % MemKind.word.bytes = 0) :=
  ⟨rfl, .inr (.inr rfl), by unfold IsRam; decide, by unfold IsRam; decide, by unfold IsRam; decide⟩

/-- The four clauses at the ends of the ranges; no address falls under two of them. -/
theorem witness_AccessTestsInOrder :
    IsPort 0x10000004#32 ∧ (¬IsPort 0x10000005#32 ∧ ¬IsRam 0x10000005#32) ∧
      (¬IsPort 0x7FFFFFFF#32 ∧ ¬IsRam 0x7FFFFFFF#32) ∧ (¬IsPort 0x82000000#32 ∧ ¬IsRam 0x82000000#32) ∧
      (IsRam 0x81FFFFFF#32 ∧ (0x81FFFFFF#32 : Word).toNat % MemKind.half.bytes ≠ 0) ∧
      (IsRam 0x81FFFFFE#32 ∧ (0x81FFFFFE#32 : Word).toNat % MemKind.word.bytes ≠ 0) ∧
      (IsRam 0x80000000#32 ∧ (0x80000000#32 : Word).toNat % MemKind.word.bytes = 0) :=
  ⟨.inr (.inl rfl), outside_spec (by decide), outside_spec (by decide), outside_spec (by decide),
    by unfold IsRam; decide, by unfold IsRam; decide, by unfold IsRam; decide⟩

/-- The last word of RAM, read and written. -/
theorem witness_AccessesEndInsideRam :
    ¬IsPort 0x81FFFFFC#32 ∧ memRead State.reset .word 0x81FFFFFC#32 = .ok 0#32 ∧
      ∃ t, memWrite State.reset .word 0x81FFFFFC#32 1#32 = .ok t :=
  ⟨by unfold IsPort; decide, by decide +kernel, _, rfl⟩

/-- A state whose register 6 holds an address. -/
def at6 (a : Word) : State := State.reset.setReg 6 a

/-- A byte at the last address of RAM, a half and a word at the last aligned ones. -/
theorem witness_LoadsReadBackStores :
    State.reset.ram.wf = true ∧ (7 : Reg) ≠ 0#5 ∧ IsRam (effectiveAddr (at6 0x81FFFFFF#32) 6 0#32) ∧
      (IsRam (effectiveAddr (at6 0x82000000#32) 6 0xFFFFFFFE#32) ∧
        (effectiveAddr (at6 0x82000000#32) 6 0xFFFFFFFE#32).toNat % 2 = 0) ∧
      (IsRam (effectiveAddr (at6 0x82000000#32) 6 0xFFFFFFFC#32) ∧
        (effectiveAddr (at6 0x82000000#32) 6 0xFFFFFFFC#32).toNat % 4 = 0) :=
  ⟨rfl, by decide, by unfold IsRam; decide +kernel, by unfold IsRam; decide +kernel,
    by unfold IsRam; decide +kernel⟩

/-- `SW x5, 0(x6)` with x6 one word past its own address. -/
theorem witness_NextFetchSeesStoredWord :
    let s := machine 0x80000000#32 0x00006292#32 [(5, 0x00000027#32), (6, 0x80000004#32)]
    s.halted = false ∧ s.ram.wf = true ∧ Executes s (.sw 5 6 0#32) ∧ effectiveAddr s 6 0#32 = s.pc + 4#32 ∧
      IsRam (s.pc + 4#32) ∧ (s.pc + 4#32).toNat % 4 = 0 :=
  ⟨rfl, by decide +kernel, (current_spec (by decide +kernel)).1, by decide +kernel, by unfold IsRam; decide +kernel,
    by decide +kernel⟩

/-- `DecodesAs` for each of the 55 instructions: the word that is its opcode alone selects it. -/
theorem witness_DecodesAs :
    ∀ e ∈ Config.default.opcodeMap,
      Config.default.opcodeMap.lookup ((e.1.setWidth 32).extractLsb' 0 7) = some e.2 := by decide +kernel

/-- `BLT` with its condition true and false, at the signed extremes. -/
theorem witness_BranchesStageTargetOnCondition :
    (0x80000000#32 : Word).toInt < (0x7FFFFFFF#32 : Word).toInt ∧
      ¬(0x7FFFFFFF#32 : Word).toInt < (0x80000000#32 : Word).toInt := by decide

/-- Byte accesses: a port, the two ends of RAM, and an address on either side of it. -/
theorem witness_ByteLoads :
    IsPort (effectiveAddr (at6 0x10000000#32) 6 8#32) ∧ IsRam (effectiveAddr (at6 0x82000000#32) 6 0xFFFFFFFF#32) ∧
      IsRam (effectiveAddr (at6 0x80000000#32) 6 0#32) ∧
      (¬IsPort (effectiveAddr (at6 0x80000000#32) 6 0xFFFFFFFF#32) ∧
        ¬IsRam (effectiveAddr (at6 0x80000000#32) 6 0xFFFFFFFF#32)) ∧
      (¬IsPort (effectiveAddr (at6 0x82000000#32) 6 0#32) ∧ ¬IsRam (effectiveAddr (at6 0x82000000#32) 6 0#32)) :=
  ⟨by unfold IsPort; decide +kernel, by unfold IsRam; decide +kernel, by unfold IsRam; decide +kernel,
    outside_spec (by decide +kernel), outside_spec (by decide +kernel)⟩

/-- The same addresses serve the byte store; RAM is canonical. -/
theorem witness_ByteStores :
    (at6 0x10000000#32).ram.wf = true ∧ IsPort (effectiveAddr (at6 0x10000000#32) 6 0#32) ∧
      (at6 0x82000000#32).ram.wf = true ∧ IsRam (effectiveAddr (at6 0x82000000#32) 6 0xFFFFFFFF#32) ∧
      (¬IsPort (effectiveAddr (at6 0x82000000#32) 6 0#32) ∧ ¬IsRam (effectiveAddr (at6 0x82000000#32) 6 0#32)) :=
  ⟨by decide +kernel, by unfold IsPort; decide +kernel, by decide +kernel, by unfold IsRam; decide +kernel,
    outside_spec (by decide +kernel)⟩

/-- Half and word accesses: aligned and misaligned at the end of RAM, and beyond it. -/
theorem witness_HalfAndWordLoads :
    (IsRam (effectiveAddr (at6 0x82000000#32) 6 0xFFFFFFFE#32) ∧
        (effectiveAddr (at6 0x82000000#32) 6 0xFFFFFFFE#32).toNat % 2 = 0 ∧
        (effectiveAddr (at6 0x82000000#32) 6 0xFFFFFFFE#32).toNat % 4 ≠ 0) ∧
      (IsRam (effectiveAddr (at6 0x82000000#32) 6 0xFFFFFFFF#32) ∧
        (effectiveAddr (at6 0x82000000#32) 6 0xFFFFFFFF#32).toNat % 2 ≠ 0) ∧
      (IsRam (effectiveAddr (at6 0x82000000#32) 6 0xFFFFFFFC#32) ∧
        (effectiveAddr (at6 0x82000000#32) 6 0xFFFFFFFC#32).toNat % 4 = 0) ∧
      (¬IsPort (effectiveAddr (at6 0xFFFFFFFF#32) 6 1#32) ∧ ¬IsRam (effectiveAddr (at6 0xFFFFFFFF#32) 6 1#32)) ∧
      IsPort (effectiveAddr (at6 0x10000000#32) 6 4#32) :=
  ⟨by unfold IsRam; decide +kernel, by unfold IsRam; decide +kernel, by unfold IsRam; decide +kernel,
    outside_spec (by decide +kernel), by unfold IsPort; decide +kernel⟩

/-- The same addresses serve the half and word stores; RAM is canonical. -/
theorem witness_HalfAndWordStores :
    (at6 0x82000000#32).ram.wf = true ∧ (at6 0x10000000#32).ram.wf = true ∧
      IsPort (effectiveAddr (at6 0x10000000#32) 6 8#32) ∧
      (IsRam (effectiveAddr (at6 0x82000000#32) 6 0xFFFFFFFC#32) ∧
        (effectiveAddr (at6 0x82000000#32) 6 0xFFFFFFFC#32).toNat % 4 = 0) ∧
      (IsRam (effectiveAddr (at6 0x82000000#32) 6 0xFFFFFFFE#32) ∧
        (effectiveAddr (at6 0x82000000#32) 6 0xFFFFFFFE#32).toNat % 4 ≠ 0) ∧
      (IsRam (effectiveAddr (at6 0x82000000#32) 6 0xFFFFFFFF#32) ∧
        (effectiveAddr (at6 0x82000000#32) 6 0xFFFFFFFF#32).toNat % 2 ≠ 0) ∧
      (¬IsPort (effectiveAddr (at6 0x82000000#32) 6 0#32) ∧ ¬IsRam (effectiveAddr (at6 0x82000000#32) 6 0#32)) :=
  ⟨by decide +kernel, by decide +kernel, by unfold IsPort; decide +kernel, by unfold IsRam; decide +kernel,
    by unfold IsRam; decide +kernel, by unfold IsRam; decide +kernel, outside_spec (by decide +kernel)⟩

theorem witness_WfiIsNoOp :
    let s := machine 0x80000000#32 0x00000029#32 []
    s.halted = false ∧ fetch s = .ok 0x29#32 ∧
      s.cfg.opcodeMap.lookup ((0x29#32 : Word).extractLsb' 0 7) = some .wfi :=
  ⟨rfl, by decide +kernel, by decide +kernel⟩

/-- -7 by 2. -/
theorem witness_DivisionLaw :
    let s := (State.reset.setReg 1 0xFFFFFFF9#32).setReg 2 2#32
    (3 : Reg) ≠ 0#5 ∧ (4 : Reg) ≠ 0#5 ∧ s.x 2 ≠ 0#32 ∧ ¬(s.x 1 = 0x80000000#32 ∧ s.x 2 = 0xFFFFFFFF#32) := by
  decide +kernel

/-- Images of the RAM's own length and one byte longer. -/
theorem witness_ConstructionLoadsImage :
    (List.replicate 0x2000000 (0#8 : Byte)).length ≤ 0x2000000 ∧
      0x2000000 < (List.replicate 0x2000001 (0#8 : Byte)).length := by
  rw [List.length_replicate, List.length_replicate]
  omega

theorem witness_HostResetKeepsRam :
    State.reset.ram.wf = true ∧ (List.replicate 0x2000000 (0#8 : Byte)).length ≤ 0x2000000 :=
  ⟨rfl, by rw [List.length_replicate]⟩

/-- The run from reset ends after one step, in a halted state it reaches, and a budget of 0 finds no end. -/
theorem witness_BudgetedRunFindsTheEnd :
    (∃ t, runUntilHalted 1 State.reset = .ended t ∧ Reaches State.reset t ∧ t.halted = true) ∧
      ∃ t, runUntilHalted 0 State.reset = .noEnd t :=
  ⟨⟨_, rfl, .next rfl (.refl _), rfl⟩, ⟨_, rfl⟩⟩

end Sys2Proof.Tests
end

section
/-! PROOFS. Accesses and meanings by the class of their address, and one step of the engine by what was fetched. -/

namespace Sys2Proof.Proofs

open Sys2Proof.Machine Sys2Proof.Statements

/-! ### Address classes (R41, R246) -/

theorem isPort_iff (a : Word) : IsPort a ↔ (portAt a).isSome = true := (portAt_isSome_iff a).symm

theorem isRam_iff (a : Word) : IsRam a ↔ inRam a = true := (inRam_iff a).symm

/-- The accesses that fail: no port, and outside RAM or misaligned in it (R246). -/
theorem accessFault_isSome_iff (k : MemKind) (a : Word) :
    (accessFault k a).isSome = true ↔ ¬IsPort a ∧ (¬IsRam a ∨ a.toNat % k.bytes ≠ 0) := by
  rw [isPort_iff, isRam_iff, Ne, ← aligned_iff]
  rcases accessFault_cases k a with ⟨p, hp, h⟩ | ⟨hp, hr, h⟩ | ⟨hp, hr, ha, h⟩ | ⟨hp, hr, ha, h⟩ <;> simp [*]

theorem accessFault_outOfRange {k : MemKind} {a : Word} (hp : ¬IsPort a) (hr : ¬IsRam a) :
    accessFault k a = some { kind := .outOfRange, addr := a } := by
  rw [isPort_iff] at hp
  rw [isRam_iff] at hr
  simp [accessFault, hp, hr]

theorem accessFault_misaligned {k : MemKind} {a : Word} (hr : IsRam a) (ha : a.toNat % k.bytes ≠ 0) :
    accessFault k a = some { kind := .misaligned, addr := a } := by
  rw [isRam_iff] at hr
  simp [accessFault, portAt_of_inRam hr, hr, aligned, ha]

/-! ### Accesses (R43, R46) -/

theorem memRead_of_accessFault {k : MemKind} {a : Word} {f : MemFault} (h : accessFault k a = some f) (s : State) :
    memRead s k a = .error f := by simp [memRead, h]

theorem memWrite_of_accessFault {k : MemKind} {a : Word} {f : MemFault} (h : accessFault k a = some f) (s : State)
    (v : Word) : memWrite s k a v = .error f := by simp [memWrite, h]

theorem memWrite_of_port {a : Word} {p : Port} (h : portAt a = some p) (k : MemKind) (s : State) (v : Word) :
    memWrite s k a v = .ok (s.emit (p.event v)) := by simp [memWrite, accessFault, h]

theorem memWrite_of_ram {k : MemKind} {a : Word} (hr : inRam a = true) (ha : aligned k a = true) (s : State)
    (v : Word) : memWrite s k a v = .ok { s with ram := s.ram.store k a.toNat v } := by
  simp [memWrite, accessFault, portAt_of_inRam hr, hr, ha]

/-! ### Loads and stores (R131 to R139) -/

theorem loadInto_of_accessFault {k : MemKind} {rs1 : Reg} {imm : Word} {s : State} {f : MemFault}
    (h : accessFault k (effectiveAddr s rs1 imm) = some f) (keep : Word → Word) (rd : Reg) :
    loadInto k keep rd rs1 imm s = .next (s.halt (.accessFault f.kind f.addr)) := by
  rw [loadInto, memRead_of_accessFault h]
  rfl

theorem loadInto_of_read {k : MemKind} {rs1 : Reg} {imm v : Word} {s : State}
    (h : memRead s k (effectiveAddr s rs1 imm) = .ok v) (keep : Word → Word) (rd : Reg) :
    loadInto k keep rd rs1 imm s = .next (s.setReg rd (keep v)) := by
  rw [loadInto, h]

theorem storeFrom_of_accessFault {k : MemKind} {rs1 : Reg} {imm : Word} {s : State} {f : MemFault}
    (h : accessFault k (effectiveAddr s rs1 imm) = some f) (rs2 : Reg) :
    storeFrom k rs2 rs1 imm s = .next (s.halt (.accessFault f.kind f.addr)) := by
  rw [storeFrom, memWrite_of_accessFault h]
  rfl

theorem storeFrom_of_port {rs1 : Reg} {imm : Word} {s : State} {p : Port}
    (h : portAt (effectiveAddr s rs1 imm) = some p) (k : MemKind) (rs2 : Reg) :
    storeFrom k rs2 rs1 imm s = .next (s.emit (p.event (s.x rs2))) := by
  rw [storeFrom, memWrite_of_port h]

theorem storeFrom_of_ram {k : MemKind} {rs1 : Reg} {imm : Word} {s : State}
    (hr : inRam (effectiveAddr s rs1 imm) = true) (ha : aligned k (effectiveAddr s rs1 imm) = true) (rs2 : Reg) :
    storeFrom k rs2 rs1 imm s = .next { s with ram := s.ram.store k (effectiveAddr s rs1 imm).toNat (s.x rs2) } := by
  rw [storeFrom, memWrite_of_ram hr ha]

/-- A load or store whose access fails halts the engine and does nothing else (R242). -/
theorem exec_of_accessFault {i : Instr} {k : MemKind} {rs1 : Reg} {imm : Word} {s : State} {f : MemFault}
    (hi : dataAccess i = some (k, rs1, imm)) (h : accessFault k (effectiveAddr s rs1 imm) = some f) :
    exec i s = .next (s.halt (.accessFault f.kind f.addr)) := by
  cases i <;> cases hi
  case lb => exact loadInto_of_accessFault h _ _
  case lh => exact loadInto_of_accessFault h _ _
  case lw => exact loadInto_of_accessFault h _ _
  case lbu => exact loadInto_of_accessFault h _ _
  case lhu => exact loadInto_of_accessFault h _ _
  case sb => exact storeFrom_of_accessFault h _
  case sh => exact storeFrom_of_accessFault h _
  case sw => exact storeFrom_of_accessFault h _

/-! ### The engine cycle (R87 to R89) -/

theorem decode_instr_iff (cfg : Config) (w : Word) (i : Instr) :
    decode cfg w = .instr i ↔ ∃ m, cfg.opcodeMap.lookup (w.extractLsb' 0 7) = some m ∧ m.build cfg w = i := by
  cases h : cfg.opcodeMap.lookup (w.extractLsb' 0 7) <;> simp [decode, Config.select, fieldOpcode, h]

theorem decode_unknownOpcode_iff (cfg : Config) (w : Word) (op : Opcode) :
    decode cfg w = .unknownOpcode op ↔
      cfg.opcodeMap.lookup (w.extractLsb' 0 7) = none ∧ w.extractLsb' 0 7 = op := by
  cases h : cfg.opcodeMap.lookup (w.extractLsb' 0 7) <;> simp [decode, Config.select, fieldOpcode, h]

theorem step_of_fetchFault {s : State} {f : MemFault} (hs : s.halted = false) (hf : fetch s = .error f) :
    step s = .next (s.haltOnFetch f) := by
  rw [step_running hs, hf]

theorem step_of_unknownOpcode {s : State} {w : Word} {op : Opcode} (hs : s.halted = false) (hf : fetch s = .ok w)
    (hd : decode s.cfg w = .unknownOpcode op) : step s = .next (s.haltOnOpcode w op) := by
  rw [step_running hs, hf]
  simp only [hd]

theorem step_of_exec {s t : State} {w : Word} {i : Instr} (hs : s.halted = false) (hf : fetch s = .ok w)
    (hd : decode s.cfg w = .instr i) (he : exec i (s.fetched w) = .next t) : step s = .next t.commit := by
  rw [step_running hs, hf]
  simp only [hd, he, commitResult]

/-- The fetched word determines the instruction executed. -/
theorem executes_unique {s : State} {w : Word} {i j : Instr} (hf : fetch s = .ok w) (hd : decode s.cfg w = .instr i)
    (h : Executes s j) : j = i := by
  obtain ⟨v, hv, hj⟩ := h
  obtain rfl : w = v := Except.ok.inj (hf.symm.trans hv)
  exact Decoded.instr.inj (hj.symm.trans hd)

@[simp] theorem haltOnOpcode_mstatus (s : State) (w : Word) (op : Opcode) :
    (s.haltOnOpcode w op).mstatus = s.mstatus := by simp [State.haltOnOpcode]
@[simp] theorem haltOnOpcode_mepc (s : State) (w : Word) (op : Opcode) : (s.haltOnOpcode w op).mepc = s.mepc := by
  simp [State.haltOnOpcode]
@[simp] theorem haltOnOpcode_halted (s : State) (w : Word) (op : Opcode) : (s.haltOnOpcode w op).halted = true := by
  simp [State.haltOnOpcode]

end Sys2Proof.Proofs
end

section
/-! PROOFS. What an instruction's effect can do to the halt latch, to the invariant, to the CSRs and to next_pc. -/

namespace Sys2Proof.Proofs

open Sys2Proof.Machine Sys2Proof.Statements

/-! ### The halt latch (R29) -/

/-- An executed instruction leaves the latch as it was or sets it. -/
theorem effect_keeps_latch {i : Instr} {s t : State} (e : Effect i s t) (h : s.halted = true) : t.halted = true := by
  cases e <;> simp [h]

/-- From a running engine only EBREAK and a failing load or store set the latch (R191, R242). -/
theorem exec_halts_iff {i : Instr} {s t : State} (h : exec i s = .next t) (hs : s.halted = false) :
    t.halted = true ↔ i = .ebreak ∨
      ∃ k rs1 imm, dataAccess i = some (k, rs1, imm) ∧ (accessFault k (effectiveAddr s rs1 imm)).isSome = true := by
  constructor
  · intro ht
    cases exec_effect h with
    | ebreak hi => exact .inl hi
    | accessFault k rs1 imm f hi hf => exact .inr ⟨k, rs1, imm, hi, by rw [hf]; rfl⟩
    | _ => simp [hs] at ht
  · rintro (rfl | ⟨k, rs1, imm, hi, hf⟩)
    · cases h
      rfl
    · obtain ⟨f, hf⟩ := Option.isSome_iff_exists.mp hf
      rw [exec_of_accessFault hi hf] at h
      cases h
      rfl

/-! ### The invariant -/

/-- The invariant looks at RAM, the registers and the halt alone. -/
theorem inv_congr {s t : State} (hram : t.ram = s.ram) (hregs : t.regs = s.regs) (hhalted : t.halted = s.halted)
    (hcause : t.haltCause = s.haltCause) (h : s.Inv) : t.Inv := by
  unfold State.Inv
  rw [hram, hhalted, hcause]
  simp only [hregs]
  exact h

theorem inv_setReg {s : State} (h : s.Inv) (rd : Reg) (v : Word) : (s.setReg rd v).Inv := by
  obtain ⟨hwf, hin, hzero, hhalt⟩ := h
  exact ⟨by simpa using hwf, by simpa using hin, (setReg_regs_zero s rd v).trans hzero, by simpa using hhalt⟩

theorem inv_halt {s : State} (h : s.Inv) (c : HaltCause) : (s.halt c).Inv := by
  obtain ⟨hwf, hin, hzero, -⟩ := h
  exact ⟨hwf, hin, hzero, rfl⟩

theorem inv_commit {s : State} (h : s.Inv) : s.commit.Inv :=
  inv_congr (by simp) (by simp) (by simp) (by simp) h

theorem inv_fetched {s : State} (h : s.Inv) (w : Word) : (s.fetched w).Inv := inv_congr rfl rfl rfl rfl h

theorem inv_store {s : State} (h : s.Inv) {k : MemKind} {a : Word} (hr : inRam a = true) (ha : aligned k a = true)
    (v : Word) : ({ s with ram := s.ram.store k a.toNat v } : State).Inv := by
  obtain ⟨hwf, hin, hzero, hhalt⟩ := h
  obtain ⟨hlow, hhigh⟩ := access_within hr ha
  exact ⟨store_wf hwf _ _ _, store_within hin hlow hhigh v, hzero, hhalt⟩

/-- Whatever an instruction does keeps the invariant. -/
theorem effect_keeps_inv {i : Instr} {s t : State} (e : Effect i s t) (h : s.Inv) : t.Inv := by
  cases e with
  | reg rd v => exact inv_setReg h rd v
  | jump target rd v => exact inv_setReg (s := s.setNextPc target) (inv_congr rfl rfl rfl rfl h) rd v
  | branch target => exact inv_congr rfl rfl rfl rfl h
  | none => exact h
  | event => exact inv_congr rfl rfl rfl rfl h
  | store k rs2 rs1 imm hi hs hr ha => exact inv_store h hr ha _
  | csr c v rd old => exact inv_setReg (inv_congr (by simp) (by simp) (by simp) (by simp) h) rd old
  | reti => exact inv_congr rfl rfl rfl rfl h
  | ebreak => exact inv_halt h _
  | accessFault => exact inv_halt h _

/-- The state at construction meets the invariant over every sound RAM. -/
theorem inv_initial (cfg : Config) {ram : Memory} (hwf : ram.wf = true) (hin : ram.within = true) :
    (State.initial cfg ram).Inv :=
  ⟨hwf, hin, by simp, rfl⟩

/-! ### CSRs and next_pc (R25, R31) -/

/-- mstatus changes by RETI and by a CSR instruction on 0x300 alone (R249). -/
theorem effect_mstatus {i : Instr} {s t : State} (e : Effect i s t) (h : t.mstatus ≠ s.mstatus) :
    i = .reti ∨ csrTarget i = some 0x300#12 := by
  cases e with
  | reti hi => exact .inl hi
  | csr c v rd old hi =>
    rw [setReg_mstatus, csrWrite_mstatus] at h
    by_cases hc : c = 0x300#12
    · exact .inr (hc ▸ hi)
    · simp [hc] at h
  | _ => simp at h

/-- mepc changes by a CSR instruction on 0x341 alone (R248). -/
theorem effect_mepc {i : Instr} {s t : State} (e : Effect i s t) (h : t.mepc ≠ s.mepc) :
    csrTarget i = some 0x341#12 := by
  cases e with
  | csr c v rd old hi =>
    rw [setReg_mepc, csrWrite_mepc] at h
    by_cases hc : c = 0x341#12
    · exact hc ▸ hi
    · simp [hc] at h
  | _ => simp at h

/-- Only jumps, branches and RETI stage a next_pc of their own. -/
theorem effect_nextPc {i : Instr} {s t : State} (e : Effect i s t) (h : t.nextPc ≠ s.nextPc) :
    isTransfer i = true := by
  cases e with
  | jump target rd v hi => exact hi
  | branch target hi => exact hi
  | reti hi => exact hi ▸ rfl
  | _ => simp at h

end Sys2Proof.Proofs
end

section
/-! PROOFS. Noninterference: the halt latch and mstatus choose nothing that an instruction does. Two states that differ
in them make the same update, and no update carries them into another part of the state. -/

namespace Sys2Proof.Proofs

open Sys2Proof.Machine Sys2Proof.Statements

/-! ### Updates -/

/-- What an executed instruction does to the state once its operands are read. -/
inductive Update where
  | reg (rd : Reg) (v : Word)
  | jump (target : Word) (rd : Reg) (v : Word)
  | branch (target : Word)
  | none
  | emit (e : OutEvent)
  | ram (m : Memory)
  | csr (c : CsrNum) (v : Word) (rd : Reg) (old : Word)
  | reti
  | halt (c : HaltCause)

/-- The update carried out. -/
def Update.apply (a : Update) (s : State) : State :=
  match a with
  | .reg rd v => s.setReg rd v
  | .jump target rd v => (s.setNextPc target).setReg rd v
  | .branch target => s.setNextPc target
  | .none => s
  | .emit e => s.emit e
  | .ram m => { s with ram := m }
  | .csr c v rd old => (s.csrWrite c v).setReg rd old
  | .reti => s.returnFromInterrupt
  | .halt c => s.halt c

/-- The state with another halt latch and another mstatus. -/
def overlay (s : State) (b : Bool) (m : Word) : State := { s with halted := b, mstatus := m }

theorem overlay_setReg (s : State) (b : Bool) (m : Word) (r : Reg) (v : Word) :
    (overlay s b m).setReg r v = overlay (s.setReg r v) b m := by
  unfold State.setReg
  split <;> rfl

/-- A write of mstatus itself replaces the other mstatus. -/
theorem overlay_csrWrite (s : State) (b : Bool) (m : Word) (c : CsrNum) (v : Word) :
    ∃ m', (overlay s b m).csrWrite c v = overlay (s.csrWrite c v) b m' := by
  unfold State.csrWrite
  split
  · exact ⟨v, rfl⟩
  · exact ⟨m, by split <;> rfl⟩

theorem commit_withMstatus (s : State) (m : Word) :
    State.commit { s with mstatus := m } = { s.commit with mstatus := m } := by
  cases hh : s.halted <;> cases hp : s.cfg.pcAfterHalt <;> simp [State.commit, hh, hp]

theorem haltOnOpcode_withMstatus (s : State) (m : Word) (w : Word) (op : Opcode) :
    State.haltOnOpcode { s with mstatus := m } w op = { s.haltOnOpcode w op with mstatus := m } :=
  commit_withMstatus ((s.fetched w).halt (.unknownOpcode op)) m

/-- No update carries the latch or mstatus into another part of the state. -/
theorem apply_overlay (a : Update) (s : State) (b : Bool) (m : Word) :
    ∃ b' m', a.apply (overlay s b m) = overlay (a.apply s) b' m' := by
  cases a with
  | reg rd v => exact ⟨b, m, overlay_setReg s b m rd v⟩
  | jump target rd v => exact ⟨b, m, overlay_setReg (s.setNextPc target) b m rd v⟩
  | branch target => exact ⟨b, m, rfl⟩
  | none => exact ⟨b, m, rfl⟩
  | emit e => exact ⟨b, m, rfl⟩
  | ram r => exact ⟨b, m, rfl⟩
  | csr c v rd old =>
    obtain ⟨m', h⟩ := overlay_csrWrite s b m c v
    exact ⟨b, m', (congrArg (State.setReg · rd old) h).trans (overlay_setReg (s.csrWrite c v) b m' rd old)⟩
  | reti => exact ⟨b, m ||| interruptEnable s.cfg, rfl⟩
  | halt c => exact ⟨true, m, rfl⟩

/-- The latch after an update comes of the latch before it. -/
theorem apply_halted_congr {s u : State} (h : u.halted = s.halted) (a : Update) :
    (a.apply u).halted = (a.apply s).halted := by
  cases a <;> simp [Update.apply, h]

/-- mstatus after an update comes of mstatus and the parameters before it. -/
theorem apply_mstatus_congr {s u : State} (h : u.mstatus = s.mstatus) (hcfg : u.cfg = s.cfg) (a : Update) :
    (a.apply u).mstatus = (a.apply s).mstatus := by
  cases a <;> simp [Update.apply, csrWrite_mstatus, h, hcfg]

/-- Under another latch an update leaves the same state but for the latch. -/
theorem apply_withLatch (a : Update) (s : State) (b : Bool) :
    ∃ b', a.apply { s with halted := b } = { a.apply s with halted := b' } := by
  obtain ⟨b', m', h⟩ := apply_overlay a s b s.mstatus
  have hm : (overlay (a.apply s) b' m').mstatus = (a.apply s).mstatus :=
    h ▸ apply_mstatus_congr (s := s) (u := overlay s b s.mstatus) rfl rfl a
  obtain rfl : m' = (a.apply s).mstatus := hm
  exact ⟨b', h⟩

/-- Under another mstatus an update leaves the same state but for mstatus. -/
theorem apply_withMstatus (a : Update) (s : State) (m : Word) :
    ∃ m', a.apply { s with mstatus := m } = { a.apply s with mstatus := m' } := by
  obtain ⟨b', m', h⟩ := apply_overlay a s s.halted m
  have hb : (overlay (a.apply s) b' m').halted = (a.apply s).halted :=
    h ▸ apply_halted_congr (s := s) (u := overlay s s.halted m) rfl a
  obtain rfl : b' = (a.apply s).halted := hb
  exact ⟨m', h⟩

/-! ### The update does not depend on the latch or on mstatus -/

/-- Two answers, from `s` and from `u`, come of one update. -/
def SameUpdate (s u : State) (r r' : Result) : Prop := ∃ a : Update, r = .next (a.apply s) ∧ r' = .next (a.apply u)

/-- A CSR reads the same unless it is mstatus itself. -/
theorem csrRead_overlay {s : State} {m : Word} {c : CsrNum} (b : Bool) (h : m = s.mstatus ∨ c ≠ 0x300#12) :
    (overlay s b m).csrRead c = s.csrRead c := by
  rcases h with rfl | hc
  · rfl
  · simp [State.csrRead, csrMstatus, hc, overlay]

theorem sameUpdate_load (k : MemKind) (keep : Word → Word) (rd rs1 : Reg) (imm : Word) (s : State) (b : Bool)
    (m : Word) :
    SameUpdate s (overlay s b m) (loadInto k keep rd rs1 imm s) (loadInto k keep rd rs1 imm (overlay s b m)) := by
  have hread : memRead (overlay s b m) k (effectiveAddr s rs1 imm) = memRead s k (effectiveAddr s rs1 imm) :=
    memRead_congr rfl _ _
  rcases loadInto_cases k keep rd rs1 imm s with ⟨f, hf, h⟩ | ⟨v, hv, h⟩
  · exact ⟨.halt (.accessFault f.kind f.addr), h,
      loadInto_of_accessFault (s := overlay s b m) (memRead_error hf) keep rd⟩
  · exact ⟨.reg rd (keep v), h, loadInto_of_read (hread.trans hv) keep rd⟩

theorem sameUpdate_store (k : MemKind) (rs2 rs1 : Reg) (imm : Word) (s : State) (b : Bool) (m : Word) :
    SameUpdate s (overlay s b m) (storeFrom k rs2 rs1 imm s) (storeFrom k rs2 rs1 imm (overlay s b m)) := by
  rcases storeFrom_cases k rs2 rs1 imm s with ⟨f, hf, h⟩ | ⟨p, hp, h⟩ | ⟨hr, ha, h⟩
  · exact ⟨.halt (.accessFault f.kind f.addr), h,
      storeFrom_of_accessFault (s := overlay s b m) (memWrite_error hf) rs2⟩
  · exact ⟨.emit (p.event (s.x rs2)), h, storeFrom_of_port (s := overlay s b m) hp k rs2⟩
  · exact ⟨.ram (s.ram.store k (effectiveAddr s rs1 imm).toNat (s.x rs2)), h,
      storeFrom_of_ram (s := overlay s b m) hr ha rs2⟩

theorem sameUpdate_branch (cond : Bool) (off : Word) (s : State) (b : Bool) (m : Word) :
    SameUpdate s (overlay s b m) (branchIf cond off s) (branchIf cond off (overlay s b m)) := by
  cases cond
  · exact ⟨.none, rfl, rfl⟩
  · exact ⟨.branch (relativeTarget s off), rfl, rfl⟩

theorem sameUpdate_csr {s u : State} {c : CsrNum} {v v' : Word} (cond : Bool) (rd : Reg)
    (hread : u.csrRead c = s.csrRead c) (hv : v' = v) :
    SameUpdate s u (csrUpdate cond rd c v s) (csrUpdate cond rd c v' u) := by
  subst hv
  unfold csrUpdate
  rw [hread]
  cases cond
  · exact ⟨.reg rd (s.csrRead c), rfl, rfl⟩
  · exact ⟨.csr c v' rd (s.csrRead c), rfl, rfl⟩

/-- Every instruction makes the same update whatever the latch holds, and whatever mstatus holds unless the instruction
is a CSR instruction on 0x300. -/
theorem exec_sameUpdate {i : Instr} {s : State} {m : Word} (b : Bool)
    (h : m = s.mstatus ∨ csrTarget i ≠ some 0x300#12) :
    SameUpdate s (overlay s b m) (exec i s) (exec i (overlay s b m)) := by
  have hcsr : ∀ c, csrTarget i = some c → (overlay s b m).csrRead c = s.csrRead c := fun c hc =>
    csrRead_overlay b (h.imp id fun hne e => hne (e ▸ hc))
  cases i
  case jal => exact ⟨.jump _ _ _, rfl, rfl⟩
  case jalr => exact ⟨.jump _ _ _, rfl, rfl⟩
  case beq => exact sameUpdate_branch _ _ s b m
  case bne => exact sameUpdate_branch _ _ s b m
  case blt => exact sameUpdate_branch _ _ s b m
  case bge => exact sameUpdate_branch _ _ s b m
  case bltu => exact sameUpdate_branch _ _ s b m
  case bgeu => exact sameUpdate_branch _ _ s b m
  case lb => exact sameUpdate_load _ _ _ _ _ s b m
  case lh => exact sameUpdate_load _ _ _ _ _ s b m
  case lw => exact sameUpdate_load _ _ _ _ _ s b m
  case lbu => exact sameUpdate_load _ _ _ _ _ s b m
  case lhu => exact sameUpdate_load _ _ _ _ _ s b m
  case sb => exact sameUpdate_store _ _ _ _ s b m
  case sh => exact sameUpdate_store _ _ _ _ s b m
  case sw => exact sameUpdate_store _ _ _ _ s b m
  case ebreak => exact ⟨.halt .ebreak, rfl, rfl⟩
  case reti => exact ⟨.reti, rfl, rfl⟩
  case wfi => exact ⟨.none, rfl, rfl⟩
  case csrrw rd rs1 c => exact sameUpdate_csr true rd (hcsr c rfl) rfl
  case csrrs rd rs1 c => exact sameUpdate_csr _ rd (hcsr c rfl) (congrArg (· ||| s.x rs1) (hcsr c rfl))
  case csrrc rd rs1 c => exact sameUpdate_csr _ rd (hcsr c rfl) (congrArg (· &&& ~~~(s.x rs1)) (hcsr c rfl))
  case csrrwi rd imm5 c => exact sameUpdate_csr true rd (hcsr c rfl) rfl
  case csrrsi rd imm5 c => exact sameUpdate_csr _ rd (hcsr c rfl) (congrArg (· ||| zext5 imm5) (hcsr c rfl))
  case csrrci rd imm5 c => exact sameUpdate_csr _ rd (hcsr c rfl) (congrArg (· &&& ~~~(zext5 imm5)) (hcsr c rfl))
  all_goals exact ⟨.reg _ _, rfl, rfl⟩

/-- No instruction reads the latch (R29). -/
theorem exec_withLatch {i : Instr} {s t : State} (b : Bool) (h : exec i s = .next t) :
    ∃ b', exec i { s with halted := b } = .next { t with halted := b' } := by
  obtain ⟨a, hs, hu⟩ := exec_sameUpdate (i := i) (s := s) (m := s.mstatus) b (.inl rfl)
  obtain ⟨b', hb⟩ := apply_withLatch a s b
  rw [hs] at h
  cases h
  exact ⟨b', hu.trans (congrArg _ hb)⟩

/-- Unless it is a CSR instruction on 0x300, an instruction carries mstatus to mstatus alone (R32, R250). -/
theorem exec_withMstatus {i : Instr} (s : State) (m : Word) (h : csrTarget i ≠ some 0x300#12) :
    ∃ t m', exec i s = .next t ∧ exec i { s with mstatus := m } = .next { t with mstatus := m' } := by
  obtain ⟨a, hs, hu⟩ := exec_sameUpdate (i := i) (s := s) (m := m) s.halted (.inr h)
  obtain ⟨m', hm⟩ := apply_withMstatus a s m
  exact ⟨a.apply s, m', hs, hu.trans (congrArg _ hm)⟩

end Sys2Proof.Proofs
end

section
/-! PROOFS. The statements about the state: the halt latch, the invariant, the CSRs, pc, registers, construction and the
host's reset. -/

namespace Sys2Proof.Proofs

open Sys2Proof.Machine Sys2Proof.Statements

/-! ### The halt latch -/

/-- A step ends halted by one of the four events and by nothing else. -/
theorem step_halts_iff {s t : State} (h : step s = .next t) :
    t.halted = true ↔
      (∃ f, fetch s = .error f) ∨
      (∃ w, fetch s = .ok w ∧ s.cfg.opcodeMap.lookup (w.extractLsb' 0 7) = none) ∨
      Executes s .ebreak ∨
      (∃ i k rs1 imm, Executes s i ∧ dataAccess i = some (k, rs1, imm) ∧ ¬IsPort (effectiveAddr s rs1 imm) ∧
        (¬IsRam (effectiveAddr s rs1 imm) ∨ (effectiveAddr s rs1 imm).toNat % k.bytes ≠ 0)) := by
  obtain ⟨hs, ⟨f, hf, rfl⟩ | ⟨w, op, hf, hd, rfl⟩ | ⟨w, i, u, hf, hd, he, rfl⟩⟩ := step_cases h
  · exact iff_of_true rfl (.inl ⟨f, hf⟩)
  · exact iff_of_true (haltOnOpcode_halted s w op) (.inr (.inl ⟨w, hf, ((decode_unknownOpcode_iff _ _ _).mp hd).1⟩))
  · rw [commit_halted, exec_halts_iff he hs]
    simp only [accessFault_isSome_iff]
    constructor
    · rintro (rfl | ⟨k, rs1, imm, hi, hbad⟩)
      · exact .inr (.inr (.inl ⟨w, hf, hd⟩))
      · exact .inr (.inr (.inr ⟨i, k, rs1, imm, ⟨w, hf, hd⟩, hi, hbad⟩))
    · rintro (⟨f, hf'⟩ | ⟨v, hv, hnone⟩ | hx | ⟨j, k, rs1, imm, hx, hj, hbad⟩)
      · rw [hf] at hf'
        cases hf'
      · obtain rfl : w = v := Except.ok.inj (hf.symm.trans hv)
        obtain ⟨n, hsome, -⟩ := (decode_instr_iff _ _ _).mp hd
        rw [hnone] at hsome
        cases hsome
      · exact .inl (executes_unique hf hd hx).symm
      · obtain rfl := executes_unique hf hd hx
        exact .inr ⟨k, rs1, imm, hj, hbad⟩

/-- Settles O14: the four events by `step_halts_iff`, no clearing by the shapes of `Effect`, no reading by
`exec_withLatch`. -/
theorem haltLatchIsSetByTheFourEventsAlone : Obligations.HaltLatchIsSetByTheFourEventsAlone := by
  refine ⟨fun s t h => step_halts_iff h, fun i s t h hs => effect_keeps_latch (exec_effect h) hs,
    fun i s t b h => ?_, fun s t hs h => ?_, fun s => rfl⟩
  · obtain ⟨b', hu⟩ := exec_withLatch b h
    exact ⟨_, hu, rfl⟩
  · obtain ⟨hrunning, -⟩ := step_cases h
    rw [hs] at hrunning
    cases hrunning

/-! ### The invariant -/

/-- Settles O15, by the three ways a step can end. -/
theorem everyStepKeepsInv : Obligations.EveryStepKeepsInv := by
  intro s t hinv h
  obtain ⟨-, ⟨f, -, rfl⟩ | ⟨w, op, -, -, rfl⟩ | ⟨w, i, u, -, -, he, rfl⟩⟩ := step_cases h
  · exact inv_halt hinv _
  · exact inv_commit (inv_halt (inv_fetched hinv w) _)
  · exact inv_commit (effect_keeps_inv (exec_effect he) (inv_fetched hinv w))

/-- Settles O16: the RAM that is created zeroed is sound. -/
theorem resetMeetsInv : Obligations.ResetMeetsInv := inv_initial Config.default zeroed_wf zeroed_within

/-! ### mstatus and mepc -/

/-- Settles O21: fetch and decode do not look at mstatus, the executed instruction carries it to mstatus alone, and so
does the commit. -/
theorem mstatusInfluencesNothingElse : Obligations.MstatusInfluencesNothingElse := by
  intro s v hs hcsr
  have hfetch : fetch { s with mstatus := v } = fetch s := fetch_congr rfl rfl
  cases hf : fetch s with
  | error f => exact ⟨_, _, step_of_fetchFault hs hf, step_of_fetchFault hs (hfetch.trans hf), rfl⟩
  | ok w =>
    cases hd : decode s.cfg w with
    | unknownOpcode op =>
      refine ⟨_, _, step_of_unknownOpcode hs hf hd, step_of_unknownOpcode hs (hfetch.trans hf) hd, ?_⟩
      rw [haltOnOpcode_withMstatus]
    | instr i =>
      obtain ⟨t, m, ht, hu⟩ := exec_withMstatus (s.fetched w) v (hcsr i ⟨w, hf, hd⟩)
      refine ⟨_, _, step_of_exec hs hf hd ht, step_of_exec hs (hfetch.trans hf) hd hu, ?_⟩
      rw [commit_withMstatus]

/-- Settles O19: a halt before execution writes neither CSR, and the rest is `effect_mstatus` and `effect_mepc`. -/
theorem csrsChangeOnlyByTheirInstructions : Obligations.CsrsChangeOnlyByTheirInstructions := by
  intro s t h
  obtain ⟨-, ⟨f, -, rfl⟩ | ⟨w, op, -, -, rfl⟩ | ⟨w, i, u, hf, hd, he, rfl⟩⟩ := step_cases h
  · simp
  · simp
  · have hx : Executes s i := ⟨w, hf, hd⟩
    rw [commit_mstatus, commit_mepc]
    refine ⟨fun hne => ?_, fun hne => ⟨i, hx, effect_mepc (exec_effect he) hne⟩⟩
    rcases effect_mstatus (exec_effect he) hne with rfl | hi
    · exact .inl hx
    · exact .inr ⟨i, hx, hi⟩

/-! ### pc, next_pc and ir -/

/-- Settles O20: a step that does not halt executed an instruction, and the commit moves pc to next_pc. -/
theorem onlyTransfersLeaveTheSequence : Obligations.OnlyTransfersLeaveTheSequence := by
  intro s t h hrun
  obtain ⟨-, ⟨f, -, rfl⟩ | ⟨w, op, -, -, rfl⟩ | ⟨w, i, u, hf, hd, he, rfl⟩⟩ := step_cases h
  · simp at hrun
  · simp at hrun
  · rw [commit_halted] at hrun
    rw [commit_nextPc, commit_pc, hrun]
    exact ⟨by simp, fun hne => ⟨i, ⟨w, hf, hd⟩, effect_nextPc (exec_effect he) (by simpa using hne)⟩⟩

/-- Settles O9: the access tests of the fetch answer the fault, and the engine halts with it. -/
theorem fetchFaultHaltsBeforeDecode : Obligations.FetchFaultHaltsBeforeDecode :=
  fun s hs =>
    ⟨fun hp hr => step_of_fetchFault hs (memRead_of_accessFault (accessFault_outOfRange hp hr) s),
     fun hr ha => step_of_fetchFault hs (memRead_of_accessFault (accessFault_misaligned (k := .word) hr ha) s)⟩

/-- Settles O22: the fetch looks at neither field and overwrites both. -/
theorem earlierIrAndNextPcNeverMatter : Obligations.EarlierIrAndNextPcNeverMatter := by
  intro s ir nextPc w hf
  have hfetch : fetch { s with ir := ir, nextPc := nextPc } = .ok w := (fetch_congr rfl rfl).trans hf
  have hfetched (v : Word) : State.fetched { s with ir := ir, nextPc := nextPc } v = s.fetched v := rfl
  unfold step State.haltOnOpcode
  simp only [hfetch, hf, hfetched]

/-! ### Registers and CSRs -/

/-- Settles O29, by the one rule of a read after a register write. -/
theorem registerZeroIsHardWired : Obligations.RegisterZeroIsHardWired :=
  fun s r q v _ => ⟨x_zero _, x_zero _, setReg_x s r v q⟩

/-- Settles O30: the read and the write rule of the CSR file, and the frame of a CSR write. -/
theorem csrFileStoresTwoRegisters : Obligations.CsrFileStoresTwoRegisters :=
  fun s c d v =>
    ⟨rfl, csrWrite_csrWritten s c v, csrRead_csrWrite s c d v, x_congr (csrWrite_regs s c v), fun _ => by simp,
      by simp, ⟨by simp, by simp⟩, ⟨by simp, by simp, by simp⟩, by simp⟩

/-! ### Construction and the host's reset -/

/-- RAM at construction: the image, and 0 beyond it and below it (R61, R62). -/
theorem byte_zeroed_setBytes (a : Nat) (image : List Byte) (b : Nat) :
    (Memory.zeroed.setBytes a image).byte b = if a ≤ b then image.getD (b - a) 0#8 else 0#8 := by
  rw [byte_setBytes zeroed_wf, zeroed_byte]
  by_cases hlow : a ≤ b
  · by_cases hhigh : b < a + image.length
    · rw [if_pos ⟨hlow, hhigh⟩, if_pos hlow]
    · rw [if_neg (fun h => hhigh h.2), if_pos hlow, List.getD_eq_default _ _ (by omega)]
  · rw [if_neg (fun h => hlow h.1), if_neg hlow]

theorem construct_of_le {cfg : Config} {image : List Byte} (h : image.length ≤ 0x2000000) :
    construct cfg image = .next (State.initial cfg (Memory.zeroed.setBytes ramBase image)) := by
  rw [construct, loadImage_of_le h]

theorem construct_of_lt {cfg : Config} {image : List Byte} (h : 0x2000000 < image.length) :
    construct cfg image = .refused (.imageTooLarge image.length) := by
  rw [construct, loadImage_of_lt h]

theorem stateLoadImage_of_le {s : State} {image : List Byte} (h : image.length ≤ 0x2000000) :
    s.loadImage image = .next { s with ram := s.ram.setBytes ramBase image } := by
  rw [State.loadImage, loadImage_of_le h]

/-- An image that fits ends inside RAM (R61). -/
theorem image_end_le_ramEnd {image : List Byte} (h : image.length ≤ 0x2000000) :
    ramBase + image.length ≤ ramEnd := by
  unfold ramBase ramEnd
  omega

/-- Settles O56: an image that fits is written over the zeroed RAM, which keeps RAM sound. -/
theorem constructionLoadsImage : Obligations.ConstructionLoadsImage := by
  refine fun cfg image => ⟨fun h => ⟨_, construct_of_le h, ?_, rfl, rfl, rfl, rfl, rfl, rfl, ?_, ?_⟩, construct_of_lt⟩
  · exact inv_initial cfg (setBytes_wf zeroed_wf _ _)
      (setBytes_within zeroed_within le_rfl (image_end_le_ramEnd h))
  · exact initial_x cfg _
  · exact byte_zeroed_setBytes ramBase image

/-- Settles O57: the reset builds the initial state over the same RAM, and a later image is one run of bytes written. -/
theorem hostResetKeepsRam : Obligations.HostResetKeepsRam :=
  fun s image =>
    ⟨⟨rfl, rfl, rfl, rfl, rfl, rfl, rfl, rfl, initial_x s.cfg s.ram⟩,
     fun hwf h => ⟨_, stateLoadImage_of_le h, rfl, setBytes_wf hwf _ _, byte_setBytes hwf ramBase image⟩⟩

/-- Settles O58: the register values come from `initial_x`, every entry of the default INIT_REGS being 0. -/
theorem resetValues : Obligations.ResetValues := by
  refine ⟨rfl, fun r => ?_, rfl, rfl, rfl, rfl, rfl, zeroed_byte, rfl⟩
  rw [State.reset, initial_x]
  split
  · rfl
  · simp [Config.default]

end Sys2Proof.Proofs
end

section
/-! PROOFS. Decode of encode, format by format: every field that the encoder places is read back alone. -/

namespace Sys2Proof.Proofs

open Sys2Proof.Machine Sys2Proof.Statements Sys2Proof.Laws

/-! ### Register spans of an encoded word (R71) -/

theorem holds_iff (f : RegField) (p : Nat) : f.holds p = true ↔ f.lo ≤ p ∧ p < f.lo + 5 := by simp [RegField.holds]

theorem read_or (f : RegField) (a b : Word) : f.read (a ||| b) = f.read a ||| f.read b := extract_or a b f.lo 5

theorem read_opcode (f : RegField) (op : Opcode) : f.read (op.setWidth 32) = 0#5 :=
  extract_opcode_zero (regField_lo_bounds f).1 op

theorem read_putReg_same (f : RegField) (r : Reg) : f.read (putReg f r) = r := extract_putReg_same f r

/-- Two of the three spans do not meet (R71). -/
theorem spans_disjoint {f g : RegField} (h : f ≠ g) : f.lo + 5 ≤ g.lo ∨ g.lo + 5 ≤ f.lo := by
  cases f <;> cases g <;> simp [RegField.lo] at h ⊢

theorem read_putReg_of_ne {f g : RegField} (h : f ≠ g) (r : Reg) : f.read (putReg g r) = 0#5 := by
  refine extract_putReg_zero (fun j hj => Bool.eq_false_iff.mpr fun hp => ?_) r
  rw [holds_iff] at hp
  have := spans_disjoint h
  omega

/-- A lawful layout stays out of a span that it must not take. -/
theorem read_place {l : ImmLayout} {taken : Nat → Bool} (h : l.lawful taken = true) {f : RegField}
    (ht : ∀ p, f.holds p = true → taken p = true) (imm : Word) : f.read (l.place imm) = 0#5 := by
  obtain ⟨-, hfree, -⟩ := layout_lawful h
  have hf := regField_lo_bounds f
  refine extract_place_zero (fun p hp hspan => ?_) (by omega) imm
  have htaken := ht p.val ((holds_iff f p).mpr hspan)
  rw [hfree p hp] at htaken
  cases htaken

/-! ### The immediate of an encoded word (R76 to R79) -/

/-- The bits below an immediate that are 0 wherever the layout may lie do not disturb it. -/
theorem value_or_place {l : ImmLayout} {taken : Nat → Bool} {imm low : Word} (h : l.lawful taken = true)
    (hfits : l.fits imm = true) (hlow : ∀ p, taken p = false → low.getLsbD p = false) :
    l.value (low ||| l.place imm) = imm := by
  obtain ⟨hnodup, hfree, hwidth⟩ := layout_lawful h
  refine value_of_place hnodup hwidth hfits fun p hp => ?_
  rw [BitVec.getLsbD_or, hlow p.val (hfree p hp), Bool.false_or]

theorem opcode_getLsbD {p : Nat} (h : 7 ≤ p) (op : Opcode) : (op.setWidth 32).getLsbD p = false := by
  rw [BitVec.getLsbD_setWidth, BitVec.getLsbD_of_ge op p h, Bool.and_false]

/-! ### The formats (R74) -/

/-- An opcode, two registers and an immediate in places of their own: all three operands are read back. This is the
shape of formats I, S and B. -/
theorem fields_of_registers_imm {l : ImmLayout} {taken : Nat → Bool} {f g : RegField} {imm : Word}
    (h : l.lawful taken = true) (hop : ∀ p < 7, taken p = true) (hf : ∀ p, f.holds p = true → taken p = true)
    (hg : ∀ p, g.holds p = true → taken p = true) (hne : f ≠ g) (hfits : l.fits imm = true) (op : Opcode)
    (r q : Reg) {w : Word} (hw : w = op.setWidth 32 ||| (putReg f r ||| putReg g q ||| l.place imm)) :
    f.read w = r ∧ g.read w = q ∧ l.value w = imm := by
  subst hw
  refine ⟨?_, ?_, ?_⟩
  · simp [read_or, read_opcode, read_putReg_same, read_putReg_of_ne hne, read_place h hf]
  · simp [read_or, read_opcode, read_putReg_same, read_putReg_of_ne hne.symm, read_place h hg]
  · rw [← BitVec.or_assoc]
    refine value_or_place h hfits fun p hp => ?_
    have hfree : ¬taken p = true := by simp [hp]
    have hop' : 7 ≤ p := not_lt.mp (mt (hop p) hfree)
    have hf' : f.holds p = false := Bool.eq_false_iff.mpr (mt (hf p) hfree)
    have hg' : g.holds p = false := Bool.eq_false_iff.mpr (mt (hg p) hfree)
    simp [opcode_getLsbD hop', putReg_getLsbD_of_not_holds hf', putReg_getLsbD_of_not_holds hg']

theorem lt_of_rd_holds {p : Nat} (h : RegField.rd.holds p = true) : p < 12 := by
  rw [holds_iff] at h
  exact h.2

theorem lt_of_rs1_holds {p : Nat} (h : RegField.rs1.holds p = true) : p < 17 := by
  rw [holds_iff] at h
  exact h.2

theorem fields_of_rd_rs1_imm {l : ImmLayout} {imm : Word} (h : l.lawful (fun p => decide (p < 17)) = true)
    (hfits : l.fits imm = true) (op : Opcode) (r q : Reg) {w : Word}
    (hw : w = op.setWidth 32 ||| (putReg .rd r ||| putReg .rs1 q ||| l.place imm)) :
    RegField.rd.read w = r ∧ RegField.rs1.read w = q ∧ l.value w = imm := by
  refine fields_of_registers_imm h (fun p hp => ?_) (fun p hp => ?_) (fun p hp => ?_) (by decide) hfits op r q hw
  · simp only [decide_eq_true_eq]; omega
  · have := lt_of_rd_holds hp
    simp only [decide_eq_true_eq]; omega
  · simpa using lt_of_rs1_holds hp

theorem formatI_encI {cfg : Config} (h : cfg.lawful = true) {imm : Word} (hfits : cfg.immI.fits imm = true)
    (f : Reg → Reg → Word → Instr) (op : Opcode) (rd rs1 : Reg) :
    formatI f cfg (op.setWidth 32 ||| encI cfg rd rs1 imm) = f rd rs1 imm := by
  obtain ⟨-, -, -, hi, -⟩ := config_lawful h
  obtain ⟨hrd, hrs1, himm⟩ := fields_of_rd_rs1_imm hi hfits op rd rs1
    (w := op.setWidth 32 ||| encI cfg rd rs1 imm) rfl
  show f (RegField.rd.read _) (RegField.rs1.read _) (cfg.immI.value _) = _
  rw [hrd, hrs1, himm]

theorem formatS_encS {cfg : Config} (h : cfg.lawful = true) {imm : Word} (hfits : cfg.immS.fits imm = true)
    (f : Reg → Reg → Word → Instr) (op : Opcode) (rs2 rs1 : Reg) :
    formatS f cfg (op.setWidth 32 ||| encS cfg rs2 rs1 imm) = f rs2 rs1 imm := by
  obtain ⟨-, -, -, -, hs, -⟩ := config_lawful h
  obtain ⟨hrs2, hrs1, himm⟩ := fields_of_rd_rs1_imm hs hfits op rs2 rs1
    (w := op.setWidth 32 ||| encS cfg rs2 rs1 imm) rfl
  show f (RegField.rd.read _) (RegField.rs1.read _) (cfg.immS.value _) = _
  rw [hrs2, hrs1, himm]

theorem formatB_encB {cfg : Config} (h : cfg.lawful = true) {off : Word} (hfits : cfg.immB.fits off = true)
    (f : Reg → Reg → Word → Instr) (op : Opcode) (rs1 rs2 : Reg) :
    formatB f cfg (op.setWidth 32 ||| encB cfg rs1 rs2 off) = f rs1 rs2 off := by
  obtain ⟨-, -, -, -, -, -, hb, hne⟩ := config_lawful h
  obtain ⟨hrs1, hrs2, himm⟩ := fields_of_registers_imm hb (by simp +contextual) (by simp +contextual)
    (by simp +contextual) hne hfits op rs1 rs2 (w := op.setWidth 32 ||| encB cfg rs1 rs2 off) rfl
  rw [formatB, hrs1, hrs2, himm]

theorem formatR_encR (cfg : Config) (f : Reg → Reg → Reg → Instr) (op : Opcode) (rd rs1 rs2 : Reg) :
    formatR f cfg (op.setWidth 32 ||| encR rd rs1 rs2) = f rd rs1 rs2 := by
  refine congr (congrArg₂ f (?_ : RegField.rd.read _ = rd) (?_ : RegField.rs1.read _ = rs1))
    (?_ : RegField.rs2Reg.read _ = rs2) <;>
    simp [encR, read_or, read_opcode, read_putReg_same, read_putReg_of_ne]

theorem formatSH_encSH (cfg : Config) (f : Reg → BitVec 5 → Instr) (op : Opcode) (rd : Reg) (imm5 : BitVec 5) :
    formatSH f cfg (op.setWidth 32 ||| encSH rd imm5) = f rd imm5 := by
  refine congrArg₂ f (?_ : RegField.rd.read _ = rd) (?_ : RegField.rs1.read _ = imm5) <;>
    simp [encSH, read_or, read_opcode, read_putReg_same, read_putReg_of_ne]

/-- A field placed above a register span leaves the span 0. -/
theorem read_shiftLeft {f : RegField} {n k : Nat} (h : f.lo + 5 ≤ k) (x : BitVec n) :
    f.read ((x.setWidth 32) <<< k) = 0#5 := extract_shiftLeft_zero x h

/-- A field that reaches the top of the word is read back from its place. -/
theorem extract_shiftLeft_same {n k : Nat} (h : k + n ≤ 32) (x : BitVec n) :
    ((x.setWidth 32) <<< k).extractLsb' k n = x := by
  apply BitVec.eq_of_getLsbD_eq
  intro j hj
  simp [hj, show k + j < 32 by omega]

/-- A register span leaves every stretch of bits above it 0. -/
theorem extract_putReg_of_le {f : RegField} {lo n : Nat} (h : f.lo + 5 ≤ lo) (r : Reg) :
    (putReg f r).extractLsb' lo n = 0#n :=
  extract_putReg_zero (fun j _ => Bool.eq_false_iff.mpr fun hp => by
    rw [holds_iff] at hp
    omega) r

theorem formatCsr_encCsr (cfg : Config) (f : Reg → BitVec 5 → CsrNum → Instr) (op : Opcode) (rd rs1 : Reg)
    (csr : CsrNum) : formatCsr f cfg (op.setWidth 32 ||| encCsr rd rs1 csr) = f rd rs1 csr := by
  have hcsr : (op.setWidth 32 ||| encCsr rd rs1 csr).extractLsb' 20 12 = csr := by
    simp (disch := decide) [encCsr, extract_or, extract_opcode_zero, extract_putReg_of_le, extract_shiftLeft_same]
  refine congr (congrArg₂ f (?_ : RegField.rd.read _ = rd) (?_ : RegField.rs1.read _ = rs1)) hcsr <;>
    simp (disch := decide) [encCsr, read_or, read_opcode, read_putReg_same, read_putReg_of_ne, read_shiftLeft]

theorem fields_of_encU (op : Opcode) (rd : Reg) (imm : BitVec 20) :
    fieldRd (op.setWidth 32 ||| encU rd imm) = rd ∧ fieldImmU (op.setWidth 32 ||| encU rd imm) = imm := by
  refine ⟨(?_ : RegField.rd.read _ = rd), ?_⟩
  · simp (disch := decide) [encU, read_or, read_opcode, read_putReg_same, read_shiftLeft]
  · simp (disch := decide) [fieldImmU, encU, extract_or, extract_opcode_zero, extract_putReg_of_le,
      extract_shiftLeft_same]

theorem fields_of_encJ {cfg : Config} (h : cfg.lawful = true) {off : Word} (hfits : cfg.immJ.fits off = true)
    (op : Opcode) (rd : Reg) {w : Word} (hw : w = op.setWidth 32 ||| (putReg .rd rd ||| cfg.immJ.place off)) :
    fieldRd w = rd ∧ cfg.immJ.value w = off := by
  obtain ⟨-, -, -, -, -, hj, -⟩ := config_lawful h
  subst hw
  refine ⟨(?_ : RegField.rd.read _ = rd), ?_⟩
  · simp [read_or, read_opcode, read_putReg_same,
      read_place hj (f := .rd) (fun p hp => by simpa using lt_of_rd_holds hp)]
  · rw [← BitVec.or_assoc]
    refine value_or_place hj hfits fun p hp => ?_
    have hp : 12 ≤ p := by simpa using hp
    have hrd : RegField.rd.holds p = false := Bool.eq_false_iff.mpr (mt lt_of_rd_holds (by omega))
    simp [opcode_getLsbD (show 7 ≤ p by omega), putReg_getLsbD_of_not_holds hrd]

/-! ### Decode of encode (R71 to R81, R85) -/

/-- The operands of an encoded instruction are read back. -/
theorem build_encode {cfg : Config} {i : Instr} (h : cfg.lawful = true) (hwf : i.wellFormed cfg = true) :
    i.mnemonic.build cfg (encode cfg i) = i := by
  cases i
  case lui rd imm =>
    obtain ⟨hrd, himm⟩ := fields_of_encU (cfg.opcodeFor .lui) rd imm
    exact congrArg₂ Instr.lui hrd himm
  case auipc rd imm =>
    obtain ⟨hrd, himm⟩ := fields_of_encU (cfg.opcodeFor .auipc) rd imm
    exact congrArg₂ Instr.auipc hrd himm
  case jal rd off =>
    obtain ⟨hrd, hoff⟩ := fields_of_encJ h hwf (cfg.opcodeFor .jal) rd rfl
    exact congrArg₂ Instr.jal hrd hoff
  case ecall | ebreak | reti | wfi => rfl
  case jalr | lb | lh | lw | lbu | lhu | addi | slti | sltiu | xori | ori | andi => exact formatI_encI h hwf _ _ _ _
  case sb | sh | sw => exact formatS_encS h hwf _ _ _ _
  case beq | bne | blt | bge | bltu | bgeu => exact formatB_encB h hwf _ _ _ _
  case slli | srli | srai => exact formatSH_encSH cfg _ _ _ _
  case csrrw | csrrs | csrrc | csrrwi | csrrsi | csrrci => exact formatCsr_encCsr cfg _ _ _ _ _
  all_goals exact formatR_encR cfg _ _ _ _ _

/-- No operand bit of an encoded instruction reaches into the opcode field. -/
theorem operandBits_opcode {cfg : Config} (h : cfg.lawful = true) (i : Instr) :
    (i.operandBits cfg).extractLsb' 0 7 = 0#7 := by
  cases i
  case lui | auipc => exact EncodedOpcode.encU_opcode _ _
  case jal => exact EncodedOpcode.encJ_opcode h _ _
  case ecall | ebreak | reti | wfi => rfl
  case jalr | lb | lh | lw | lbu | lhu | addi | slti | sltiu | xori | ori | andi =>
    exact EncodedOpcode.encI_opcode h _ _ _
  case sb | sh | sw => exact EncodedOpcode.encS_opcode h _ _ _
  case beq | bne | blt | bge | bltu | bgeu => exact EncodedOpcode.encB_opcode h _ _ _
  case slli | srli | srai => exact EncodedOpcode.encSH_opcode _ _
  case csrrw | csrrs | csrrc | csrrwi | csrrsi | csrrci => exact EncodedOpcode.encCsr_opcode _ _ _
  all_goals exact EncodedOpcode.encR_opcode _ _ _

/-- The opcode of an encoded instruction selects its name. -/
theorem select_encode {cfg : Config} (h : cfg.lawful = true) (i : Instr) :
    cfg.select (fieldOpcode (encode cfg i)) = some i.mnemonic :=
  EncodedOpcode.of_operandBits (fun _ h => operandBits_opcode h i) cfg h

/-- Decode of encode is the identity on well-formed instructions under lawful parameters. -/
theorem decode_encode {cfg : Config} {i : Instr} (h : cfg.lawful = true) (hwf : i.wellFormed cfg = true) :
    decode cfg (encode cfg i) = .instr i := by
  rw [decode_of_select (select_encode h i), build_encode h hwf]

/-- A stream that begins with the four bytes of a word decodes that word (R45, R70). -/
theorem decodeBytes_bytesOfWord {cfg : Config} {w : Word} {i : Instr} (h : decode cfg w = .instr i)
    (rest : List Byte) : decodeBytes cfg (bytesOfWord w ++ rest) = .instr i rest := by
  simp [bytesOfWord, decodeBytes, wordOfBytes_byteOf, h]

/-- Settles O6: the four bytes assemble to the encoded word, which decodes to the instruction. -/
theorem instructionBytesDecode : Obligations.InstructionBytesDecode :=
  fun _ _ rest h hwf => decodeBytes_bytesOfWord (decode_encode h hwf) rest

end Sys2Proof.Proofs
end

section
/-! PROOFS. The memory subsystem: what an access that passes the tests yields and stores, the fetch through it, and what
a step can do to RAM and to the trace. -/

namespace Sys2Proof.Proofs

open Sys2Proof.Machine Sys2Proof.Statements

/-! ### The halt on an unknown opcode (R243) -/

@[simp] theorem haltOnOpcode_ir (s : State) (w : Word) (op : Opcode) : (s.haltOnOpcode w op).ir = w := by
  simp [State.haltOnOpcode]
@[simp] theorem haltOnOpcode_haltCause (s : State) (w : Word) (op : Opcode) :
    (s.haltOnOpcode w op).haltCause = some (.unknownOpcode op) := by simp [State.haltOnOpcode]
@[simp] theorem haltOnOpcode_trace (s : State) (w : Word) (op : Opcode) : (s.haltOnOpcode w op).trace = s.trace := by
  simp [State.haltOnOpcode]
@[simp] theorem haltOnOpcode_ram (s : State) (w : Word) (op : Opcode) : (s.haltOnOpcode w op).ram = s.ram := by
  simp [State.haltOnOpcode]
@[simp] theorem haltOnOpcode_cfg (s : State) (w : Word) (op : Opcode) : (s.haltOnOpcode w op).cfg = s.cfg := by
  simp [State.haltOnOpcode]

/-! ### Accesses that pass the tests (R43, R46, R51) -/

theorem exists_portAt {a : Word} (h : IsPort a) : ∃ p, portAt a = some p :=
  Option.isSome_iff_exists.mp ((isPort_iff a).mp h)

theorem memRead_of_port {a : Word} (h : IsPort a) (s : State) (k : MemKind) : memRead s k a = .ok 0#32 := by
  obtain ⟨p, hp⟩ := exists_portAt h
  simp [memRead, accessFault, hp]

theorem memRead_of_ram {k : MemKind} {a : Word} (hr : IsRam a) (ha : a.toNat % k.bytes = 0) (s : State) :
    memRead s k a = .ok (s.ram.load k a.toNat) := by
  rw [isRam_iff] at hr
  simp [memRead, accessFault, portAt_of_inRam hr, hr, aligned, ha]

/-- The event of a port write is the one that the port's address calls for (R46, R47). -/
theorem portEvent_of_portAt {a : Word} {p : Port} (h : portAt a = some p) (v : Word) : PortEvent a v (p.event v) := by
  unfold portAt portCharAddr portDecAddr portHexAddr at h
  split at h
  case isTrue ha => cases h; exact .inl ⟨ha, rfl⟩
  split at h
  case isTrue ha => cases h; exact .inr (.inl ⟨ha, rfl⟩)
  split at h
  case isTrue ha => cases h; exact .inr (.inr ⟨ha, rfl⟩)
  cases h

theorem accessFault_of_memRead_ok {s : State} {k : MemKind} {a v : Word} (h : memRead s k a = .ok v) :
    accessFault k a = none := by
  cases hf : accessFault k a with
  | none => rfl
  | some f =>
    rw [memRead_of_accessFault hf] at h
    cases h

theorem accessFault_of_memWrite_ok {s t : State} {k : MemKind} {a v : Word} (h : memWrite s k a v = .ok t) :
    accessFault k a = none := by
  cases hf : accessFault k a with
  | none => rfl
  | some f =>
    rw [memWrite_of_accessFault hf] at h
    cases h

/-- Outside the ports only an aligned access in RAM passes the tests, and it ends inside RAM (R51). -/
theorem bounds_of_accessFault_none {k : MemKind} {a : Word} (hport : ¬IsPort a) (h : accessFault k a = none) :
    0x80000000 ≤ a.toNat ∧ a.toNat + k.bytes ≤ 0x82000000 := by
  rcases accessFault_cases k a with ⟨p, hp, -⟩ | ⟨-, -, he⟩ | ⟨-, -, -, he⟩ | ⟨-, hr, ha, -⟩
  · exact absurd ((isPort_iff a).mpr (by rw [hp]; rfl)) hport
  · rw [he] at h; cases h
  · rw [he] at h; cases h
  · exact access_within hr ha

/-- Settles O26: an access that succeeds has passed the tests. -/
theorem accessesEndInsideRam : Obligations.AccessesEndInsideRam :=
  fun _ _ _ hport =>
    ⟨fun _ h => bounds_of_accessFault_none hport (accessFault_of_memRead_ok h),
     fun _ _ h => bounds_of_accessFault_none hport (accessFault_of_memWrite_ok h)⟩

/-! ### What a read yields (R43 to R45) -/

theorem load_byte_toInt (m : Memory) (a : Nat) : (m.load .byte a).toInt = (m.byte a).toInt :=
  BitVec.toInt_signExtend_of_le (by omega)

theorem toInt_eq_signed16 (h : BitVec 16) : h.toInt = signed16 h.toNat := by
  rw [BitVec.toInt_eq_toNat_cond, signed16]
  split <;> split <;> omega

theorem load_half_toInt (s : State) (a : Nat) : (s.ram.load .half a).toInt = signed16 (halfAt s a) :=
  calc (s.ram.load .half a).toInt
    _ = (halfOfBytes (s.ram.byte a) (s.ram.byte (a + 1))).toInt := BitVec.toInt_signExtend_of_le (by omega)
    _ = signed16 (halfAt s a) := by rw [toInt_eq_signed16, halfOfBytes_toNat, halfAt]

theorem load_word_toNat (s : State) (a : Nat) : (s.ram.load .word a).toNat = wordAt s a := by
  rw [load_word, wordOfBytes_toNat, wordAt]

/-- Settles O23: the ports answer before RAM is looked at, and each width reads its own bytes. -/
theorem readsReturnMemory : Obligations.ReadsReturnMemory :=
  fun s k _ =>
    ⟨fun hp => memRead_of_port hp s k,
     fun hr => ⟨_, memRead_of_ram hr (Nat.mod_one _) s, load_byte_toInt _ _⟩,
     fun hr ha => ⟨_, memRead_of_ram (k := .half) hr ha s, load_half_toInt s _⟩,
     fun hr ha => ⟨_, memRead_of_ram (k := .word) hr ha s, load_word_toNat s _⟩⟩

/-! ### What a write does (R46, R47) -/

theorem onlyEvent_emit (s : State) (e : OutEvent) : OnlyEvent s (s.emit e) e :=
  ⟨fun _ => rfl, ⟨rfl, rfl⟩, fun _ => rfl, rfl, ⟨rfl, rfl⟩, ⟨rfl, rfl, rfl⟩, rfl⟩

/-- A store into canonical RAM has no effect but its own bytes (R45, R46). -/
theorem onlyStore_store {s : State} (hwf : s.ram.wf = true) (k : MemKind) (a : Nat) (v : Word) :
    OnlyStore s { s with ram := s.ram.store k a v } a k.bytes v := by
  refine ⟨fun b => ?_, fun _ => rfl, ⟨rfl, rfl⟩, rfl, ⟨rfl, rfl⟩, ⟨rfl, rfl, rfl⟩, rfl⟩
  simp only [byte_store hwf]
  split
  · exact byteOf_toNat v (b - a)
  · rfl

/-- Settles O24: a port write is one `emit`, a RAM write one store. -/
theorem writesStoreOrEmit : Obligations.WritesStoreOrEmit := by
  refine fun s k a v hwf => ⟨fun hport => ?_, fun hr ha => ?_⟩
  · obtain ⟨p, hp⟩ := exists_portAt hport
    exact ⟨p.event v, _, portEvent_of_portAt hp v, memWrite_of_port hp k s v, onlyEvent_emit s _⟩
  · exact ⟨_, memWrite_of_ram ((isRam_iff a).mp hr) ((aligned_iff k a).mpr ha) s v, onlyStore_store hwf k _ v,
      store_wf hwf k _ v⟩

/-! ### Fetch through the memory subsystem (R55, R56) -/

/-- No lawful OPCODE_MAP assigns the opcode of the word 0 (R73). -/
theorem decode_zero {cfg : Config} (h : cfg.lawful = true) : decode cfg 0#32 = .unknownOpcode 0#7 := by
  obtain ⟨-, -, hzero, -⟩ := config_lawful h
  refine (decode_unknownOpcode_iff cfg _ _).mpr ⟨?_, rfl⟩
  refine List.lookup_eq_none_iff.mpr fun e he => ?_
  have hne : e.1 ≠ 0#7 := fun h0 => hzero (h0 ▸ List.mem_map_of_mem he)
  simpa using hne.symm

/-- Settles O11: the port answers the word 0, whose opcode is unknown. -/
theorem fetchAtPortHalts : Obligations.FetchAtPortHalts := by
  intro s hs hlawful hport
  have hfetch : fetch s = .ok 0#32 := memRead_of_port hport s .word
  exact ⟨_, step_of_unknownOpcode hs hfetch (decode_zero hlawful), haltOnOpcode_halted _ _ _,
    haltOnOpcode_haltCause _ _ _, haltOnOpcode_ir _ _ _⟩

theorem fetch_of_ram {s : State} (hr : IsRam s.pc) (ha : s.pc.toNat % 4 = 0) :
    fetch s = .ok (s.ram.load .word s.pc.toNat) := memRead_of_ram (k := .word) hr ha s

/-- A step that executes SW at an aligned RAM address stores the word and moves on (R138). -/
theorem step_of_sw {s : State} {rs2 rs1 : Reg} {imm : Word} (hs : s.halted = false)
    (hx : Executes s (.sw rs2 rs1 imm)) (hr : IsRam (effectiveAddr s rs1 imm))
    (ha : (effectiveAddr s rs1 imm).toNat % 4 = 0) :
    ∃ t, step s = .next t ∧ t.pc = s.pc + 4#32 ∧ t.halted = false ∧
      t.ram = s.ram.store .word (effectiveAddr s rs1 imm).toNat (s.x rs2) := by
  obtain ⟨w, hf, hd⟩ := hx
  have he := storeFrom_of_ram (s := s.fetched w) (k := .word) ((isRam_iff _).mp hr) ((aligned_iff _ _).mpr ha) rs2
  refine ⟨_, step_of_exec hs hf hd he, ?_, ?_, ?_⟩
  · simp [commit_pc, hs]
  · simp [hs]
  · rw [commit_ram]
    rfl

/-- Settles O28: the store is over when the next fetch reads the stored word back. -/
theorem nextFetchSeesStoredWord : Obligations.NextFetchSeesStoredWord := by
  intro s rs1 rs2 imm hs hwf hx haddr hr ha
  rw [← haddr] at hr ha
  obtain ⟨t, hstep, hpc, hhalt, hram⟩ := step_of_sw hs hx hr ha
  refine ⟨t, hstep, hpc, hhalt, ?_⟩
  rw [← haddr] at hpc
  rw [fetch_of_ram (hpc ▸ hr) (hpc ▸ ha), hpc, hram, load_store_word hwf]

/-! ### What a step can do to RAM, the trace and the parameters (R46, R47, R53) -/

/-- No instruction writes a parameter. -/
theorem effect_cfg {i : Instr} {s t : State} (e : Effect i s t) : t.cfg = s.cfg := by
  cases e <;> simp

/-- Only a store to a port changes the trace, by one event (R47). -/
theorem effect_trace {i : Instr} {s t : State} (e : Effect i s t) :
    t.trace = s.trace ∨ ∃ k rs2 rs1 imm p, dataAccess i = some (k, rs1, imm) ∧ storedRegister i = some rs2 ∧
      portAt (effectiveAddr s rs1 imm) = some p ∧ t.trace = s.trace ++ [p.event (s.x rs2)] := by
  cases e with
  | event k rs2 rs1 imm p hi hs hp => exact .inr ⟨k, rs2, rs1, imm, p, hi, hs, hp, rfl⟩
  | _ => exact .inl (by simp)

/-- Only a store to an aligned RAM address changes RAM (R53, R139). -/
theorem effect_ram {i : Instr} {s t : State} (e : Effect i s t) :
    t.ram = s.ram ∨ ∃ k rs2 rs1 imm, dataAccess i = some (k, rs1, imm) ∧ storedRegister i = some rs2 ∧
      inRam (effectiveAddr s rs1 imm) = true ∧ aligned k (effectiveAddr s rs1 imm) = true ∧
      t.ram = s.ram.store k (effectiveAddr s rs1 imm).toNat (s.x rs2) := by
  cases e with
  | store k rs2 rs1 imm hi hs hr ha => exact .inr ⟨k, rs2, rs1, imm, hi, hs, hr, ha, rfl⟩
  | _ => exact .inl (by simp)

/-- Settles O17: a halt before execution emits nothing, and the rest is `effect_trace`. -/
theorem traceGrowsByPortStoresAlone : Obligations.TraceGrowsByPortStoresAlone := by
  intro s t h
  obtain ⟨-, ⟨f, -, rfl⟩ | ⟨w, op, -, -, rfl⟩ | ⟨w, i, u, hf, hd, he, rfl⟩⟩ := step_cases h
  · exact ⟨rfl, .inl rfl⟩
  · exact ⟨haltOnOpcode_cfg s w op, .inl (haltOnOpcode_trace s w op)⟩
  · rw [commit_cfg, commit_trace]
    refine ⟨(effect_cfg (exec_effect he)).trans (fetched_cfg s w), ?_⟩
    rcases effect_trace (exec_effect he) with hsame | ⟨k, rs2, rs1, imm, p, hi, hreg, hp, htrace⟩
    · exact .inl hsame
    · exact .inr ⟨i, k, rs1, imm, rs2, _, ⟨w, hf, hd⟩, hi, hreg, portEvent_of_portAt hp _, htrace⟩

/-- A byte that a store changes is one of its own (R46). -/
theorem store_changes_own_bytes {m : Memory} (h : m.wf = true) {k : MemKind} {a : Nat} {v : Word} {b : Nat}
    (hne : (m.store k a v).byte b ≠ m.byte b) : a ≤ b ∧ b < a + k.bytes := by
  by_contra hout
  exact hne (by rw [byte_store h, if_neg hout])

/-- Settles O18: a halt before execution leaves RAM, and the rest is `effect_ram`. -/
theorem ramChangesOnlyWhereStoresStore : Obligations.RamChangesOnlyWhereStoresStore := by
  intro s t hwf h a hne
  obtain ⟨-, ⟨f, -, rfl⟩ | ⟨w, op, -, -, rfl⟩ | ⟨w, i, u, hf, hd, he, rfl⟩⟩ := step_cases h
  · exact absurd rfl hne
  · exact absurd (by rw [haltOnOpcode_ram]) hne
  · rw [commit_ram] at hne
    rcases effect_ram (exec_effect he) with hsame | ⟨k, rs2, rs1, imm, hi, hreg, hr, ha, hstore⟩
    · exact absurd (by rw [hsame, fetched_ram]) hne
    · rw [hstore] at hne
      exact ⟨i, k, rs1, imm, rs2, ⟨w, hf, hd⟩, hi, hreg, (isRam_iff _).mpr hr, (aligned_iff _ _).mp ha,
        store_changes_own_bytes hwf hne⟩

end Sys2Proof.Proofs
end

section
/-! PROOFS. The engine always takes a step, and the step runs the instruction that the bytes at pc decode to. -/

namespace Sys2Proof.Proofs

open Sys2Proof.Machine Sys2Proof.Statements

/-- Every instruction answers a next state: what it does is one of the updates (R86). -/
theorem exec_next (i : Instr) (s : State) : ∃ t, exec i s = .next t := by
  obtain ⟨a, h, -⟩ := exec_sameUpdate (i := i) (s := s) (m := s.mstatus) s.halted (.inl rfl)
  exact ⟨a.apply s, h⟩

/-- Settles O13: a fetch fault and an unknown opcode halt in a next state, and every instruction answers one. -/
theorem runningEngineAlwaysSteps : Obligations.RunningEngineAlwaysSteps := by
  intro s hs
  cases hf : fetch s with
  | error f => exact ⟨_, step_of_fetchFault hs hf⟩
  | ok w =>
    cases hd : decode s.cfg w with
    | unknownOpcode op => exact ⟨_, step_of_unknownOpcode hs hf hd⟩
    | instr i =>
      obtain ⟨t, he⟩ := exec_next i (s.fetched w)
      exact ⟨_, step_of_exec hs hf hd he⟩

/-- A fetch from an aligned RAM address yields the word that the four bytes there make (R45, R87). -/
theorem fetch_of_wordAt {s : State} {w : Word} (hr : IsRam s.pc) (ha : s.pc.toNat % 4 = 0)
    (hw : w.toNat = wordAt s s.pc.toNat) : fetch s = .ok w := by
  rw [fetch_of_ram hr ha, BitVec.eq_of_toNat_eq ((load_word_toNat s s.pc.toNat).trans hw.symm)]

/-- The commit as one choice (R88). -/
theorem commit_eq_ite (s : State) :
    s.commit = if s.halted = true ∧ s.cfg.pcAfterHalt = .stay then s else { s with pc := s.nextPc } := by
  cases hh : s.halted <;> cases hp : s.cfg.pcAfterHalt <;> simp [State.commit, hh, hp]

/-- Settles O8: the bytes at pc are the fetched word, and what follows is exec and commit. -/
theorem stepRunsDecodedInstruction : Obligations.StepRunsDecodedInstruction := by
  intro s w i hs hr ha hw hd
  obtain ⟨t, he⟩ := exec_next i (s.fetched w)
  have he' : exec i { s with ir := w, nextPc := s.pc + 4#32 } = .next t := he
  rw [step_of_exec hs (fetch_of_wordAt hr ha hw) hd he, commit_eq_ite, he']

end Sys2Proof.Proofs
end

section
/-! PROOFS. The decoder and the encoder as the format of each instruction says: which bits of a word a decoded
instruction depends on, what encoding it gives back, and the default OPCODE_MAP and immediates. -/

namespace Sys2Proof.Proofs

open Sys2Proof.Machine Sys2Proof.Statements

/-! ### The default parameters (spec/92_eei_decisions.md) -/

theorem default_lawful : Config.default.lawful = true := by decide

/-- Settles O1: `decode_encode`, and the defaults are lawful. -/
theorem decodeOfEncodeIsIdentity : Obligations.DecodeOfEncodeIsIdentity :=
  ⟨default_lawful, fun _ _ => decode_encode⟩

/-- The default OPCODE_MAP in its two runs, each in the order of the table (R73). -/
theorem default_select (op : Opcode) :
    Config.default.select op =
      if 1 ≤ op.toNat ∧ op.toNat ≤ 47 then Mnemonic.all[op.toNat - 1]?
      else if 56 ≤ op.toNat ∧ op.toNat ≤ 63 then Mnemonic.all[op.toNat - 9]?
      else none := by
  revert op
  decide

/-- Where the opcode selects the entry `k` of the table, the word decodes to an instruction of that name. -/
theorem decode_of_select_all {cfg : Config} {w : Word} {k : Nat} (hk : k < Mnemonic.all.length)
    (h : cfg.select (fieldOpcode w) = Mnemonic.all[k]?) :
    ∃ i, decode cfg w = .instr i ∧ Mnemonic.all[k]? = some i.mnemonic := by
  rw [List.getElem?_eq_getElem hk] at h ⊢
  exact ⟨_, decode_of_select h, by rw [build_mnemonic]⟩

/-- Settles O4: `default_select` in its two runs and beside them. -/
theorem defaultOpcodesSelectInTableOrder : Obligations.DefaultOpcodesSelectInTableOrder := by
  intro w
  have hsel := default_select (fieldOpcode w)
  have hlen : Mnemonic.all.length = 55 := rfl
  refine ⟨fun hop => ?_, fun hop => ?_, fun hop => ?_⟩
  · rw [fieldOpcode, if_pos hop] at hsel
    exact decode_of_select_all (by omega) hsel
  · rw [fieldOpcode, if_neg (by omega), if_pos hop] at hsel
    exact decode_of_select_all (by omega) hsel
  · rw [fieldOpcode, if_neg (by omega), if_neg (by omega)] at hsel
    exact (decode_unknownOpcode_iff _ _ _).mpr ⟨hsel, rfl⟩

/-- Settles O7: each word is decoded by computation. -/
theorem exampleWordsDecode : Obligations.ExampleWordsDecode := ⟨rfl, rfl, rfl, rfl, rfl, rfl, rfl⟩

/-! ### The bits of an immediate (R76 to R79, R82) -/

/-- The field of a layout before its sign extension: the selected bits of the word, most significant first, and the
appended zeros. -/
def layoutField (l : ImmLayout) (w : Word) : List Bool :=
  l.bits.map (fun (p : Fin 32) => w.getLsbD p.val) ++ List.replicate l.zeros false

@[simp] theorem layoutField_length (l : ImmLayout) (w : Word) : (layoutField l w).length = l.width := by
  simp [layoutField, ImmLayout.width]

theorem value_eq_signExtend (l : ImmLayout) (w : Word) :
    l.value w = (BitVec.ofBoolListBE (layoutField l w)).signExtend 32 := rfl

theorem value_getLsbD {l : ImmLayout} (hwidth : l.width ≤ 32) (w : Word) {i : Nat} (hi : i < l.width) :
    (l.value w).getLsbD i = (layoutField l w).getD (l.width - 1 - i) false := by
  rw [value_eq_signExtend, BitVec.getLsbD_signExtend, BitVec.getLsbD_ofBoolListBE]
  simp [hi, show i < 32 by omega]

/-- The appended bits are 0. -/
theorem value_getLsbD_zeros {l : ImmLayout} (hwidth : l.width ≤ 32) (w : Word) {i : Nat} (hi : i < l.zeros) :
    (l.value w).getLsbD i = false := by
  have hw : l.width = l.bits.length + l.zeros := rfl
  rw [value_getLsbD hwidth w (by omega), layoutField,
    List.getD_append_right _ _ _ _ (by rw [List.length_map]; omega)]
  simp only [List.getD_eq_getElem?_getD, List.getElem?_replicate]
  split <;> rfl

/-- Above the zeros stand the word's bits, in the layout's order. -/
theorem value_getLsbD_bits {l : ImmLayout} (hwidth : l.width ≤ 32) (w : Word) {k : Nat} (hk : k < l.bits.length) :
    (l.value w).getLsbD (l.bits.length - 1 - k + l.zeros) = w.getLsbD (l.bits[k]).val := by
  have hw : l.width = l.bits.length + l.zeros := rfl
  rw [value_getLsbD hwidth w (by omega), show l.width - 1 - (l.bits.length - 1 - k + l.zeros) = k by omega,
    layoutField, List.getD_append _ _ _ _ (by rwa [List.length_map])]
  simp [hk]

/-- A rebuilt immediate lies in the range of its layout (R76 to R79). -/
theorem fits_value {l : ImmLayout} {taken : Nat → Bool} (h : l.lawful taken = true) (w : Word) :
    l.fits (l.value w) = true := by
  obtain ⟨-, -, hwidth⟩ := layout_lawful h
  have hint : (l.value w).toInt = (BitVec.ofBoolListBE (layoutField l w)).toInt := by
    rw [value_eq_signExtend]
    exact BitVec.toInt_signExtend_of_le (by rwa [layoutField_length])
  have hlow : (l.value w).toNat % 2 ^ l.zeros = 0 := by
    refine Nat.eq_of_testBit_eq fun j => ?_
    rw [Nat.testBit_mod_two_pow, Nat.zero_testBit]
    by_cases hj : j < l.zeros
    · rw [← BitVec.getLsbD, value_getLsbD_zeros hwidth w hj, Bool.and_false]
    · simp [hj]
  have hge := BitVec.le_two_mul_toInt (x := BitVec.ofBoolListBE (layoutField l w))
  have hlt := BitVec.two_mul_toInt_lt (x := BitVec.ofBoolListBE (layoutField l w))
  rw [← hint, layoutField_length] at hge hlt
  simp [ImmLayout.fits, hge, hlt, hlow]

theorem layoutUses_iff (l : ImmLayout) (p : Nat) : layoutUses l p = true ↔ ∃ q ∈ l.bits, q.val = p := by
  simp [layoutUses]

/-- Placing a rebuilt immediate gives back the layout's bits of the word and no other. -/
theorem place_value_getLsbD {l : ImmLayout} {taken : Nat → Bool} (h : l.lawful taken = true) (w : Word) {p : Nat}
    (hp : p < 32) : (l.place (l.value w)).getLsbD p = (layoutUses l p && w.getLsbD p) := by
  obtain ⟨hnodup, -, hwidth⟩ := layout_lawful h
  have hmap : l.bits.map (fun (q : Fin 32) => (l.place (l.value w)).getLsbD q.val) =
      l.bits.map (fun (q : Fin 32) => w.getLsbD q.val) := by
    refine (map_placeBits hnodup).trans (List.ext_getElem (by simp) fun k hk hk' => ?_)
    simpa using value_getLsbD_bits hwidth w (by simpa using hk')
  by_cases hu : layoutUses l p = true
  · obtain ⟨q, hq, rfl⟩ := (layoutUses_iff l p).mp hu
    rw [hu, Bool.true_and]
    exact List.map_inj_left.mp hmap q hq
  · have hnot : (⟨p, hp⟩ : Fin 32) ∉ l.bits := fun hm => hu ((layoutUses_iff l p).mpr ⟨_, hm, rfl⟩)
    rw [Bool.eq_false_iff.mpr hu, Bool.false_and]
    exact placeBits_getLsbD_of_notMem hnot

/-- A layout that selects `n` bits in falling order down to bit `lo` rebuilds the sign extension of that field with its
zeros appended. -/
theorem value_of_field {l : ImmLayout} {lo n : Nat}
    (h : l.bits.map Fin.val = (List.range n).map fun k => lo + (n - 1 - k)) (w : Word) :
    l.value w = (w.extractLsb' lo n ++ 0#l.zeros).signExtend 32 := by
  have hbits : l.bits.map (fun (p : Fin 32) => w.getLsbD p.val) =
      (List.range n).map fun k => w.getLsbD (lo + (n - 1 - k)) := by
    simpa only [List.map_map, Function.comp_def] using congrArg (List.map w.getLsbD) h
  have hlen : l.bits.length = n := by simpa using congrArg List.length h
  rw [value_eq_signExtend]
  refine signExtend_congr (by rw [layoutField_length, ImmLayout.width, hlen]) fun i => ?_
  rw [layoutField, hbits, BitVec.getLsbD_ofBoolListBE, BitVec.getLsbD_append, BitVec.getLsbD_zero]
  simp only [List.length_append, List.length_map, List.length_range, List.length_replicate]
  by_cases hz : i < l.zeros
  · rw [if_pos hz, List.getD_append_right _ _ _ _ (by simp; omega)]
    simp only [List.getD_eq_getElem?_getD, List.getElem?_replicate]
    split <;> simp
  · rw [if_neg hz, BitVec.getLsbD_extractLsb']
    by_cases hi : i < n + l.zeros
    · rw [List.getD_append _ _ _ _ (by simp; omega)]
      simp [hi, show i - l.zeros < n by omega, show n + l.zeros - 1 - i < n by omega,
        show lo + (n - 1 - (n + l.zeros - 1 - i)) = lo + (i - l.zeros) by omega]
    · simp [hi, show ¬i - l.zeros < n by omega]

/-- Settles O5: the default layouts select the fields 31..20 and 31..12. -/
theorem defaultImmediatesAreSignExtendedFields : Obligations.DefaultImmediatesAreSignExtendedFields := by
  intro w
  have himm : Config.default.immI.value w = (w.extractLsb' 20 12).signExtend 32 := by
    refine (value_of_field (lo := 20) (n := 12) (by decide) w).trans (signExtend_congr rfl fun i => ?_)
    exact BitVec.getLsbD_append.trans (if_neg (Nat.not_lt_zero i))
  exact ⟨himm, himm, value_of_field (lo := 20) (n := 12) (by decide) w,
    value_of_field (lo := 12) (n := 20) (by decide) w⟩

end Sys2Proof.Proofs
end

section
/-! PROOFS. The bits that a format uses: no other bit of a word influences its decoding, and encoding what a word
decodes to gives back exactly these bits. -/

namespace Sys2Proof.Proofs

open Sys2Proof.Machine Sys2Proof.Statements

/-! ### Two words that agree on some bits (R72) -/

/-- Two words agree on the bits that `uses` marks. -/
def AgreeOn (uses : Nat → Bool) (w v : Word) : Prop := ∀ p < 32, uses p = true → w.getLsbD p = v.getLsbD p

theorem AgreeOn.mono {uses fewer : Nat → Bool} {w v : Word} (h : AgreeOn uses w v)
    (hsub : ∀ p, fewer p = true → uses p = true) : AgreeOn fewer w v := fun p hp hu => h p hp (hsub p hu)

theorem AgreeOn.left {a b : Nat → Bool} {w v : Word} (h : AgreeOn (fun p => a p || b p) w v) : AgreeOn a w v :=
  h.mono fun _ ha => by simp [ha]

theorem AgreeOn.right {a b : Nat → Bool} {w v : Word} (h : AgreeOn (fun p => a p || b p) w v) : AgreeOn b w v :=
  h.mono fun _ hb => by simp [hb]

theorem extract_congr {w v : Word} {lo n : Nat} (h : AgreeOn (fun p => decide (lo ≤ p) && decide (p < lo + n)) w v) :
    v.extractLsb' lo n = w.extractLsb' lo n := by
  refine BitVec.eq_of_getLsbD_eq fun j hj => ?_
  rw [BitVec.getLsbD_extractLsb', BitVec.getLsbD_extractLsb']
  by_cases hp : lo + j < 32
  · rw [h (lo + j) hp (by simp [hj])]
  · rw [BitVec.getLsbD_of_ge v _ (not_lt.mp hp), BitVec.getLsbD_of_ge w _ (not_lt.mp hp)]

theorem read_congr {f : RegField} {w v : Word} (h : AgreeOn f.holds w v) : f.read v = f.read w := extract_congr h

/-- A field that reaches from `lo` to the top of the word. -/
theorem extract_top_congr {w v : Word} {lo : Nat} (n : Nat) (h : AgreeOn (fun p => decide (lo ≤ p)) w v) :
    v.extractLsb' lo n = w.extractLsb' lo n :=
  extract_congr (h.mono fun _ hp => (Bool.and_eq_true_iff.mp hp).1)

theorem value_congr {l : ImmLayout} {w v : Word} (h : AgreeOn (layoutUses l) w v) : l.value v = l.value w := by
  have hbits : l.bits.map (fun (p : Fin 32) => v.getLsbD p.val) = l.bits.map (fun (p : Fin 32) => w.getLsbD p.val) :=
    List.map_congr_left fun p hp => (h p.val p.isLt ((layoutUses_iff l p.val).mpr ⟨p, hp, rfl⟩)).symm
  rw [ImmLayout.value, ImmLayout.value, hbits]

/-! ### The formats on words that agree on the bits they use (R74) -/

/-- The shape of formats I, S and B. -/
theorem operands_congr {α : Type} (op : Reg → Reg → Word → α) {f g : RegField} {l : ImmLayout} {w v : Word}
    (h : AgreeOn (fun p => f.holds p || g.holds p || layoutUses l p) w v) :
    op (f.read v) (g.read v) (l.value v) = op (f.read w) (g.read w) (l.value w) := by
  rw [read_congr h.left.left, read_congr h.left.right, value_congr h.right]

theorem formatR_congr (op : Reg → Reg → Reg → Instr) (cfg : Config) {w v : Word}
    (h : AgreeOn (fun p => RegField.rd.holds p || RegField.rs1.holds p || RegField.rs2Reg.holds p) w v) :
    formatR op cfg v = formatR op cfg w := by
  show op (RegField.rd.read v) (RegField.rs1.read v) (RegField.rs2Reg.read v) = _
  rw [read_congr h.left.left, read_congr h.left.right, read_congr h.right]
  rfl

theorem formatSH_congr (op : Reg → BitVec 5 → Instr) (cfg : Config) {w v : Word}
    (h : AgreeOn (fun p => RegField.rd.holds p || RegField.rs1.holds p) w v) :
    formatSH op cfg v = formatSH op cfg w :=
  congrArg₂ op (read_congr h.left) (read_congr h.right)

theorem formatCsr_congr (op : Reg → BitVec 5 → CsrNum → Instr) (cfg : Config) {w v : Word}
    (h : AgreeOn (fun p => RegField.rd.holds p || RegField.rs1.holds p || decide (20 ≤ p)) w v) :
    formatCsr op cfg v = formatCsr op cfg w := by
  show op (RegField.rd.read v) (RegField.rs1.read v) (v.extractLsb' 20 12) = _
  rw [read_congr h.left.left, read_congr h.left.right, extract_top_congr 12 h.right]
  rfl

theorem formatU_congr (op : Reg → BitVec 20 → Instr) {w v : Word} (h : AgreeOn (fun p => decide (7 ≤ p)) w v) :
    op (fieldRd v) (fieldImmU v) = op (fieldRd w) (fieldImmU w) := by
  refine congrArg₂ op (extract_top_congr 5 h) (extract_top_congr 20 (h.mono fun p hp => ?_))
  simp only [decide_eq_true_eq] at hp ⊢
  omega

/-- The operands come from the used bits alone (R72). -/
theorem build_congr {cfg : Config} {w v : Word} {m : Mnemonic} (h : AgreeOn (usesBit cfg m) w v) :
    m.build cfg v = m.build cfg w := by
  cases m
  case lui | auipc => exact formatU_congr _ h.right
  case jal =>
    have hop : AgreeOn (fun p => RegField.rd.holds p || layoutUses cfg.immJ p) w v := h.right
    exact congrArg₂ Instr.jal (read_congr (f := .rd) hop.left) (value_congr hop.right)
  case ecall | ebreak | reti | wfi => rfl
  case beq | bne | blt | bge | bltu | bgeu => exact operands_congr _ h.right
  case jalr | lb | lh | lw | lbu | lhu | addi | slti | sltiu | xori | ori | andi | sb | sh | sw =>
    exact operands_congr (f := .rd) (g := .rs1) _ h.right
  case slli | srli | srai => exact formatSH_congr _ cfg h.right
  case csrrw | csrrs | csrrc | csrrwi | csrrsi | csrrci => exact formatCsr_congr _ cfg h.right
  all_goals exact formatR_congr _ cfg h.right

/-- Settles O3: the opcode and the operands come from the used bits. -/
theorem ignoredBitsNeverMatter : Obligations.IgnoredBitsNeverMatter := by
  intro cfg w v m hm h
  have hused : AgreeOn (usesBit cfg m) w v := h
  have hop : fieldOpcode v = fieldOpcode w :=
    extract_congr (lo := 0) (n := 7) (hused.mono fun p hp => by simp_all [usesBit])
  have hw : cfg.select (fieldOpcode w) = some m := hm
  rw [decode_of_select hw, decode_of_select (hop.symm ▸ hw), build_congr hused]

/-! ### Encoding gives back the used bits (R74, R85) -/

theorem putReg_read_getLsbD (f : RegField) (w : Word) (p : Nat) :
    (putReg f (f.read w)).getLsbD p = (f.holds p && w.getLsbD p) := by
  cases hh : f.holds p with
  | false => rw [putReg_getLsbD_of_not_holds hh, Bool.false_and]
  | true =>
    rw [holds_iff] at hh
    have hf := regField_lo_bounds f
    simp [putReg, RegField.read, show p < 32 by omega, show ¬p < f.lo by omega, show p - f.lo < 5 by omega,
      show f.lo + (p - f.lo) = p by omega]

/-- A field that reaches to the top of the word, put back in its place. -/
theorem shiftLeft_extract_getLsbD {lo n : Nat} (hn : lo + n = 32) (w : Word) {p : Nat} (hp : p < 32) :
    (((w.extractLsb' lo n).setWidth 32) <<< lo).getLsbD p = (decide (lo ≤ p) && w.getLsbD p) := by
  by_cases h : lo ≤ p
  · simp [hp, h, show p - lo < n by omega, show lo + (p - lo) = p by omega]
  · simp [h, show p < lo by omega]

theorem opcode_getLsbD_eq (w : Word) {p : Nat} (hp : p < 32) :
    ((fieldOpcode w).setWidth 32).getLsbD p = (decide (p < 7) && w.getLsbD p) := by
  simp [fieldOpcode, hp]

/-- The shape of formats I, S and B. -/
theorem registers_imm_getLsbD {l : ImmLayout} {taken : Nat → Bool} (h : l.lawful taken = true) (f g : RegField)
    (w : Word) {p : Nat} (hp : p < 32) :
    (putReg f (f.read w) ||| putReg g (g.read w) ||| l.place (l.value w)).getLsbD p =
      ((f.holds p || g.holds p || layoutUses l p) && w.getLsbD p) := by
  simp only [BitVec.getLsbD_or, putReg_read_getLsbD, place_value_getLsbD h w hp, Bool.and_or_distrib_right]

theorem jal_operands_getLsbD {l : ImmLayout} {taken : Nat → Bool} (h : l.lawful taken = true) (w : Word) {p : Nat}
    (hp : p < 32) :
    (putReg .rd (RegField.rd.read w) ||| l.place (l.value w)).getLsbD p =
      ((RegField.rd.holds p || layoutUses l p) && w.getLsbD p) := by
  simp only [BitVec.getLsbD_or, putReg_read_getLsbD, place_value_getLsbD h w hp, Bool.and_or_distrib_right]

theorem encU_getLsbD (w : Word) {p : Nat} (hp : p < 32) :
    (encU (fieldRd w) (fieldImmU w)).getLsbD p = (decide (7 ≤ p) && w.getLsbD p) := by
  have hfields : (RegField.rd.holds p || decide (12 ≤ p)) = decide (7 ≤ p) := by
    rw [Bool.eq_iff_iff]
    simp only [Bool.or_eq_true, holds_iff, decide_eq_true_eq, RegField.lo]
    omega
  rw [encU, BitVec.getLsbD_or, ← hfields, Bool.and_or_distrib_right]
  exact congrArg₂ or (putReg_read_getLsbD .rd w p) (shiftLeft_extract_getLsbD (by omega) w hp)

theorem encSH_getLsbD (w : Word) (p : Nat) :
    (encSH (fieldRd w) (fieldImm5 w)).getLsbD p =
      ((RegField.rd.holds p || RegField.rs1.holds p) && w.getLsbD p) := by
  rw [encSH, BitVec.getLsbD_or, Bool.and_or_distrib_right]
  exact congrArg₂ or (putReg_read_getLsbD .rd w p) (putReg_read_getLsbD .rs1 w p)

theorem encR_getLsbD (w : Word) (p : Nat) :
    (encR (fieldRd w) (fieldRs1 w) (fieldRs2Reg w)).getLsbD p =
      ((RegField.rd.holds p || RegField.rs1.holds p || RegField.rs2Reg.holds p) && w.getLsbD p) := by
  rw [encR, BitVec.getLsbD_or, Bool.and_or_distrib_right]
  exact congrArg₂ or (encSH_getLsbD w p) (putReg_read_getLsbD .rs2Reg w p)

theorem encCsr_getLsbD (w : Word) {p : Nat} (hp : p < 32) :
    (encCsr (fieldRd w) (fieldRs1 w) (fieldCsr w)).getLsbD p =
      ((RegField.rd.holds p || RegField.rs1.holds p || decide (20 ≤ p)) && w.getLsbD p) := by
  rw [encCsr, BitVec.getLsbD_or, Bool.and_or_distrib_right]
  exact congrArg₂ or (encSH_getLsbD w p) (shiftLeft_extract_getLsbD (by omega) w hp)

/-- An instruction and the opcode that selected it are each other's (R73). -/
theorem opcodeFor_of_select {cfg : Config} (hnodup : (cfg.opcodeMap.map Prod.snd).Nodup) {op : Opcode} {m : Mnemonic}
    (h : cfg.select op = some m) : cfg.opcodeFor m = op := by
  obtain ⟨l₁, l₂, hmap, -⟩ := List.lookup_eq_some_iff.mp h
  have hmem : (op, m) ∈ cfg.opcodeMap := by simp [hmap]
  rw [Config.opcodeFor]
  cases hf : cfg.opcodeMap.find? (fun e => e.2 == m) with
  | none => simpa using List.find?_eq_none.mp hf _ hmem
  | some e =>
    have hname : e.2 = m := by simpa using List.find?_some hf
    have he : e = (op, m) := List.inj_on_of_nodup_map hnodup (List.mem_of_find?_eq_some hf) hmem hname
    rw [he]

theorem mnemonics_nodup {cfg : Config} (h : cfg.lawful = true) : (cfg.opcodeMap.map Prod.snd).Nodup := by
  simp only [Config.lawful, Bool.and_eq_true, decide_eq_true_eq] at h
  obtain ⟨⟨⟨⟨⟨⟨⟨⟨-, hnodup⟩, -⟩, -⟩, -⟩, -⟩, -⟩, -⟩, -⟩ := h
  exact hnodup

/-- The opcode and the operands of a format side by side. -/
theorem encode_getLsbD {cfg : Config} {w : Word} {i : Instr} {uses : Bool} {p : Nat} (hp : p < 32)
    (hop : cfg.opcodeFor i.mnemonic = fieldOpcode w) (h : (i.operandBits cfg).getLsbD p = (uses && w.getLsbD p)) :
    (encode cfg i).getLsbD p = ((decide (p < 7) || uses) && w.getLsbD p) := by
  rw [encode, hop, BitVec.getLsbD_or, opcode_getLsbD_eq w hp, h, Bool.and_or_distrib_right]

/-- Under lawful parameters encoding what a word decodes to gives back the bits that its format uses, the others 0. -/
theorem encode_build_getLsbD {cfg : Config} (hl : cfg.lawful = true) {w : Word} {m : Mnemonic}
    (h : cfg.select (fieldOpcode w) = some m) {p : Nat} (hp : p < 32) :
    (encode cfg (m.build cfg w)).getLsbD p = (usesBit cfg m p && w.getLsbD p) := by
  have hop : cfg.opcodeFor (m.build cfg w).mnemonic = fieldOpcode w := by
    rw [build_mnemonic, opcodeFor_of_select (mnemonics_nodup hl) h]
  obtain ⟨-, -, -, hi, hs, hj, hb, -⟩ := config_lawful hl
  refine encode_getLsbD hp hop ?_
  cases m
  case lui | auipc => exact encU_getLsbD w hp
  case jal => exact jal_operands_getLsbD hj w hp
  case ecall | ebreak | reti | wfi => exact BitVec.getLsbD_zero
  case beq | bne | blt | bge | bltu | bgeu => exact registers_imm_getLsbD hb cfg.branchFirst cfg.branchSecond w hp
  case jalr | lb | lh | lw | lbu | lhu | addi | slti | sltiu | xori | ori | andi =>
    exact registers_imm_getLsbD hi .rd .rs1 w hp
  case sb | sh | sw => exact registers_imm_getLsbD hs .rd .rs1 w hp
  case slli | srli | srai => exact encSH_getLsbD w p
  case csrrw | csrrs | csrrc | csrrwi | csrrsi | csrrci => exact encCsr_getLsbD w hp
  all_goals exact encR_getLsbD w p

/-- Under lawful parameters what a word decodes to is well formed (R85). -/
theorem build_wellFormed {cfg : Config} (hl : cfg.lawful = true) (w : Word) (m : Mnemonic) :
    (m.build cfg w).wellFormed cfg = true := by
  obtain ⟨-, -, -, hi, hs, hj, hb, -⟩ := config_lawful hl
  cases m
  case jal => exact fits_value hj w
  case beq | bne | blt | bge | bltu | bgeu => exact fits_value hb w
  case jalr | lb | lh | lw | lbu | lhu | addi | slti | sltiu | xori | ori | andi =>
    exact fits_value hi w
  case sb | sh | sw => exact fits_value hs w
  all_goals rfl

/-- Under the defaults the used bits are those of the mask that R74 gives each format. -/
theorem usesBit_default (m : Mnemonic) {p : Nat} (hp : p < 32) :
    usesBit Config.default m p = (usedMask m).getLsbD p := by
  revert p
  cases m <;> decide

/-- Settles O2: the used bits of `encode_build_getLsbD` are those of the mask. -/
theorem encodeOfDecodeKeepsUsedBits : Obligations.EncodeOfDecodeKeepsUsedBits := by
  intro w i hd
  obtain ⟨m, hm, rfl⟩ := (decode_instr_iff _ _ _).mp hd
  refine ⟨build_wellFormed default_lawful w m, BitVec.eq_of_getLsbD_eq fun p hp => ?_⟩
  rw [encode_build_getLsbD default_lawful hm hp, usesBit_default m hp, build_mnemonic, BitVec.getLsbD_and,
    Bool.and_comm]

end Sys2Proof.Proofs
end

section
/-! PROOFS. The upper immediates: the decoding of an instruction from its opcode, and LUI and AUIPC as one register
write each. -/

namespace Sys2Proof.Proofs

open Sys2Proof.Machine Sys2Proof.Statements

/-! ### The decoding of one instruction (R72 to R74) -/

/-- What is left to show of a `DecodesAs` is the default opcode: the operands are those of `Mnemonic.build`. -/
theorem decodesAs_build {m : Mnemonic} {op : Opcode} (h : Config.default.select op = some m) :
    DecodesAs m op fun cfg w => m.build cfg w :=
  ⟨h, fun _ _ => decode_of_select⟩

/-! ### The U immediate as exact arithmetic (R75) -/

theorem immU_eq_ofNat (imm : BitVec 20) : immU imm = BitVec.ofNat 32 (imm.toNat * 4096) := by
  rw [← immU_toNat, BitVec.ofNat_toNat, BitVec.setWidth_eq]

/-- The sum wraps modulo 2^32. -/
theorem add_immU_eq_ofNat (a : Word) (imm : BitVec 20) :
    a + immU imm = BitVec.ofNat 32 (a.toNat + imm.toNat * 4096) := by
  rw [BitVec.ofNat_add, BitVec.ofNat_toNat, BitVec.setWidth_eq, immU_eq_ofNat]

/-! ### LUI and AUIPC (R100, R101) -/

theorem exec_lui (rd : Reg) (imm : BitVec 20) (s : State) :
    exec (.lui rd imm) s = .next (s.setReg rd (immU imm)) := rfl

theorem exec_auipc (rd : Reg) (imm : BitVec 20) (s : State) :
    exec (.auipc rd imm) s = .next (s.setReg rd (s.pc + immU imm)) := rfl

/-- Settles O31: LUI writes the U immediate, which is both the field times 2^12 and the word with its low twelve bits
cleared. -/
theorem luiWritesUpperBits : Obligations.LuiWritesUpperBits := by
  refine ⟨decodesAs_build rfl, fun rd imm s => ⟨_, exec_lui rd imm s, ?_⟩, fun w s => ⟨_, exec_lui _ _ s, ?_⟩⟩
  · rw [← immU_eq_ofNat]
    exact onlyReg_setReg s rd (immU imm)
  · rw [← immU_extract]
    exact onlyReg_setReg s _ (immU (w.extractLsb' 12 20))

/-- Settles O32: AUIPC writes the wrapped sum of pc and the U immediate. -/
theorem auipcAddsToItsOwnAddress : Obligations.AuipcAddsToItsOwnAddress := by
  refine ⟨decodesAs_build rfl, fun rd imm s => ⟨_, exec_auipc rd imm s, ?_⟩⟩
  rw [← add_immU_eq_ofNat]
  exact onlyReg_setReg s rd (s.pc + immU imm)

end Sys2Proof.Proofs
end

section
/-! PROOFS. Control transfer: the jumps as one staged target and one link write, the branches as one staged target under
the condition that their test decides. -/

namespace Sys2Proof.Proofs

open Sys2Proof.Machine Sys2Proof.Statements

/-! ### Targets and conditions as exact arithmetic (R7, R111) -/

/-- Clearing bit 0 is a shift right and back. -/
theorem and_not_one_eq_shifts (a : Word) : a &&& ~~~1#32 = a >>> 1 <<< 1 := by
  refine BitVec.eq_of_getLsbD_eq fun j hj => ?_
  cases j with
  | zero => simp
  | succ k => simp [-BitVec.reduceNot, hj, Nat.add_comm 1 k]

theorem indirectTarget_eq_ofNat (s : State) (rs1 : Reg) (imm : Word) :
    indirectTarget s rs1 imm = BitVec.ofNat 32 ((s.x rs1 + imm).toNat / 2 * 2) := by
  apply BitVec.eq_of_toNat_eq
  rw [indirectTarget, and_not_one_eq_shifts, BitVec.toNat_shiftLeft, BitVec.toNat_ushiftRight, BitVec.toNat_ofNat,
    Nat.shiftLeft_eq, Nat.shiftRight_eq_div_pow, pow_one]

theorem ltSigned_iff (a b : Word) : ltSigned a b = true ↔ a.toInt < b.toInt := decide_eq_true_iff

theorem ltUnsigned_iff (a b : Word) : ltUnsigned a b = true ↔ a.toNat < b.toNat := decide_eq_true_iff

theorem not_ltSigned_iff (a b : Word) : (!ltSigned a b) = true ↔ a.toInt ≥ b.toInt := by
  rw [Bool.not_eq_true', ← Bool.not_eq_true, ltSigned_iff, not_lt]

theorem not_ltUnsigned_iff (a b : Word) : (!ltUnsigned a b) = true ↔ a.toNat ≥ b.toNat := by
  rw [Bool.not_eq_true', ← Bool.not_eq_true, ltUnsigned_iff, not_lt]

/-! ### JAL and JALR (R110, R111) -/

theorem exec_jal (rd : Reg) (off : Word) (s : State) :
    exec (.jal rd off) s = jumpAndLink rd (s.pc + off) s := rfl

theorem exec_jalr (rd rs1 : Reg) (imm : Word) (s : State) :
    exec (.jalr rd rs1 imm) s = jumpAndLink rd (indirectTarget s rs1 imm) s := rfl

/-- Settles O33: both jumps are `jumpAndLink` after their target, and the target of JALR comes from the state before the
link is written. -/
theorem jumpsStageTargetAndLink : Obligations.JumpsStageTargetAndLink := by
  refine ⟨decodesAs_build rfl, decodesAs_build rfl, fun rd off s => ?_, fun rd rs1 imm s => ?_⟩
  · rw [exec_jal]
    exact jumpAndLink_next rd (s.pc + off) s
  · rw [exec_jalr, ← indirectTarget_eq_ofNat]
    exact jumpAndLink_next rd (indirectTarget s rs1 imm) s

/-! ### The branches (R112 to R118) -/

/-- A branch that ends in `branchIf` has the effect of its condition, once its test decides the condition. -/
theorem branchOp_of_test {op : Reg → Reg → Word → Instr} {cond : Word → Word → Prop} (test : Word → Word → Bool)
    (hexec : ∀ rs1 rs2 off s, exec (op rs1 rs2 off) s = branchIf (test (s.x rs1) (s.x rs2)) off s)
    (htest : ∀ a b, test a b = true ↔ cond a b) : BranchOp op cond := by
  intro rs1 rs2 off s
  obtain ⟨t, ht, hnext⟩ := branchIf_next (test (s.x rs1) (s.x rs2)) off s
  refine ⟨t, (hexec rs1 rs2 off s).trans ht, fun hc => ?_, fun hc => ?_⟩
  · rwa [if_pos ((htest _ _).mpr hc)] at hnext
  · rwa [if_neg (mt (htest _ _).mp hc)] at hnext

theorem exec_beq (rs1 rs2 : Reg) (off : Word) (s : State) :
    exec (.beq rs1 rs2 off) s = branchIf (s.x rs1 == s.x rs2) off s := rfl

theorem exec_bne (rs1 rs2 : Reg) (off : Word) (s : State) :
    exec (.bne rs1 rs2 off) s = branchIf (s.x rs1 != s.x rs2) off s := rfl

theorem exec_blt (rs1 rs2 : Reg) (off : Word) (s : State) :
    exec (.blt rs1 rs2 off) s = branchIf (ltSigned (s.x rs1) (s.x rs2)) off s := rfl

theorem exec_bge (rs1 rs2 : Reg) (off : Word) (s : State) :
    exec (.bge rs1 rs2 off) s = branchIf (!ltSigned (s.x rs1) (s.x rs2)) off s := rfl

theorem exec_bltu (rs1 rs2 : Reg) (off : Word) (s : State) :
    exec (.bltu rs1 rs2 off) s = branchIf (ltUnsigned (s.x rs1) (s.x rs2)) off s := rfl

theorem exec_bgeu (rs1 rs2 : Reg) (off : Word) (s : State) :
    exec (.bgeu rs1 rs2 off) s = branchIf (!ltUnsigned (s.x rs1) (s.x rs2)) off s := rfl

/-- Settles O34: each branch is `branchIf` on a test, and each test decides its comparison. -/
theorem branchesStageTargetOnCondition : Obligations.BranchesStageTargetOnCondition :=
  ⟨decodesAs_build rfl, decodesAs_build rfl, decodesAs_build rfl, decodesAs_build rfl, decodesAs_build rfl,
    decodesAs_build rfl,
    branchOp_of_test (fun a b => a == b) exec_beq fun _ _ => beq_iff_eq,
    branchOp_of_test (fun a b => a != b) exec_bne fun _ _ => bne_iff_ne,
    branchOp_of_test ltSigned exec_blt ltSigned_iff,
    branchOp_of_test (fun a b => !ltSigned a b) exec_bge not_ltSigned_iff,
    branchOp_of_test ltUnsigned exec_bltu ltUnsigned_iff,
    branchOp_of_test (fun a b => !ltUnsigned a b) exec_bgeu not_ltUnsigned_iff⟩

end Sys2Proof.Proofs
end

section
/-! PROOFS. Loads and stores: each instruction is `loadInto` or `storeFrom` of its width, and what it does follows from
the class of its address. -/

namespace Sys2Proof.Proofs

open Sys2Proof.Machine Sys2Proof.Statements

/-! ### The instructions as loads and stores of a width (R131 to R138) -/

theorem exec_lb (rd rs1 : Reg) (imm : Word) (s : State) :
    exec (.lb rd rs1 imm) s = loadInto .byte (fun v => v) rd rs1 imm s := rfl

theorem exec_lh (rd rs1 : Reg) (imm : Word) (s : State) :
    exec (.lh rd rs1 imm) s = loadInto .half (fun v => v) rd rs1 imm s := rfl

theorem exec_lw (rd rs1 : Reg) (imm : Word) (s : State) :
    exec (.lw rd rs1 imm) s = loadInto .word (fun v => v) rd rs1 imm s := rfl

theorem exec_lbu (rd rs1 : Reg) (imm : Word) (s : State) :
    exec (.lbu rd rs1 imm) s = loadInto .byte (fun v => v &&& 0x000000FF#32) rd rs1 imm s := rfl

theorem exec_lhu (rd rs1 : Reg) (imm : Word) (s : State) :
    exec (.lhu rd rs1 imm) s = loadInto .half (fun v => v &&& 0x0000FFFF#32) rd rs1 imm s := rfl

theorem exec_sb (rs2 rs1 : Reg) (imm : Word) (s : State) :
    exec (.sb rs2 rs1 imm) s = storeFrom .byte rs2 rs1 imm s := rfl

theorem exec_sh (rs2 rs1 : Reg) (imm : Word) (s : State) :
    exec (.sh rs2 rs1 imm) s = storeFrom .half rs2 rs1 imm s := rfl

theorem exec_sw (rs2 rs1 : Reg) (imm : Word) (s : State) :
    exec (.sw rs2 rs1 imm) s = storeFrom .word rs2 rs1 imm s := rfl

/-! ### Zero extension (R134, R135) -/

/-- The mask of LBU and LHU undoes the sign extension of the read. -/
theorem signExtend_and_mask_toNat {n : Nat} (hn : n ≤ 32) (x : BitVec n) :
    (x.signExtend 32 &&& BitVec.ofNat 32 (2 ^ n - 1)).toNat = x.toNat := by
  have hmask : (BitVec.ofNat 32 (2 ^ n - 1)).toNat = 2 ^ n - 1 := by
    rw [BitVec.toNat_ofNat, Nat.mod_eq_of_lt]
    have := Nat.pow_le_pow_right two_pos hn
    have := Nat.two_pow_pos n
    omega
  have hlow : (x.signExtend 32).setWidth n = x := by
    apply BitVec.eq_of_getLsbD_eq
    intro j hj
    rw [BitVec.getLsbD_setWidth, BitVec.getLsbD_signExtend]
    simp [hj, show j < 32 by omega]
  rw [BitVec.toNat_and, hmask, Nat.and_two_pow_sub_one_eq_mod, ← BitVec.toNat_setWidth, hlow]

theorem load_byte_mask_toNat (m : Memory) (a : Nat) :
    (m.load .byte a &&& 0x000000FF#32).toNat = (m.byte a).toNat :=
  signExtend_and_mask_toNat (by omega) (m.byte a)

theorem load_half_mask_toNat (s : State) (a : Nat) :
    (s.ram.load .half a &&& 0x0000FFFF#32).toNat = halfAt s a :=
  (signExtend_and_mask_toNat (by omega) _).trans (halfOfBytes_toNat _ _)

/-! ### Accesses that fail (R139, R242, R246) -/

theorem onlyHalt_halt (s : State) (c : HaltCause) : OnlyHalt s (s.halt c) c :=
  ⟨fun _ => rfl, ⟨rfl, rfl⟩, fun _ => rfl, rfl, rfl, rfl, ⟨rfl, rfl, rfl⟩, rfl⟩

theorem haltsOutOfRange_of_dataAccess {k : MemKind} {access : Reg → Reg → Word → Instr}
    (h : ∀ r rs1 imm, dataAccess (access r rs1 imm) = some (k, rs1, imm)) : HaltsOutOfRange access :=
  fun r rs1 imm s hport hram =>
    ⟨_, exec_of_accessFault (h r rs1 imm) (accessFault_outOfRange hport hram), onlyHalt_halt s _⟩

theorem haltsMisaligned_of_dataAccess {k : MemKind} {access : Reg → Reg → Word → Instr}
    (h : ∀ r rs1 imm, dataAccess (access r rs1 imm) = some (k, rs1, imm)) : HaltsMisaligned access k.bytes :=
  fun r rs1 imm s hram halign =>
    ⟨_, exec_of_accessFault (h r rs1 imm) (accessFault_misaligned hram halign), onlyHalt_halt s _⟩

/-! ### Accesses that pass the tests (R131 to R138) -/

theorem loadInto_of_ram {k : MemKind} {rs1 : Reg} {imm : Word} {s : State} (hr : IsRam (effectiveAddr s rs1 imm))
    (ha : (effectiveAddr s rs1 imm).toNat % k.bytes = 0) (keep : Word → Word) (rd : Reg) :
    loadInto k keep rd rs1 imm s = .next (s.setReg rd (keep (s.ram.load k (effectiveAddr s rs1 imm).toNat))) :=
  loadInto_of_read (memRead_of_ram hr ha s) keep rd

/-- A load that keeps 0 as 0 writes 0 from a port, and from an aligned RAM address what it keeps of the bytes there. -/
theorem loadCompletes_of_loadInto {k : MemKind} {keep : Word → Word} {load : Reg → Reg → Word → Instr}
    {value : State → Nat → Word → Prop}
    (hexec : ∀ rd rs1 imm s, exec (load rd rs1 imm) s = loadInto k keep rd rs1 imm s)
    (hzero : keep 0#32 = 0#32) (hvalue : ∀ s a, value s a (keep (s.ram.load k a))) :
    LoadCompletes load k.bytes value := by
  refine fun rd rs1 imm s => ⟨fun hport => ⟨_, ?_, onlyReg_setReg s rd 0#32⟩, fun hram halign =>
    ⟨_, _, hvalue s _, ?_, onlyReg_setReg s rd _⟩⟩
  · rw [hexec, loadInto_of_read (memRead_of_port hport s k), hzero]
  · rw [hexec, loadInto_of_ram hram halign]

theorem storeCompletes_of_storeFrom {k : MemKind} {store : Reg → Reg → Word → Instr}
    (hexec : ∀ rs2 rs1 imm s, exec (store rs2 rs1 imm) s = storeFrom k rs2 rs1 imm s) :
    StoreCompletes store k.bytes := by
  refine fun rs2 rs1 imm s hwf => ⟨fun hport => ?_, fun hram halign => ?_⟩
  · obtain ⟨p, hp⟩ := exists_portAt hport
    exact ⟨_, _, portEvent_of_portAt hp _, (hexec rs2 rs1 imm s).trans (storeFrom_of_port hp k rs2),
      onlyEvent_emit s _⟩
  · have hstore := storeFrom_of_ram ((isRam_iff _).mp hram) ((aligned_iff k _).mpr halign) rs2
    exact ⟨_, (hexec rs2 rs1 imm s).trans hstore, onlyStore_store hwf k _ _⟩

/-- Settles O35: LB keeps the sign-extended byte, LBU masks it to the zero-extended one. -/
theorem byteLoads : Obligations.ByteLoads :=
  ⟨decodesAs_build rfl, decodesAs_build rfl,
    loadCompletes_of_loadInto exec_lb rfl fun s a => load_byte_toInt s.ram a,
    loadCompletes_of_loadInto exec_lbu rfl fun s a => load_byte_mask_toNat s.ram a,
    haltsOutOfRange_of_dataAccess fun _ _ _ => rfl, haltsOutOfRange_of_dataAccess fun _ _ _ => rfl⟩

/-- Settles O36: LH keeps the sign-extended half-word, LHU masks it, LW keeps the word, and the address tests come
first. -/
theorem halfAndWordLoads : Obligations.HalfAndWordLoads :=
  ⟨decodesAs_build rfl, decodesAs_build rfl, decodesAs_build rfl,
    loadCompletes_of_loadInto exec_lh rfl load_half_toInt,
    loadCompletes_of_loadInto exec_lhu rfl load_half_mask_toNat,
    loadCompletes_of_loadInto exec_lw rfl load_word_toNat,
    haltsMisaligned_of_dataAccess (k := .half) fun _ _ _ => rfl,
    haltsMisaligned_of_dataAccess (k := .half) fun _ _ _ => rfl,
    haltsMisaligned_of_dataAccess (k := .word) fun _ _ _ => rfl, haltsOutOfRange_of_dataAccess fun _ _ _ => rfl,
    haltsOutOfRange_of_dataAccess fun _ _ _ => rfl, haltsOutOfRange_of_dataAccess fun _ _ _ => rfl⟩

/-- Settles O37: SB is the store of width one, which no RAM address misaligns. -/
theorem byteStores : Obligations.ByteStores :=
  ⟨decodesAs_build rfl, storeCompletes_of_storeFrom exec_sb, haltsOutOfRange_of_dataAccess fun _ _ _ => rfl⟩

/-- Settles O38: SH and SW are the stores of widths two and four, and the address tests come first. -/
theorem halfAndWordStores : Obligations.HalfAndWordStores :=
  ⟨decodesAs_build rfl, decodesAs_build rfl, storeCompletes_of_storeFrom exec_sh, storeCompletes_of_storeFrom exec_sw,
    haltsMisaligned_of_dataAccess (k := .half) fun _ _ _ => rfl,
    haltsMisaligned_of_dataAccess (k := .word) fun _ _ _ => rfl,
    haltsOutOfRange_of_dataAccess fun _ _ _ => rfl, haltsOutOfRange_of_dataAccess fun _ _ _ => rfl⟩

/-! ### Round trips (R140) -/

/-- The half-word of a word's two low bytes (R45). -/
theorem halfOfBytes_byteOf (w : Word) : halfOfBytes (byteOf w 0) (byteOf w 1) = w.extractLsb' 0 16 := by
  apply BitVec.eq_of_toNat_eq
  rw [halfOfBytes_toNat, byteOf_toNat, byteOf_toNat, BitVec.extractLsb'_toNat]
  omega

theorem byte_store_offset {m : Memory} (h : m.wf = true) {k : MemKind} {j : Nat} (hj : j < k.bytes) (a : Nat)
    (v : Word) : (m.store k a v).byte (a + j) = byteOf v j := by
  rw [byte_store h, if_pos ⟨Nat.le_add_right a j, Nat.add_lt_add_left hj a⟩, Nat.add_sub_cancel_left]

/-- A stored byte is the byte loaded, sign-extended (R45). -/
theorem load_store_byte {m : Memory} (h : m.wf = true) (a : Nat) (v : Word) :
    (m.store .byte a v).load .byte a = (v.extractLsb' 0 8).signExtend 32 :=
  congrArg (BitVec.signExtend 32) (byte_store_offset (k := .byte) (j := 0) h one_pos a v)

/-- A stored half-word is the half-word loaded, sign-extended (R45). -/
theorem load_store_half {m : Memory} (h : m.wf = true) (a : Nat) (v : Word) :
    (m.store .half a v).load .half a = (v.extractLsb' 0 16).signExtend 32 := by
  have hlow : (m.store .half a v).byte a = byteOf v 0 := byte_store_offset (k := .half) (j := 0) h two_pos a v
  have hhigh : (m.store .half a v).byte (a + 1) = byteOf v 1 := byte_store_offset (k := .half) h one_lt_two a v
  rw [Memory.load, hlow, hhigh, halfOfBytes_byteOf]

theorem setReg_x_same {rd : Reg} (h : rd ≠ 0#5) (s : State) (v : Word) : (s.setReg rd v).x rd = v := by
  rw [setReg_x, if_pos ⟨rfl, h⟩]

/-- A store at an aligned RAM address completes, and every load of that width through the same operands then completes
with what it keeps of the stored bytes. -/
theorem loadInto_after_storeFrom {k : MemKind} {rs1 : Reg} {imm : Word} {s : State}
    (hr : IsRam (effectiveAddr s rs1 imm)) (ha : (effectiveAddr s rs1 imm).toNat % k.bytes = 0) {rd : Reg}
    (hrd : rd ≠ 0#5) (rs2 : Reg) :
    ∃ t, storeFrom k rs2 rs1 imm s = .next t ∧
      ∀ keep, ∃ u, loadInto k keep rd rs1 imm t = .next u ∧
        u.x rd = keep ((s.ram.store k (effectiveAddr s rs1 imm).toNat (s.x rs2)).load k
          (effectiveAddr s rs1 imm).toNat) := by
  refine ⟨_, storeFrom_of_ram ((isRam_iff _).mp hr) ((aligned_iff k _).mpr ha) rs2, fun keep => ?_⟩
  exact ⟨_, loadInto_of_ram (s := { s with ram := s.ram.store k (effectiveAddr s rs1 imm).toNat (s.x rs2) }) hr ha
    keep rd, setReg_x_same hrd _ _⟩

/-- After a store of a byte or a half-word the masking load reads the low bits back and the plain one their sign
extension. -/
theorem narrow_loads_after_storeFrom {k : MemKind} {n : Nat} (hn : n ≤ 32) {rs1 rs2 : Reg} {imm : Word} {s : State}
    (hload : (s.ram.store k (effectiveAddr s rs1 imm).toNat (s.x rs2)).load k (effectiveAddr s rs1 imm).toNat =
      ((s.x rs2).extractLsb' 0 n).signExtend 32)
    (hr : IsRam (effectiveAddr s rs1 imm)) (ha : (effectiveAddr s rs1 imm).toNat % k.bytes = 0) {rd : Reg}
    (hrd : rd ≠ 0#5) :
    ∃ t u v, storeFrom k rs2 rs1 imm s = .next t ∧
      loadInto k (fun v => v &&& BitVec.ofNat 32 (2 ^ n - 1)) rd rs1 imm t = .next u ∧
      loadInto k (fun v => v) rd rs1 imm t = .next v ∧ (u.x rd).toNat = (s.x rs2).toNat % 2 ^ n ∧
      (v.x rd).toInt = ((s.x rs2).extractLsb' 0 n).toInt := by
  obtain ⟨t, ht, hloads⟩ := loadInto_after_storeFrom hr ha hrd rs2
  obtain ⟨u, hu, hux⟩ := hloads fun v => v &&& BitVec.ofNat 32 (2 ^ n - 1)
  obtain ⟨v, hv, hvx⟩ := hloads fun v => v
  refine ⟨t, u, v, ht, hu, hv, ?_, ?_⟩
  · rw [hux, hload, signExtend_and_mask_toNat hn, BitVec.extractLsb'_toNat, Nat.shiftRight_zero]
  · rw [hvx, hload, BitVec.toInt_signExtend_of_le hn]

/-- Settles O27: each width stores its low bytes, and the loads of that width read them back with their extension. -/
theorem loadsReadBackStores : Obligations.LoadsReadBackStores := by
  refine fun rd rs1 rs2 imm s hwf hrd hr => ⟨?byte, fun ha => ?half, fun ha => ?word⟩
  case byte =>
    exact narrow_loads_after_storeFrom (k := .byte) (by omega) (load_store_byte hwf _ _) hr (Nat.mod_one _) hrd
  case half =>
    exact narrow_loads_after_storeFrom (k := .half) (by omega) (load_store_half hwf _ _) hr ha hrd
  case word =>
    obtain ⟨t, ht, hloads⟩ := loadInto_after_storeFrom (k := .word) hr ha hrd rs2
    obtain ⟨u, hu, hux⟩ := hloads fun v => v
    exact ⟨t, u, ht, hu, by rw [hux, load_store_word hwf]⟩

end Sys2Proof.Proofs
end

section
/-! PROOFS. Integer register-immediate instructions: each is one register write whose value depends on one operand
register and the immediate, and each value is the exact arithmetic of its rule. -/

namespace Sys2Proof.Proofs

open Sys2Proof.Machine Sys2Proof.Statements

/-! ### Comparisons and the shifted register (R7, R156) -/

/-- A comparison's word is 1 exactly when its test decides the condition. -/
theorem flagWord_eq_ite {c : Bool} {p : Prop} [Decidable p] (h : c = true ↔ p) :
    flagWord c = if p then 1#32 else 0#32 :=
  if_congr h rfl rfl

theorem flagWord_ltSigned (a b : Word) : flagWord (ltSigned a b) = if a.toInt < b.toInt then 1#32 else 0#32 :=
  flagWord_eq_ite (ltSigned_iff a b)

theorem flagWord_ltUnsigned (a b : Word) : flagWord (ltUnsigned a b) = if a.toNat < b.toNat then 1#32 else 0#32 :=
  flagWord_eq_ite (ltUnsigned_iff a b)

/-- SHIFTI_SRC chooses between the register with the number of the amount and rd itself. -/
theorem shiftOperand_eq_ite (rd : Reg) (imm5 : BitVec 5) (s : State) :
    shiftOperand rd imm5 s = if s.cfg.shiftiSrc = .rs1 then s.x imm5 else s.x rd := by
  rw [shiftOperand]
  cases s.cfg.shiftiSrc with
  | rs1 => rfl
  | rd => rfl

/-! ### ADDI, SLTI, SLTIU, XORI, ORI and ANDI (R150 to R155) -/

/-- An instruction that writes `f x[rs1] imm` to rd has the effect of `value`, once `f` computes it. -/
theorem immediateOp_of_setReg {op : Reg → Reg → Word → Instr} {value : Word → Word → Word} (f : Word → Word → Word)
    (hexec : ∀ rd rs1 imm s, exec (op rd rs1 imm) s = .next (s.setReg rd (f (s.x rs1) imm)))
    (hvalue : ∀ a b, f a b = value a b) : ImmediateOp op value := by
  intro rd rs1 imm s
  refine ⟨_, hexec rd rs1 imm s, ?_⟩
  rw [← hvalue]
  exact onlyReg_setReg s rd (f (s.x rs1) imm)

theorem exec_addi (rd rs1 : Reg) (imm : Word) (s : State) :
    exec (.addi rd rs1 imm) s = .next (s.setReg rd (s.x rs1 + imm)) := rfl

theorem exec_slti (rd rs1 : Reg) (imm : Word) (s : State) :
    exec (.slti rd rs1 imm) s = .next (s.setReg rd (flagWord (ltSigned (s.x rs1) imm))) := rfl

theorem exec_sltiu (rd rs1 : Reg) (imm : Word) (s : State) :
    exec (.sltiu rd rs1 imm) s = .next (s.setReg rd (flagWord (ltUnsigned (s.x rs1) imm))) := rfl

theorem exec_xori (rd rs1 : Reg) (imm : Word) (s : State) :
    exec (.xori rd rs1 imm) s = .next (s.setReg rd (s.x rs1 ^^^ imm)) := rfl

theorem exec_ori (rd rs1 : Reg) (imm : Word) (s : State) :
    exec (.ori rd rs1 imm) s = .next (s.setReg rd (s.x rs1 ||| imm)) := rfl

theorem exec_andi (rd rs1 : Reg) (imm : Word) (s : State) :
    exec (.andi rd rs1 imm) s = .next (s.setReg rd (s.x rs1 &&& imm)) := rfl

/-- Settles O39: the sum and the two flags are the exact arithmetic of their rules, and the bitwise operations are
those of the statement as they stand. -/
theorem immediateArithmetic : Obligations.ImmediateArithmetic :=
  ⟨decodesAs_build rfl, decodesAs_build rfl, decodesAs_build rfl, decodesAs_build rfl, decodesAs_build rfl,
    decodesAs_build rfl,
    immediateOp_of_setReg (fun a b => a + b) exec_addi BitVec.add_def,
    immediateOp_of_setReg (fun a b => flagWord (ltSigned a b)) exec_slti flagWord_ltSigned,
    immediateOp_of_setReg (fun a b => flagWord (ltUnsigned a b)) exec_sltiu flagWord_ltUnsigned,
    immediateOp_of_setReg (fun a b => a ^^^ b) exec_xori fun _ _ => rfl,
    immediateOp_of_setReg (fun a b => a ||| b) exec_ori fun _ _ => rfl,
    immediateOp_of_setReg (fun a b => a &&& b) exec_andi fun _ _ => rfl⟩

/-! ### SLLI, SRLI and SRAI (R156 to R159) -/

/-- An instruction that writes its shifted operand to rd has the effect of `value`, once `shift` computes it. -/
theorem shiftOp_of_setReg {op : Reg → BitVec 5 → Instr} {value : Word → Nat → Word} (shift : Word → Nat → Word)
    (hexec : ∀ rd imm5 s, exec (op rd imm5) s = .next (s.setReg rd (shift (shiftOperand rd imm5 s) imm5.toNat)))
    (hvalue : ∀ a n, shift a n = value a n) : ShiftOp op value := by
  intro rd imm5 s
  refine ⟨_, hexec rd imm5 s, ?_⟩
  rw [← shiftOperand_eq_ite, ← hvalue]
  exact onlyReg_setReg s rd (shift (shiftOperand rd imm5 s) imm5.toNat)

theorem exec_slli (rd : Reg) (imm5 : BitVec 5) (s : State) :
    exec (.slli rd imm5) s = .next (s.setReg rd (shiftLeft (shiftOperand rd imm5 s) imm5.toNat)) := rfl

theorem exec_srli (rd : Reg) (imm5 : BitVec 5) (s : State) :
    exec (.srli rd imm5) s = .next (s.setReg rd (shiftRightLogical (shiftOperand rd imm5 s) imm5.toNat)) := rfl

theorem exec_srai (rd : Reg) (imm5 : BitVec 5) (s : State) :
    exec (.srai rd imm5) s = .next (s.setReg rd (shiftRightArith (shiftOperand rd imm5 s) imm5.toNat)) := rfl

/-- Settles O40: the operand is the register that SHIFTI_SRC names, and each shift is a product or a floor quotient by
2^imm5. -/
theorem immediateShifts : Obligations.ImmediateShifts :=
  ⟨decodesAs_build rfl, decodesAs_build rfl, decodesAs_build rfl,
    shiftOp_of_setReg shiftLeft exec_slli shiftLeft_eq,
    shiftOp_of_setReg shiftRightLogical exec_srli shiftRightLogical_eq,
    shiftOp_of_setReg shiftRightArith exec_srai shiftRightArith_eq⟩

end Sys2Proof.Proofs
end

section
/-! PROOFS. Integer register-register instructions: each is one register write whose value depends on two operand
registers, and each value is the exact arithmetic of its rule. -/

namespace Sys2Proof.Proofs

open Sys2Proof.Machine Sys2Proof.Statements

/-! ### Register-register instructions as one register write (R170 to R179) -/

/-- An instruction that writes `f x[rs1] x[rs2]` to rd has the effect of `value`, once `f` computes it. Both operands are
read before the write, so rd may be one of them. -/
theorem registerOp_of_setReg {op : Reg → Reg → Reg → Instr} {value : Word → Word → Word} (f : Word → Word → Word)
    (hexec : ∀ rd rs1 rs2 s, exec (op rd rs1 rs2) s = .next (s.setReg rd (f (s.x rs1) (s.x rs2))))
    (hvalue : ∀ a b, f a b = value a b) : RegisterOp op value := by
  intro rd rs1 rs2 s
  refine ⟨_, hexec rd rs1 rs2 s, ?_⟩
  rw [← hvalue]
  exact onlyReg_setReg s rd (f (s.x rs1) (s.x rs2))

/-- A shift by the low five bits of x[rs2] is a shift by x[rs2] modulo 32 (R172 to R174). -/
theorem registerOp_of_shift {op : Reg → Reg → Reg → Instr} {value : Word → Word → Word} (shift : Word → Nat → Word)
    (hexec : ∀ rd rs1 rs2 s,
      exec (op rd rs1 rs2) s = .next (s.setReg rd (shift (s.x rs1) (registerShift (s.x rs2)))))
    (hvalue : ∀ a b, shift a (b.toNat % 32) = value a b) : RegisterOp op value := by
  refine registerOp_of_setReg (fun a b => shift a (registerShift b)) hexec fun a b => ?_
  rw [registerShift_eq]
  exact hvalue a b

/-! ### ADD, SUB, XOR, OR and AND (R170, R171, R177 to R179) -/

/-- The difference wraps modulo 2^32. -/
theorem sub_eq_ofInt (a b : Word) : a - b = BitVec.ofInt 32 ((a.toNat : Int) - b.toNat) := by
  apply BitVec.eq_of_toNat_eq
  rw [BitVec.toNat_ofInt, BitVec.toNat_sub]
  omega

theorem exec_add (rd rs1 rs2 : Reg) (s : State) :
    exec (.add rd rs1 rs2) s = .next (s.setReg rd (s.x rs1 + s.x rs2)) := rfl

theorem exec_sub (rd rs1 rs2 : Reg) (s : State) :
    exec (.sub rd rs1 rs2) s = .next (s.setReg rd (s.x rs1 - s.x rs2)) := rfl

theorem exec_xor (rd rs1 rs2 : Reg) (s : State) :
    exec (.xor rd rs1 rs2) s = .next (s.setReg rd (s.x rs1 ^^^ s.x rs2)) := rfl

theorem exec_or (rd rs1 rs2 : Reg) (s : State) :
    exec (.or rd rs1 rs2) s = .next (s.setReg rd (s.x rs1 ||| s.x rs2)) := rfl

theorem exec_and (rd rs1 rs2 : Reg) (s : State) :
    exec (.and rd rs1 rs2) s = .next (s.setReg rd (s.x rs1 &&& s.x rs2)) := rfl

/-- Settles O41: the sum and the difference are the exact ones wrapped modulo 2^32, and the bitwise operations are those
of the statement as they stand. -/
theorem registerArithmeticAndLogic : Obligations.RegisterArithmeticAndLogic :=
  ⟨decodesAs_build rfl, decodesAs_build rfl, decodesAs_build rfl, decodesAs_build rfl, decodesAs_build rfl,
    registerOp_of_setReg (fun a b => a + b) exec_add BitVec.add_def,
    registerOp_of_setReg (fun a b => a - b) exec_sub sub_eq_ofInt,
    registerOp_of_setReg (fun a b => a ^^^ b) exec_xor fun _ _ => rfl,
    registerOp_of_setReg (fun a b => a ||| b) exec_or fun _ _ => rfl,
    registerOp_of_setReg (fun a b => a &&& b) exec_and fun _ _ => rfl⟩

/-! ### SLL, SRL and SRA (R172 to R174) -/

theorem exec_sll (rd rs1 rs2 : Reg) (s : State) :
    exec (.sll rd rs1 rs2) s = .next (s.setReg rd (shiftLeft (s.x rs1) (registerShift (s.x rs2)))) := rfl

theorem exec_srl (rd rs1 rs2 : Reg) (s : State) :
    exec (.srl rd rs1 rs2) s = .next (s.setReg rd (shiftRightLogical (s.x rs1) (registerShift (s.x rs2)))) := rfl

theorem exec_sra (rd rs1 rs2 : Reg) (s : State) :
    exec (.sra rd rs1 rs2) s = .next (s.setReg rd (shiftRightArith (s.x rs1) (registerShift (s.x rs2)))) := rfl

/-- Settles O42: the amount is x[rs2] modulo 32, and each shift is a product or a floor quotient by that power of 2. -/
theorem registerShifts : Obligations.RegisterShifts :=
  ⟨decodesAs_build rfl, decodesAs_build rfl, decodesAs_build rfl,
    registerOp_of_shift shiftLeft exec_sll fun a b => shiftLeft_eq a (b.toNat % 32),
    registerOp_of_shift shiftRightLogical exec_srl fun a b => shiftRightLogical_eq a (b.toNat % 32),
    registerOp_of_shift shiftRightArith exec_sra fun a b => shiftRightArith_eq a (b.toNat % 32)⟩

/-! ### SLT and SLTU (R175, R176) -/

theorem exec_slt (rd rs1 rs2 : Reg) (s : State) :
    exec (.slt rd rs1 rs2) s = .next (s.setReg rd (flagWord (ltSigned (s.x rs1) (s.x rs2)))) := rfl

theorem exec_sltu (rd rs1 rs2 : Reg) (s : State) :
    exec (.sltu rd rs1 rs2) s = .next (s.setReg rd (flagWord (ltUnsigned (s.x rs1) (s.x rs2)))) := rfl

/-- Settles O43: each flag is 1 exactly when its comparison of the two registers holds. -/
theorem registerComparisons : Obligations.RegisterComparisons :=
  ⟨decodesAs_build rfl, decodesAs_build rfl,
    registerOp_of_setReg (fun a b => flagWord (ltSigned a b)) exec_slt flagWord_ltSigned,
    registerOp_of_setReg (fun a b => flagWord (ltUnsigned a b)) exec_sltu flagWord_ltUnsigned⟩

end Sys2Proof.Proofs
end

section
/-! PROOFS. ECALL, RETI and WFI: each is one state operation, and RETI stages the mepc that a CSR write leaves. -/

namespace Sys2Proof.Proofs

open Sys2Proof.Machine Sys2Proof.Statements

/-! ### ECALL (R190) -/

theorem exec_ecall (s : State) : exec .ecall s = .next (s.setReg 10#5 (BitVec.ofInt 32 (-1))) := rfl

/-- Settles O44: ECALL is one write of -1 to register 10. -/
theorem ecallWritesRegisterTen : Obligations.EcallWritesRegisterTen :=
  ⟨decodesAs_build rfl, fun s => ⟨_, exec_ecall s, onlyReg_setReg s 10#5 _⟩⟩

/-! ### RETI (R192) -/

theorem exec_reti (s : State) : exec .reti s = .next s.returnFromInterrupt := rfl

/-- The mask of RETI is the bit MSTATUS_IE_BIT alone. -/
theorem interruptEnable_getLsbD (cfg : Config) (b : Nat) :
    (interruptEnable cfg).getLsbD b = decide (b = cfg.mstatusIeBit.val) := by
  rw [interruptEnable, ← BitVec.twoPow_eq, BitVec.getLsbD_twoPow]
  simp [eq_comm]

/-- Setting the mask's bits sets MSTATUS_IE_BIT and keeps the others. -/
theorem or_interruptEnable_getLsbD (cfg : Config) (m : Word) (b : Nat) :
    (m ||| interruptEnable cfg).getLsbD b = if b = cfg.mstatusIeBit.val then true else m.getLsbD b := by
  rw [BitVec.getLsbD_or, interruptEnable_getLsbD]
  split <;> simp [*]

/-- Settles O46: mstatus by `or_interruptEnable_getLsbD`, and `returnFromInterrupt` changes next_pc besides. -/
theorem retiSetsEnableAndStagesMepc : Obligations.RetiSetsEnableAndStagesMepc :=
  ⟨decodesAs_build rfl, fun s => ⟨_, exec_reti s, fun b _ => or_interruptEnable_getLsbD s.cfg s.mstatus b,
    returnFromInterrupt_nextPc s, returnFromInterrupt_mepc s, x_congr (returnFromInterrupt_regs s), fun _ => rfl,
    returnFromInterrupt_trace s, ⟨rfl, rfl⟩, ⟨rfl, rfl, rfl⟩⟩⟩

/-! ### WFI (R193) -/

theorem exec_wfi (s : State) : exec .wfi s = .next s := rfl

theorem onlyNextPc_refl (s : State) : OnlyNextPc s s s.nextPc :=
  ⟨fun _ => rfl, ⟨rfl, rfl⟩, fun _ => rfl, rfl, ⟨rfl, rfl⟩, ⟨rfl, rfl, rfl⟩, rfl⟩

/-- An instruction that completes commits the staged next_pc (R88). -/
theorem commit_of_running {s : State} (h : s.halted = false) : s.commit = { s with pc := s.nextPc } := by
  rw [commit_eq_ite, if_neg (by simp [h])]

/-- Settles O47: WFI leaves the fetched state, and the commit moves pc to the next word. -/
theorem wfiIsNoOp : Obligations.WfiIsNoOp := by
  refine ⟨decodesAs_build rfl, fun s => ⟨s, exec_wfi s, onlyNextPc_refl s⟩, fun s w hs hf hop => ?_⟩
  have hd : decode s.cfg w = .instr .wfi := decode_of_select hop
  rw [step_of_exec hs hf hd (exec_wfi _), commit_of_running ((fetched_halted s w).trans hs)]
  rfl

/-! ### RETI after a CSR write (R192, R201) -/

/-- CSRRW on mepc leaves x[rs1] in it, as read before rd is written (R201). -/
theorem exec_csrrw_mepc (rd rs1 : Reg) (s : State) :
    ∃ t, exec (.csrrw rd rs1 0x341#12) s = .next t ∧ t.mepc = s.x rs1 := by
  obtain ⟨t, ht, -, ⟨-, hmepc⟩, -⟩ := csrUpdate_next true rd 0x341#12 (s.x rs1) s
  exact ⟨t, ht, hmepc⟩

/-- Settles O60: RETI stages and keeps the mepc that `exec_csrrw_mepc` describes. -/
theorem retiReturnsToWrittenMepc : Obligations.RetiReturnsToWrittenMepc := by
  intro rd rs1 s
  obtain ⟨t, ht, hmepc⟩ := exec_csrrw_mepc rd rs1 s
  exact ⟨t, _, ht, exec_reti t, (returnFromInterrupt_nextPc t).trans hmepc, (returnFromInterrupt_mepc t).trans hmepc⟩

end Sys2Proof.Proofs
end

section
/-! PROOFS. CSR instructions: each is one `csrUpdate`, and CSR_MODE chooses nothing but the write condition of CSRRS and
CSRRC. -/

namespace Sys2Proof.Proofs

open Sys2Proof.Machine Sys2Proof.Statements

/-! ### The instructions as CSR updates (R201 to R206) -/

theorem exec_csrrw (rd rs1 : Reg) (c : CsrNum) (s : State) :
    exec (.csrrw rd rs1 c) s = csrUpdate true rd c (s.x rs1) s := rfl

theorem exec_csrrs (rd rs1 : Reg) (c : CsrNum) (s : State) :
    exec (.csrrs rd rs1 c) s = csrUpdate (csrModifies s.cfg.csrMode rd rs1) rd c (s.csrRead c ||| s.x rs1) s := rfl

theorem exec_csrrc (rd rs1 : Reg) (c : CsrNum) (s : State) :
    exec (.csrrc rd rs1 c) s =
      csrUpdate (csrModifies s.cfg.csrMode rd rs1) rd c (s.csrRead c &&& ~~~(s.x rs1)) s := rfl

theorem exec_csrrwi (rd : Reg) (imm5 : BitVec 5) (c : CsrNum) (s : State) :
    exec (.csrrwi rd imm5 c) s = csrUpdate true rd c (zext5 imm5) s := rfl

theorem exec_csrrsi (rd : Reg) (imm5 : BitVec 5) (c : CsrNum) (s : State) :
    exec (.csrrsi rd imm5 c) s = csrUpdate (decide (imm5 ≠ 0#5)) rd c (s.csrRead c ||| zext5 imm5) s := rfl

theorem exec_csrrci (rd : Reg) (imm5 : BitVec 5) (c : CsrNum) (s : State) :
    exec (.csrrci rd imm5 c) s = csrUpdate (decide (imm5 ≠ 0#5)) rd c (s.csrRead c &&& ~~~(zext5 imm5)) s := rfl

/-! ### Swaps and masks (R201 to R208) -/

theorem zext5_eq_ofNat (imm5 : BitVec 5) : zext5 imm5 = BitVec.ofNat 32 imm5.toNat :=
  (BitVec.ofNat_toNat 32 imm5).symm

theorem csrModifies_iff (mode : CsrMode) (rd rs1 : Reg) :
    csrModifies mode rd rs1 = true ↔ mode = .reference ∧ rd ≠ 0#5 ∨ mode = .riscvStandard ∧ rs1 ≠ 0#5 := by
  cases mode <;> simp [csrModifies]

/-- The whole effect of a CSR update, by the proposition that its write condition decides. -/
theorem csrUpdate_onlyCsr {cond : Bool} {p : Prop} [Decidable p] (h : cond = true ↔ p) (rd : Reg) (c : CsrNum)
    (v : Word) (s : State) :
    ∃ t, csrUpdate cond rd c v s = .next t ∧ OnlyCsr s t c (if p then v else csrValue s c) rd (csrValue s c) := by
  obtain ⟨t, ht, honly⟩ := csrUpdate_next cond rd c v s
  rw [if_congr h rfl rfl] at honly
  exact ⟨t, ht, honly⟩

/-- Settles O48: both swaps are the CSR update whose write is unconditional. -/
theorem csrSwaps : Obligations.CsrSwaps := by
  refine ⟨decodesAs_build rfl, decodesAs_build rfl, fun rd rs1 c s => ?_, fun rd imm5 c s => ?_⟩
  · rw [exec_csrrw]
    exact csrUpdate_next true rd c (s.x rs1) s
  · rw [exec_csrrwi, ← zext5_eq_ofNat]
    exact csrUpdate_next true rd c (zext5 imm5) s

/-- Settles O49: both masks are the CSR update under the condition that `csrModifies_iff` spells out. -/
theorem csrMasks : Obligations.CsrMasks := by
  refine ⟨decodesAs_build rfl, decodesAs_build rfl, fun rd rs1 c s => ⟨?_, ?_⟩⟩
  · rw [exec_csrrs]
    exact csrUpdate_onlyCsr (csrModifies_iff s.cfg.csrMode rd rs1) rd c _ s
  · rw [exec_csrrc]
    exact csrUpdate_onlyCsr (csrModifies_iff s.cfg.csrMode rd rs1) rd c _ s

/-- Settles O50: both masks by an immediate are the CSR update gated on the immediate. -/
theorem csrImmediateMasks : Obligations.CsrImmediateMasks := by
  refine ⟨decodesAs_build rfl, decodesAs_build rfl, fun rd imm5 c s => ?_⟩
  rw [exec_csrrsi, exec_csrrci, ← zext5_eq_ofNat]
  exact ⟨csrUpdate_onlyCsr decide_eq_true_iff rd c _ s, csrUpdate_onlyCsr decide_eq_true_iff rd c _ s⟩

/-! ### When a CSR write changes nothing (R31, R200) -/

theorem csrWrite_of_unimplemented {c : CsrNum} (h : ¬(c = 0x300#12 ∨ c = 0x341#12)) (s : State) (v : Word) :
    s.csrWrite c v = s := by
  obtain ⟨hstatus, hepc⟩ := not_or.mp h
  rw [State.csrWrite, csrMstatus, csrMepc, if_neg hstatus, if_neg hepc]

/-- A CSR write changes the state exactly when it puts another value into an implemented CSR. -/
theorem csrWrite_eq_self_iff (s : State) (c : CsrNum) (v : Word) :
    s.csrWrite c v = s ↔ ¬((c = 0x300#12 ∨ c = 0x341#12) ∧ v ≠ s.csrRead c) := by
  constructor
  · rintro h ⟨hc, hv⟩
    have hread := csrRead_csrWrite s c c v
    rw [h, if_pos ⟨rfl, hc⟩] at hread
    exact hv hread.symm
  · intro h
    by_cases hc : c = 0x300#12 ∨ c = 0x341#12
    · obtain rfl : v = s.csrRead c := not_not.mp fun hv => h ⟨hc, hv⟩
      exact csrWrite_self s c
    · exact csrWrite_of_unimplemented hc s v

/-! ### States that differ in CSR_MODE alone (R207) -/

/-- The state under another CSR_MODE. -/
def withMode (s : State) (mode : CsrMode) : State := { s with cfg := { s.cfg with csrMode := mode } }

theorem withMode_setReg (s : State) (mode : CsrMode) (r : Reg) (v : Word) :
    (withMode s mode).setReg r v = withMode (s.setReg r v) mode := by
  unfold State.setReg
  split <;> rfl

theorem withMode_csrWriteIf (s : State) (mode : CsrMode) (cond : Bool) (c : CsrNum) (v : Word) :
    (withMode s mode).csrWriteIf cond c v = withMode (s.csrWriteIf cond c v) mode := by
  unfold State.csrWriteIf State.csrWrite
  split
  · split <;> [rfl; (split <;> rfl)]
  · rfl

theorem csrUpdate_withMode (s : State) (mode : CsrMode) (cond : Bool) (rd : Reg) (c : CsrNum) (v : Word) :
    csrUpdate cond rd c v (withMode s mode) =
      .next (withMode ((s.csrWriteIf cond c v).setReg rd (s.csrRead c)) mode) := by
  rw [csrUpdate, withMode_csrWriteIf, withMode_setReg]
  rfl

/-- No update reads CSR_MODE. -/
theorem apply_withMode (a : Update) (s : State) (mode : CsrMode) :
    a.apply (withMode s mode) = withMode (a.apply s) mode := by
  cases a with
  | reg rd v => exact withMode_setReg s mode rd v
  | jump target rd v => exact withMode_setReg (s.setNextPc target) mode rd v
  | csr c v rd old =>
    exact (congrArg (State.setReg · rd old) (withMode_csrWriteIf s mode true c v)).trans
      (withMode_setReg (s.csrWrite c v) mode rd old)
  | _ => rfl

/-! ### Every instruction but CSRRS and CSRRC makes the same update in both modes (R207) -/

theorem effectiveAddr_congr {s u : State} (h : u.regs = s.regs) (rs1 : Reg) (imm : Word) :
    effectiveAddr u rs1 imm = effectiveAddr s rs1 imm := congrArg (· + imm) (x_congr h rs1)

/-- A load's update comes of the registers and RAM. -/
theorem sameUpdate_load_of_regs_ram {s u : State} (hregs : u.regs = s.regs) (hram : u.ram = s.ram) (k : MemKind)
    (keep : Word → Word) (rd rs1 : Reg) (imm : Word) :
    SameUpdate s u (loadInto k keep rd rs1 imm s) (loadInto k keep rd rs1 imm u) := by
  have haddr := effectiveAddr_congr hregs rs1 imm
  rcases loadInto_cases k keep rd rs1 imm s with ⟨f, hf, h⟩ | ⟨v, hv, h⟩
  · exact ⟨.halt (.accessFault f.kind f.addr), h, loadInto_of_accessFault (haddr ▸ memRead_error hf) keep rd⟩
  · rw [← memRead_congr hram, ← haddr] at hv
    exact ⟨.reg rd (keep v), h, loadInto_of_read hv keep rd⟩

/-- A store's update comes of the registers and RAM. -/
theorem sameUpdate_store_of_regs_ram {s u : State} (hregs : u.regs = s.regs) (hram : u.ram = s.ram) (k : MemKind)
    (rs2 rs1 : Reg) (imm : Word) :
    SameUpdate s u (storeFrom k rs2 rs1 imm s) (storeFrom k rs2 rs1 imm u) := by
  have haddr := effectiveAddr_congr hregs rs1 imm
  rcases storeFrom_cases k rs2 rs1 imm s with ⟨f, hf, h⟩ | ⟨p, hp, h⟩ | ⟨hr, ha, h⟩
  · exact ⟨.halt (.accessFault f.kind f.addr), h, storeFrom_of_accessFault (haddr ▸ memWrite_error hf) rs2⟩
  · refine ⟨.emit (p.event (s.x rs2)), h, ?_⟩
    rw [storeFrom_of_port (haddr ▸ hp), x_congr hregs]
    rfl
  · refine ⟨.ram (s.ram.store k (effectiveAddr s rs1 imm).toNat (s.x rs2)), h, ?_⟩
    rw [storeFrom_of_ram (haddr ▸ hr) (haddr ▸ ha), haddr, hram, x_congr hregs]
    rfl

/-- A branch's update comes of its condition and pc. -/
theorem sameUpdate_branch_of_pc {s u : State} (hpc : u.pc = s.pc) (cond : Bool) (off : Word) :
    SameUpdate s u (branchIf cond off s) (branchIf cond off u) := by
  cases cond with
  | false => exact ⟨.none, rfl, rfl⟩
  | true => exact ⟨.branch (relativeTarget s off), rfl, by rw [branchIf, relativeTarget, hpc]; rfl⟩

theorem exec_sameUpdate_withMode {i : Instr} (hset : ¬∃ rd rs1 c, i = .csrrs rd rs1 c)
    (hclear : ¬∃ rd rs1 c, i = .csrrc rd rs1 c) (s : State) (mode : CsrMode) :
    SameUpdate s (withMode s mode) (exec i s) (exec i (withMode s mode)) := by
  have hpc : (withMode s mode).pc = s.pc := rfl
  have hregs : (withMode s mode).regs = s.regs := rfl
  have hram : (withMode s mode).ram = s.ram := rfl
  cases i
  case csrrs => exact absurd ⟨_, _, _, rfl⟩ hset
  case csrrc => exact absurd ⟨_, _, _, rfl⟩ hclear
  case jal => exact ⟨.jump _ _ _, rfl, rfl⟩
  case jalr => exact ⟨.jump _ _ _, rfl, rfl⟩
  case beq | bne | blt | bge | bltu | bgeu => exact sameUpdate_branch_of_pc hpc _ _
  case lb | lh | lw | lbu | lhu => exact sameUpdate_load_of_regs_ram hregs hram _ _ _ _ _
  case sb | sh | sw => exact sameUpdate_store_of_regs_ram hregs hram _ _ _ _
  case ebreak => exact ⟨.halt .ebreak, rfl, rfl⟩
  case reti => exact ⟨.reti, rfl, rfl⟩
  case wfi => exact ⟨.none, rfl, rfl⟩
  case csrrw | csrrwi | csrrsi | csrrci => exact sameUpdate_csr _ _ rfl rfl
  all_goals exact ⟨.reg _ _, rfl, rfl⟩

/-- Every instruction but CSRRS and CSRRC leads to one state under both modes, but for CSR_MODE itself. -/
theorem exec_withMode {i : Instr} (hset : ¬∃ rd rs1 c, i = .csrrs rd rs1 c)
    (hclear : ¬∃ rd rs1 c, i = .csrrc rd rs1 c) (s : State) :
    ∃ t, ∀ mode, exec i (withMode s mode) = .next (withMode t mode) := by
  obtain ⟨t, ht⟩ := exec_next i s
  refine ⟨t, fun mode => ?_⟩
  obtain ⟨a, hs, hu⟩ := exec_sameUpdate_withMode hset hclear s mode
  obtain rfl : t = a.apply s := Host.Outcome.next.inj (ht.symm.trans hs)
  rw [hu, apply_withMode]

/-! ### The two modes compared (R207) -/

theorem withMode_withCfg_eq_iff {s t : State} (h : s.cfg = t.cfg) (m n : CsrMode) :
    { withMode s m with cfg := (withMode t n).cfg } = withMode t n ↔ s = t := by
  refine ⟨fun heq => ?_, fun heq => by subst heq; rfl⟩
  calc s = { withMode t n with cfg := s.cfg } := congrArg (fun u : State => { u with cfg := s.cfg }) heq
    _ = t := by rw [h]; rfl

/-- Where each mode leads to a state `next mode` but for CSR_MODE, the modes agree when these states do. -/
theorem modes_agree_iff {i : Instr} {s : State} {next : CsrMode → State} {differ : Prop}
    (hexec : ∀ mode, exec i (withMode s mode) = .next (withMode (next mode) mode))
    (hcfg : (next .riscvStandard).cfg = (next .reference).cfg)
    (h : next .riscvStandard = next .reference ↔ ¬differ) :
    ∃ t u, exec i (withMode s .reference) = .next t ∧ exec i (withMode s .riscvStandard) = .next u ∧
      ({ u with cfg := t.cfg } = t ↔ ¬differ) :=
  ⟨_, _, hexec _, hexec _, (withMode_withCfg_eq_iff hcfg _ _).trans h⟩

theorem exec_csrrs_withMode (rd rs1 : Reg) (c : CsrNum) (s : State) (mode : CsrMode) :
    exec (.csrrs rd rs1 c) (withMode s mode) =
      csrUpdate (csrModifies mode rd rs1) rd c (s.csrRead c ||| s.x rs1) (withMode s mode) := rfl

theorem exec_csrrc_withMode (rd rs1 : Reg) (c : CsrNum) (s : State) (mode : CsrMode) :
    exec (.csrrc rd rs1 c) (withMode s mode) =
      csrUpdate (csrModifies mode rd rs1) rd c (s.csrRead c &&& ~~~(s.x rs1)) (withMode s mode) := rfl

/-- What CSRRS or CSRRC leaves under a mode, but for CSR_MODE itself; `v` is the masked value. -/
def afterMask (s : State) (rd rs1 : Reg) (c : CsrNum) (v : Word) (mode : CsrMode) : State :=
  (s.csrWriteIf (csrModifies mode rd rs1) c v).setReg rd (s.csrRead c)

theorem afterMask_cfg (s : State) (rd rs1 : Reg) (c : CsrNum) (v : Word) (mode : CsrMode) :
    (afterMask s rd rs1 c v mode).cfg = s.cfg := by
  rw [afterMask, setReg_cfg, State.csrWriteIf]
  split <;> simp

/-- The modes leave different states exactly when rd is x0, the source is not, and the write changes the CSR. A mask by
x0 writes the old value back, so it makes no difference that Reference writes it and RiscvStandard does not. -/
theorem afterMask_modes_eq_iff {s : State} {rs1 : Reg} {c : CsrNum} {v : Word} (hv : rs1 = 0#5 → v = s.csrRead c)
    (rd : Reg) :
    afterMask s rd rs1 c v .riscvStandard = afterMask s rd rs1 c v .reference ↔
      ¬(rd = 0#5 ∧ rs1 ≠ 0#5 ∧ (c = 0x300#12 ∨ c = 0x341#12) ∧ v ≠ s.csrRead c) := by
  by_cases hs : rs1 = 0#5
  · have hself : s.csrWrite c v = s := by rw [hv hs, csrWrite_self]
    simp [afterMask, State.csrWriteIf, hs, hself]
  · by_cases hd : rd = 0#5
    · simpa [afterMask, csrModifies, State.csrWriteIf, hd, hs] using csrWrite_eq_self_iff s c v
    · simp [afterMask, csrModifies, hd, hs]

/-- The comparison of the modes for an instruction that masks a CSR. -/
theorem mask_modes_agree_iff {i : Instr} {s : State} {rd rs1 : Reg} {c : CsrNum} {v : Word} {differ : Prop}
    (hexec : ∀ mode, exec i (withMode s mode) = csrUpdate (csrModifies mode rd rs1) rd c v (withMode s mode))
    (hv : rs1 = 0#5 → v = s.csrRead c)
    (h : differ ↔ rd = 0#5 ∧ rs1 ≠ 0#5 ∧ (c = 0x300#12 ∨ c = 0x341#12) ∧ v ≠ s.csrRead c) :
    ∃ t u, exec i (withMode s .reference) = .next t ∧ exec i (withMode s .riscvStandard) = .next u ∧
      ({ u with cfg := t.cfg } = t ↔ ¬differ) :=
  modes_agree_iff (next := afterMask s rd rs1 c v) (fun mode => (hexec mode).trans (csrUpdate_withMode s mode _ rd c v))
    (by rw [afterMask_cfg, afterMask_cfg]) ((afterMask_modes_eq_iff hv rd).trans (not_congr h.symm))

/-- The comparison of the modes for every other instruction. -/
theorem modes_agree_of_not_mask {i : Instr} {differ : Prop} (hset : ¬∃ rd rs1 c, i = .csrrs rd rs1 c)
    (hclear : ¬∃ rd rs1 c, i = .csrrc rd rs1 c) (h : ¬differ) (s : State) :
    ∃ t u, exec i (withMode s .reference) = .next t ∧ exec i (withMode s .riscvStandard) = .next u ∧
      ({ u with cfg := t.cfg } = t ↔ ¬differ) := by
  obtain ⟨t, ht⟩ := exec_withMode hset hclear s
  exact modes_agree_iff (next := fun _ => t) ht rfl (iff_of_true rfl h)

/-- Settles O51: CSRRS and CSRRC by `mask_modes_agree_iff`, every other instruction by `modes_agree_of_not_mask`. -/
theorem csrModesDifferOnlyWithoutDestination : Obligations.CsrModesDifferOnlyWithoutDestination := by
  intro i s
  by_cases hset : ∃ rd rs1 c, i = .csrrs rd rs1 c
  · obtain ⟨rd, rs1, c, rfl⟩ := hset
    refine mask_modes_agree_iff (exec_csrrs_withMode rd rs1 c s) (fun h => ?_) ⟨?_, ?_⟩
    · rw [h, x_zero, BitVec.or_zero]
    · rintro ⟨_, _, hs, hc, ⟨⟨⟩, hv⟩ | ⟨⟨⟩, _⟩⟩
      exact ⟨rfl, hs, hc, hv⟩
    · rintro ⟨rfl, hs, hc, hv⟩
      exact ⟨rs1, c, hs, hc, .inl ⟨rfl, hv⟩⟩
  by_cases hclear : ∃ rd rs1 c, i = .csrrc rd rs1 c
  · obtain ⟨rd, rs1, c, rfl⟩ := hclear
    refine mask_modes_agree_iff (exec_csrrc_withMode rd rs1 c s) (fun h => ?_) ⟨?_, ?_⟩
    · rw [h, x_zero, BitVec.not_zero, BitVec.and_allOnes]
    · rintro ⟨_, _, hs, hc, ⟨⟨⟩, _⟩ | ⟨⟨⟩, hv⟩⟩
      exact ⟨rfl, hs, hc, hv⟩
    · rintro ⟨rfl, hs, hc, hv⟩
      exact ⟨rs1, c, hs, hc, .inr ⟨rfl, hv⟩⟩
  refine modes_agree_of_not_mask hset hclear ?_ s
  rintro ⟨rs1, c, -, -, ⟨rfl, -⟩ | ⟨rfl, -⟩⟩
  · exact hset ⟨_, rs1, c, rfl⟩
  · exact hclear ⟨_, rs1, c, rfl⟩

end Sys2Proof.Proofs
end

section
/-! PROOFS. Multiply and divide: each instruction is one register write of half of an exact product or of a quotient or
remainder, and the two signed results of ordinary operands satisfy the division law. -/

namespace Sys2Proof.Proofs

open Sys2Proof.Machine Sys2Proof.Statements

/-! ### MUL, MULH, MULHSU and MULHU (R220 to R223) -/

/-- The two readings of a word differ by a multiple of 2^32, so the low half of a product is the same for
both (R220). -/
theorem productLow_eq_ofNat (a b : Word) :
    productLow (a.toInt * b.toInt) = BitVec.ofNat 32 (a.toNat * b.toNat) := by
  calc productLow (a.toInt * b.toInt)
      = BitVec.ofInt 32 a.toInt * BitVec.ofInt 32 b.toInt := by rw [productLow_eq, BitVec.ofInt_mul]
    _ = BitVec.ofNat 32 a.toNat * BitVec.ofNat 32 b.toNat := by
      rw [BitVec.ofInt_toInt, BitVec.ofInt_toInt, BitVec.ofNat_toNat, BitVec.ofNat_toNat, BitVec.setWidth_eq,
        BitVec.setWidth_eq]
    _ = BitVec.ofNat 32 (a.toNat * b.toNat) := (BitVec.ofNat_mul _ _).symm

/-- The high half of an unsigned product is a quotient of natural numbers (R223). -/
theorem productHigh_natCast (m n : Nat) :
    productHigh ((m : Int) * (n : Int)) = BitVec.ofNat 32 (m * n / 2 ^ 32) := by
  rw [productHigh_eq, ← BitVec.ofInt_natCast]
  norm_cast

theorem exec_mul (rd rs1 rs2 : Reg) (s : State) :
    exec (.mul rd rs1 rs2) s = .next (s.setReg rd (productLow ((s.x rs1).toInt * (s.x rs2).toInt))) := rfl

theorem exec_mulh (rd rs1 rs2 : Reg) (s : State) :
    exec (.mulh rd rs1 rs2) s = .next (s.setReg rd (productHigh ((s.x rs1).toInt * (s.x rs2).toInt))) := rfl

theorem exec_mulhsu (rd rs1 rs2 : Reg) (s : State) :
    exec (.mulhsu rd rs1 rs2) s =
      .next (s.setReg rd (productHigh ((s.x rs1).toInt * ((s.x rs2).toNat : Int)))) := rfl

theorem exec_mulhu (rd rs1 rs2 : Reg) (s : State) :
    exec (.mulhu rd rs1 rs2) s =
      .next (s.setReg rd (productHigh (((s.x rs1).toNat : Int) * ((s.x rs2).toNat : Int)))) := rfl

/-- Settles O52: the low half is the product of either reading wrapped modulo 2^32, and the high half of the unsigned
product is its quotient by 2^32. -/
theorem lowAndUnsignedProducts : Obligations.LowAndUnsignedProducts :=
  ⟨decodesAs_build rfl, decodesAs_build rfl,
    registerOp_of_setReg (fun a b => productLow (a.toInt * b.toInt)) exec_mul productLow_eq_ofNat,
    registerOp_of_setReg (fun a b => productLow (a.toInt * b.toInt)) exec_mul fun _ _ => productLow_eq _,
    registerOp_of_setReg (fun a b => productHigh ((a.toNat : Int) * (b.toNat : Int))) exec_mulhu
      fun a b => productHigh_natCast a.toNat b.toNat⟩

/-- Settles O53: the high half of an exact product is its floor quotient by 2^32, whatever its sign. -/
theorem signedHighProducts : Obligations.SignedHighProducts :=
  ⟨decodesAs_build rfl, decodesAs_build rfl,
    registerOp_of_setReg (fun a b => productHigh (a.toInt * b.toInt)) exec_mulh fun _ _ => productHigh_eq _,
    registerOp_of_setReg (fun a b => productHigh (a.toInt * (b.toNat : Int))) exec_mulhsu
      fun _ _ => productHigh_eq _⟩

/-! ### DIV, DIVU, REM and REMU (R224 to R227) -/

/-- Truncated division is the quotient of the magnitudes with the sign of the exact quotient; where the magnitude of the
dividend is the smaller one, both sides are 0. -/
theorem truncQuotient_eq_tdiv (a b : Int) : truncQuotient a b = a.tdiv b := by
  have hsign := Int.sign_mul_natAbs (a.tdiv b)
  rw [Int.sign_tdiv, Int.natAbs_tdiv] at hsign
  rw [← hsign, truncQuotient]
  split
  · next h => rw [Nat.div_eq_of_lt h, Int.natCast_zero, mul_zero, zero_mul]
  · rfl

theorem divSigned_eq (a b : Word) :
    divSigned a b =
      if b = 0#32 then 0xFFFFFFFF#32
      else if a = 0x80000000#32 ∧ b = 0xFFFFFFFF#32 then 0x80000000#32
      else BitVec.ofInt 32 (truncQuotient a.toInt b.toInt) := by
  rw [truncQuotient_eq_tdiv]
  rfl

theorem remSigned_eq (a b : Word) :
    remSigned a b =
      if b = 0#32 then a
      else if a = 0x80000000#32 ∧ b = 0xFFFFFFFF#32 then 0#32
      else BitVec.ofInt 32 (a.toInt - b.toInt * truncQuotient a.toInt b.toInt) := by
  rw [truncQuotient_eq_tdiv]
  rfl

theorem exec_div (rd rs1 rs2 : Reg) (s : State) :
    exec (.div rd rs1 rs2) s = .next (s.setReg rd (divSigned (s.x rs1) (s.x rs2))) := rfl

theorem exec_divu (rd rs1 rs2 : Reg) (s : State) :
    exec (.divu rd rs1 rs2) s = .next (s.setReg rd (divUnsigned (s.x rs1) (s.x rs2))) := rfl

theorem exec_rem (rd rs1 rs2 : Reg) (s : State) :
    exec (.rem rd rs1 rs2) s = .next (s.setReg rd (remSigned (s.x rs1) (s.x rs2))) := rfl

theorem exec_remu (rd rs1 rs2 : Reg) (s : State) :
    exec (.remu rd rs1 rs2) s = .next (s.setReg rd (remUnsigned (s.x rs1) (s.x rs2))) := rfl

/-- Settles O54: the special cases are tested in the statement's order, and the ordinary quotient is the truncated
one. -/
theorem divisionResults : Obligations.DivisionResults :=
  ⟨decodesAs_build rfl, decodesAs_build rfl, decodesAs_build rfl, decodesAs_build rfl,
    registerOp_of_setReg divSigned exec_div divSigned_eq,
    registerOp_of_setReg divUnsigned exec_divu fun _ _ => rfl,
    registerOp_of_setReg remSigned exec_rem remSigned_eq,
    registerOp_of_setReg remUnsigned exec_remu fun _ _ => rfl⟩

/-! ### The division law (48_muldiv section 2) -/

/-- Away from the special cases the truncated quotient fits a word: it is the one that bit-vector division computes. -/
theorem divSigned_toInt {a b : Word} (hzero : b ≠ 0#32) (hoverflow : ¬(a = 0x80000000#32 ∧ b = 0xFFFFFFFF#32)) :
    (divSigned a b).toInt = a.toInt.tdiv b.toInt := by
  have hsdiv := BitVec.toInt_sdiv_of_ne_or_ne a b (not_and_or.mp hoverflow)
  rw [divSigned, if_neg hzero, if_neg hoverflow, ← hsdiv, BitVec.ofInt_toInt]

/-- Away from the special cases the remainder fits a word. -/
theorem remSigned_toInt {a b : Word} (hzero : b ≠ 0#32) (hoverflow : ¬(a = 0x80000000#32 ∧ b = 0xFFFFFFFF#32)) :
    (remSigned a b).toInt = a.toInt.tmod b.toInt := by
  rw [remSigned, if_neg hzero, if_neg hoverflow, ← Int.tmod_def, ← BitVec.toInt_srem, BitVec.ofInt_toInt]

theorem natAbs_tmod_lt (a : Int) {b : Int} (h : b ≠ 0) : (a.tmod b).natAbs < b.natAbs := by
  rw [Int.natAbs_tmod]
  exact Nat.mod_lt _ (Int.natAbs_pos.mpr h)

theorem tmod_nonpos {a : Int} (b : Int) (h : a ≤ 0) : a.tmod b ≤ 0 := by
  have hneg := Int.tmod_nonneg b (Int.neg_nonneg.mpr h)
  rw [Int.neg_tmod] at hneg
  exact Int.neg_nonneg.mp hneg

/-- Settles O55: the two results are truncated division and its remainder, whose law is that of the integers. -/
theorem divisionLaw : Obligations.DivisionLaw := by
  intro q r rs1 rs2 s hq hr hzero hoverflow
  have hb : (s.x rs2).toInt ≠ 0 := fun h => hzero (BitVec.eq_of_toInt_eq h)
  refine ⟨_, _, exec_div q rs1 rs2 s, exec_rem r rs1 rs2 s, ?_⟩
  rw [setReg_x_same hq, setReg_x_same hr, divSigned_toInt hzero hoverflow, remSigned_toInt hzero hoverflow]
  exact ⟨(Int.mul_tdiv_add_tmod _ _).symm, natAbs_tmod_lt _ hb, Int.tmod_nonneg _, tmod_nonpos _⟩

end Sys2Proof.Proofs
end

section
/-! PROOFS. Faults and the halt: the access tests in order, the halts on an unknown opcode and on EBREAK, and where
a run under a budget stands. -/

namespace Sys2Proof.Proofs

open Sys2Proof.Machine Sys2Proof.Statements

/-! ### Access tests (R246) -/

/-- Settles O25: each class of address has its rule for the read and for the write; a port and an aligned RAM address
pass the tests, and the other two classes fail them with their own fault. -/
theorem accessTestsInOrder : Obligations.AccessTestsInOrder := by
  refine fun s k a v => ⟨fun hport => ?_, fun hport hram => ?_, fun hram hne => ?_, fun hram ha => ?_⟩
  · obtain ⟨p, hp⟩ := exists_portAt hport
    exact ⟨⟨_, memRead_of_port hport s k⟩, _, memWrite_of_port hp k s v⟩
  · have hf := accessFault_outOfRange (k := k) hport hram
    exact ⟨memRead_of_accessFault hf s, memWrite_of_accessFault hf s v⟩
  · have hf := accessFault_misaligned hram hne
    exact ⟨memRead_of_accessFault hf s, memWrite_of_accessFault hf s v⟩
  · exact ⟨⟨_, memRead_of_ram hram ha s⟩, _,
      memWrite_of_ram ((isRam_iff a).mp hram) ((aligned_iff k a).mpr ha) s v⟩

/-! ### The halt on an unknown opcode (R88, R243) -/

@[simp] theorem haltOnOpcode_nextPc (s : State) (w : Word) (op : Opcode) :
    (s.haltOnOpcode w op).nextPc = s.pc + 4#32 := by simp [State.haltOnOpcode]
@[simp] theorem haltOnOpcode_regs (s : State) (w : Word) (op : Opcode) : (s.haltOnOpcode w op).regs = s.regs := by
  simp [State.haltOnOpcode]

/-- PC_AFTER_HALT decides where an unknown opcode leaves pc (R88). -/
theorem haltOnOpcode_pc (s : State) (w : Word) (op : Opcode) :
    (s.haltOnOpcode w op).pc = if s.cfg.pcAfterHalt = .advance then s.pc + 4#32 else s.pc := by
  cases h : s.cfg.pcAfterHalt <;> simp [State.haltOnOpcode, commit_pc, h]

/-- Settles O10: the step answers `haltOnOpcode`, whose fields are those of the fetched state but for the halt
and pc. -/
theorem unknownOpcodeHalts : Obligations.UnknownOpcodeHalts := by
  intro s w hs hf hnone
  have hd : decode s.cfg w = .unknownOpcode (w.extractLsb' 0 7) := (decode_unknownOpcode_iff _ _ _).mpr ⟨hnone, rfl⟩
  exact ⟨_, step_of_unknownOpcode hs hf hd, haltOnOpcode_halted _ _ _, haltOnOpcode_haltCause _ _ _,
    haltOnOpcode_ir _ _ _, haltOnOpcode_nextPc _ _ _, haltOnOpcode_pc _ _ _, x_congr (haltOnOpcode_regs _ _ _),
    ⟨haltOnOpcode_mstatus _ _ _, haltOnOpcode_mepc _ _ _⟩, fun a => by rw [haltOnOpcode_ram],
    haltOnOpcode_trace _ _ _, haltOnOpcode_cfg _ _ _⟩

/-! ### EBREAK (R191, R244) -/

theorem exec_ebreak (s : State) : exec .ebreak s = .next (s.halt .ebreak) := rfl

/-- Settles O45: EBREAK is one halt, with the one cause that is no fault. -/
theorem ebreakHaltsWithoutFault : Obligations.EbreakHaltsWithoutFault :=
  ⟨decodesAs_build rfl, fun s => ⟨_, exec_ebreak s, onlyHalt_halt s .ebreak, rfl⟩⟩

/-! ### The halted state is final (R245) -/

theorem step_of_halted {s : State} (h : s.halted = true) : step s = .fault .halted := if_pos h

/-- Settles O12: the step of a halted engine answers `Fault.halted`, and the reset builds a running state. -/
theorem haltedEngineTakesNoStep : Obligations.HaltedEngineTakesNoStep := by
  refine fun s => ⟨fun h t hstep => ?_, hostReset_halted s⟩
  rw [step_of_halted h] at hstep
  cases hstep

/-! ### Runs under a step budget (R272, R273, R276) -/

theorem run_zero_of_running {s : State} (h : s.halted = false) : runUntilHalted 0 s = .noEnd s := by
  simp [runUntilHalted, h]

/-- Where a run stands after its budget: at a halted state that every larger budget finds too, or at a running state
with the budget used up. It is never stuck, since a running engine always steps. -/
theorem run_outcome (n : Nat) (s : State) :
    (∃ t, t.halted = true ∧ Reaches s t ∧ ∀ m, n ≤ m → runUntilHalted m s = .ended t) ∨
      ∃ t, t.halted = false ∧ Reaches s t ∧ runUntilHalted n s = .noEnd t := by
  induction n generalizing s with
  | zero =>
    cases hs : s.halted with
    | true => exact .inl ⟨s, hs, .refl s, fun m _ => run_of_halted hs m⟩
    | false => exact .inr ⟨s, hs, .refl s, run_zero_of_running hs⟩
  | succ n ih =>
    cases hs : s.halted with
    | true => exact .inl ⟨s, hs, .refl s, fun m _ => run_of_halted hs m⟩
    | false =>
      obtain ⟨u, hu⟩ := runningEngineAlwaysSteps s hs
      obtain ⟨t, ht, hreach, hrun⟩ | ⟨t, ht, hreach, hrun⟩ := ih u
      · refine .inl ⟨t, ht, .next hu hreach, fun m hm => ?_⟩
        obtain ⟨m, rfl⟩ := Nat.exists_eq_add_of_le' (Nat.le_of_add_left_le hm)
        exact (run_succ hu m).trans (hrun m (Nat.le_of_succ_le_succ hm))
      · exact .inr ⟨t, ht, .next hu hreach, (run_succ hu n).trans hrun⟩

/-- The number of steps to a halted state is a budget that finds it (R273). -/
theorem exists_run_of_reaches {s t : State} (hreach : Reaches s t) (ht : t.halted = true) :
    ∃ n, runUntilHalted n s = .ended t := by
  induction hreach with
  | refl s => exact ⟨0, run_of_halted ht 0⟩
  | next first _ ih =>
    obtain ⟨n, hn⟩ := ih ht
    exact ⟨n + 1, (run_succ first n).trans hn⟩

/-- Settles O59: the two outcomes of `run_outcome` give soundness, stability and no stuck run, and
`exists_run_of_reaches` the budget for every end. -/
theorem budgetedRunFindsTheEnd : Obligations.BudgetedRunFindsTheEnd := by
  refine fun s t => ⟨fun n h => ?_, exists_run_of_reaches, fun n h => ?_, fun n h => ?_⟩
  · obtain ⟨u, hu, hreach, hrun⟩ | ⟨u, -, -, hrun⟩ := run_outcome n s
    · obtain rfl : u = t := RunEnd.ended.inj ((hrun n le_rfl).symm.trans h)
      exact ⟨hu, hreach, hrun⟩
    · cases hrun.symm.trans h
  · obtain ⟨u, -, -, hrun⟩ | ⟨u, hu, hreach, hrun⟩ := run_outcome n s
    · cases (hrun n le_rfl).symm.trans h
    · obtain rfl : u = t := RunEnd.noEnd.inj (hrun.symm.trans h)
      exact ⟨hu, hreach⟩
  · obtain ⟨u, -, -, hrun⟩ | ⟨u, -, -, hrun⟩ := run_outcome n s
    · cases (hrun n le_rfl).symm.trans h
    · cases hrun.symm.trans h

end Sys2Proof.Proofs
end
